-- ==== Sys2Proof/Word.lean ====
section
/-! DEFINITION. The byte, the one width every byte space of the block has (00_scope.md R9, 10_state.md R30). -/

namespace Sys2Proof

/-- A byte: 8 bits, unsigned (R9). -/
abbrev Byte := BitVec 8

end Sys2Proof
end

