-- ==== Sys2Proof/Config.lean ====
section
/-! DEFINITION. The fixed parameters of 00_scope.md R7, the parameters R8 leaves open with the value the spec
takes for each, and the free values (constants with no body) for what the spec leaves unspecified. -/

namespace Sys2Proof.Config

/-- `MAX_CHUNK` (R7): the largest originalLength, and the encoder's chunk size. -/
def maxChunk : Nat := 65535

/-- `MAX_LIT` (R7): the longest literal run. -/
def maxLit : Nat := 32

/-- `MAX_OFF` (R7): the largest backreference offset. -/
def maxOff : Nat := 8192

/-- `MIN_MATCH` (R7): the shortest accepted match. -/
def minMatch : Nat := 3

/-- `MAX_MATCH` (R7): the longest match. -/
def maxMatch : Nat := 264

/-- `MAGIC[0]` (R8, R71): the first marker byte, the spec's own decision D1 (log entry 1). -/
def magic0 : Byte := 0x5A#8

/-- `MAGIC[1]` (R8, R71): the second marker byte, the spec's own decision D1 (log entry 1). -/
def magic1 : Byte := 0x56#8

/-- `T_RAW` (R7): the type code of a RAW chunk. -/
def typeRaw : Byte := 0x00#8

/-- `T_COMP` (R7): the type code of a COMPRESSED chunk. -/
def typeComp : Byte := 0x01#8

/-- `HASH_BITS` (R8): the hash table has `2 ^ hashBits` entries (log entry 4). -/
def hashBits : Nat := 14

/-- The multiplier of `hash3` (41_match_finder.md R121, log entry 4). -/
def hashMultiplier : Nat := 2654435761

/-- The two values of the parameter `ENC_POLICY` (R8, R130). -/
inductive EncPolicy where
  /-- The exact greedy finder of R122 to R128. -/
  | reference
  /-- Any finder whose matches satisfy R129: which match it returns is the free value `freeMatch`. -/
  | conformant
  deriving DecidableEq, Repr

/-- `ENC_POLICY` (R8): the value the spec takes (log entry 4). -/
def encPolicy : EncPolicy := .reference

/-- FREE VALUE (R130, U1): the `(off, len)` that a conformant finder proposes at a scan position of a slice. -/
opaque freeMatch : List Byte → Nat → Option (Nat × Nat)

/-- FREE VALUE (R32, U5): what numbered working register of R21 holds between operations; the first argument
counts the occasions (log entry 13). -/
opaque freeNat : Nat → Nat → Nat

/-- FREE VALUE (R32, U5): the entries the hash table holds between operations (log entry 13). -/
opaque freeTable : Nat → List (Nat × Nat)

/-- FREE VALUE (R32, U5): the window left between operations, which fixes the register `op` (log entry 13). -/
opaque freeBytes : Nat → List Byte

end Sys2Proof.Config
end

