-- ==== Sys2Proof/Syntax.lean ====
section
/-! DEFINITION. The instructions of the block: one constructor per row of spec/opcode_table.json. The first five
are the byte-coded forms a DECODE executes (30_encoding.md R70), the other nine the operations of 00_scope.md R12.
An operand is what the row's fields hold: a token's or header's bit fields, an operation's operands (R81). -/

namespace Sys2Proof

/-- The instructions (00_scope.md R12). -/
inductive Instr where
  /-- `LIT` (R74): a literal run; the field `n1` is the number of bytes less one. -/
  | lit (bytes : List Byte)
  /-- `REF_S` (R75): `l` = length − 2 (1..6), `o` = offset − 1. -/
  | refS (l : BitVec 3) (o : BitVec 13)
  /-- `REF_L` (R76): `e` = length − 9, `o` = offset − 1. -/
  | refL (e : Byte) (o : BitVec 13)
  /-- `HDR_RAW` (R71): `n` = originalLength. -/
  | hdrRaw (n : BitVec 16)
  /-- `HDR_COMP` (R72): `n` = originalLength, `m` = compressedLength. -/
  | hdrComp (n m : BitVec 16)
  /-- `ENCODE` (R140): the input bytes. -/
  | encode (input : List Byte)
  /-- `DECODE` (R170): the encoded bytes. -/
  | decode (input : List Byte)
  /-- `W_OPEN` (R200): the sink, with the bytes it holds when it is handed over (log entry 7), and the block size. -/
  | wOpen (sink : List Byte) (blockSize : Nat)
  /-- `W_WRITE` (R201): the Writer's handle and the bytes pushed. -/
  | wWrite (handle : Nat) (data : List Byte)
  /-- `W_FLUSH` (R204): the Writer's handle. -/
  | wFlush (handle : Nat)
  /-- `W_CLOSE` (R205): the Writer's handle. -/
  | wClose (handle : Nat)
  /-- `R_OPEN` (R210): the source, a finite byte sequence. -/
  | rOpen (source : List Byte)
  /-- `R_READ` (R211): the Reader's handle and the capacity `k`. -/
  | rRead (handle capacity : Nat)
  /-- `R_CLOSE` (R219): the Reader's handle. -/
  | rClose (handle : Nat)
  deriving DecidableEq, Repr

end Sys2Proof
end

