-- ==== Sys2Proof/WellFormed.lean ====
section
/-! DEFINITION. Which instructions are legal terms: the ranges 30_encoding.md gives the fields of each form. An
operation's operands have no illegal value (an illegal block size is an error of the operation, R200). -/

namespace Sys2Proof

/-- A literal run holds `MIN_LIT..MAX_LIT` bytes (R74). -/
def litLegal (bytes : List Byte) : Bool :=
  decide (1 ≤ bytes.length) && decide (bytes.length ≤ Config.maxLit)

/-- The field `l` of `REF_S` is 1..6: 0 spells `LIT` and 7 spells `REF_L` (R73, R75). -/
def refSLegal (l : BitVec 3) : Bool :=
  decide (l ≠ 0#3) && decide (l ≠ 7#3)

/-- originalLength is 1..65535 (R71, R105). -/
def originalLegal (n : BitVec 16) : Bool :=
  decide (n ≠ 0#16)

/-- compressedLength is 1..originalLength (R72, R105). -/
def compressedLegal (n m : BitVec 16) : Bool :=
  decide (m ≠ 0#16) && decide (m.toNat ≤ n.toNat)

/-- The instruction's fields are in the ranges of 30_encoding.md. -/
def Instr.wf : Instr → Bool
  | .lit bytes => litLegal bytes
  | .refS l _ => refSLegal l
  | .refL _ _ => true
  | .hdrRaw n => originalLegal n
  | .hdrComp n m => originalLegal n && compressedLegal n m
  | .encode _ => true
  | .decode _ => true
  | .wOpen _ _ => true
  | .wWrite _ _ => true
  | .wFlush _ => true
  | .wClose _ => true
  | .rOpen _ => true
  | .rRead _ _ => true
  | .rClose _ => true

end Sys2Proof
end

