-- ==== Sys2Proof/Decode.lean ====
section
/-! DEFINITION. Decoding (30_encoding.md, 40_chunk_format.md R103 steps 1 to 5): total on any bytes, every refusal
named; then the encoder, written from the same layouts. The block has three encoding spaces that overlap (R70), so
a fetch says which one its bytes stand in. -/

namespace Sys2Proof

/-! ## Bit fields and byte order -/

/-- A big-endian 16-bit field, the first byte the more significant (20_memory.md R50). -/
def u16be (hi lo : Byte) : BitVec 16 := hi ++ lo

/-- The two bytes of a 16-bit field, in stream order (00_scope.md R10 `be16`). -/
def be16 (v : BitVec 16) : List Byte := [v.extractLsb' 8 8, v.extractLsb' 0 8]

/-- The 13-bit offset field of a backreference: its high 5 bits from the control byte, its low 8 bits from the
token's last byte (20_memory.md R51). -/
def offsetField (ctrl lo : Byte) : BitVec 13 := ctrl.extractLsb' 0 5 ++ lo

/-- Bits 7:5 of a control byte, which select the token's form (R73). -/
def formBits (ctrl : Byte) : BitVec 3 := ctrl.extractLsb' 5 3

/-- A control byte from its form bits and the high part of the offset field (R75 to R77). -/
def controlByte (form : BitVec 3) (o : BitVec 13) : Byte := form ++ o.extractLsb' 8 5

/-! ## The byte-coded forms -/

/-- A token, as its fields (R74 to R76). -/
inductive TokenForm where
  | lit (bytes : List Byte)
  | refS (l : BitVec 3) (o : BitVec 13)
  | refL (e : Byte) (o : BitVec 13)
  deriving DecidableEq, Repr

/-- A chunk header, as its fields (R71, R72). -/
inductive HeaderForm where
  | raw (n : BitVec 16)
  | comp (n m : BitVec 16)
  deriving DecidableEq, Repr

/-- The instruction a token is. -/
def TokenForm.instr : TokenForm → Instr
  | .lit bytes => .lit bytes
  | .refS l o => .refS l o
  | .refL e o => .refL e o

/-- The instruction a chunk header is. -/
def HeaderForm.instr : HeaderForm → Instr
  | .raw n => .hdrRaw n
  | .comp n m => .hdrComp n m

/-- A token's size in bytes (R70, R79). -/
def TokenForm.size : TokenForm → Nat
  | .lit bytes => 1 + bytes.length
  | .refS _ _ => 2
  | .refL _ _ => 3

/-- `hdrLen`: a header's size in bytes (R70, R103). -/
def HeaderForm.size : HeaderForm → Nat
  | .raw _ => 5
  | .comp _ _ => 7

/-- originalLength as the header states it. -/
def HeaderForm.original : HeaderForm → BitVec 16
  | .raw n => n
  | .comp n _ => n

/-- `payloadLen` (R103): originalLength of a RAW chunk, compressedLength of a COMPRESSED one. -/
def HeaderForm.payloadLen : HeaderForm → Nat
  | .raw n => n.toNat
  | .comp _ m => m.toNat

/-! ## Commands -/

/-- The operands that stand beside a command code (R81). The spec gives them no byte encoding, so they are a
record; an operation reads those it names and the others are unused (log entry 8). -/
structure Operands where
  /-- input bytes, encoded bytes, bytes written, or a source -/
  bytes : List Byte := []
  /-- a Writer's or Reader's handle -/
  handle : Nat := 0
  /-- a sink, with the bytes it holds (log entry 7) -/
  sink : List Byte := []
  /-- a block size or a capacity -/
  number : Nat := 0
  deriving DecidableEq, Repr

/-! ## What is fetched, and why it may not decode -/

/-- The bytes of a fetch and the encoding space they stand in (R70). -/
inductive Fetched where
  /-- all bytes from the next chunk header to the end of the input -/
  | header (bytes : List Byte)
  /-- all bytes from the next token to the payload's end -/
  | token (bytes : List Byte)
  /-- a command code and its operands -/
  | command (code : Byte) (args : Operands)
  deriving DecidableEq, Repr

/-- Why bytes are no instruction. -/
inductive Reject where
  /-- fewer than 2 bytes left at a header (R103 step 1) -/
  | headerNoMagic
  /-- the marker bytes differ (R103 step 2) -/
  | badMagic
  /-- fewer than 3 bytes left at a header (R103 step 3) -/
  | headerNoType
  /-- a type byte of 2..255 (R103 step 4) -/
  | badType
  /-- fewer bytes left than the header has (R103 step 5) -/
  | headerCut
  /-- the token's bytes run past the payload's end (R179) -/
  | tokenCut
  /-- a reserved command code (R81) -/
  | reservedCommand
  deriving DecidableEq, Repr

/-! ## Decoding -/

/-- Steps 1 to 5 of `parseHeader` (R103): which header stands at the front of the remaining bytes. -/
def decodeHeader : List Byte → Except Reject HeaderForm
  | [] => .error .headerNoMagic
  | [_] => .error .headerNoMagic
  | m0 :: m1 :: rest =>
    if m0 = Config.magic0 ∧ m1 = Config.magic1 then
      match rest with
      | [] => .error .headerNoType
      | ty :: fields =>
        if ty = Config.typeRaw then
          match fields with
          | n1 :: n0 :: _ => .ok (.raw (u16be n1 n0))
          | _ => .error .headerCut
        else if ty = Config.typeComp then
          match fields with
          | n1 :: n0 :: c1 :: c0 :: _ => .ok (.comp (u16be n1 n0) (u16be c1 c0))
          | _ => .error .headerCut
        else .error .badType
    else .error .badMagic

/-- Which token stands at the front of the payload's remaining bytes (R73, R79, R177): the control byte alone
selects the form, and every control byte selects one. -/
def decodeToken : List Byte → Except Reject TokenForm
  | [] => .error .tokenCut
  | ctrl :: rest =>
    if formBits ctrl = 0#3 then
      let k := (ctrl.extractLsb' 0 5).toNat + 1
      if rest.length < k then .error .tokenCut else .ok (.lit (rest.take k))
    else if formBits ctrl = 7#3 then
      match rest with
      | e :: lo :: _ => .ok (.refL e (offsetField ctrl lo))
      | _ => .error .tokenCut
    else
      match rest with
      | lo :: _ => .ok (.refS (formBits ctrl) (offsetField ctrl lo))
      | [] => .error .tokenCut

/-- Which operation a command code names (R81). -/
def decodeCommand (code : Byte) (a : Operands) : Except Reject Instr :=
  if code = 0x01#8 then .ok (.encode a.bytes)
  else if code = 0x02#8 then .ok (.decode a.bytes)
  else if code = 0x10#8 then .ok (.wOpen a.sink a.number)
  else if code = 0x11#8 then .ok (.wWrite a.handle a.bytes)
  else if code = 0x12#8 then .ok (.wFlush a.handle)
  else if code = 0x13#8 then .ok (.wClose a.handle)
  else if code = 0x20#8 then .ok (.rOpen a.bytes)
  else if code = 0x21#8 then .ok (.rRead a.handle a.number)
  else if code = 0x22#8 then .ok (.rClose a.handle)
  else .error .reservedCommand

/-- Decode a fetch. -/
def decode : Fetched → Except Reject Instr
  | .header bytes => (decodeHeader bytes).map HeaderForm.instr
  | .token bytes => (decodeToken bytes).map TokenForm.instr
  | .command code args => decodeCommand code args

/-! ## Encoding -/

/-- A token's bytes (R74 to R76). The spec gives them for a well-formed token. The bytes of any other stand for nothing:
the model's choice (log entry 20). -/
def encodeToken : TokenForm → List Byte
  | .lit bytes => BitVec.ofNat 8 (bytes.length - 1) :: bytes
  | .refS l o => [controlByte l o, o.extractLsb' 0 8]
  | .refL e o => [controlByte 7#3 o, e, o.extractLsb' 0 8]

/-- The layout of a chunk header (R71, R72), whatever its fields hold: a stream may also carry lengths that R105
rejects. -/
def headerBytes : HeaderForm → List Byte
  | .raw n => [Config.magic0, Config.magic1, Config.typeRaw] ++ be16 n
  | .comp n m => [Config.magic0, Config.magic1, Config.typeComp] ++ be16 n ++ be16 m

/-- `writeHeader` (40_chunk_format.md R100, R101): a chunk header's bytes. A call with originalLength 0, with
compressedLength 0 or with compressedLength above originalLength has no meaning and is refused. -/
def writeHeader (h : HeaderForm) : Option (List Byte) :=
  if h.instr.wf then some (headerBytes h) else none

/-- The encoding of a well-formed instruction: the bytes of a form in its space, or a command code with its
operands. -/
def encode : Instr → Fetched
  | .lit bytes => .token (encodeToken (.lit bytes))
  | .refS l o => .token (encodeToken (.refS l o))
  | .refL e o => .token (encodeToken (.refL e o))
  | .hdrRaw n => .header (headerBytes (.raw n))
  | .hdrComp n m => .header (headerBytes (.comp n m))
  | .encode input => .command 0x01#8 { bytes := input }
  | .decode input => .command 0x02#8 { bytes := input }
  | .wOpen sink blockSize => .command 0x10#8 { sink := sink, number := blockSize }
  | .wWrite handle data => .command 0x11#8 { handle := handle, bytes := data }
  | .wFlush handle => .command 0x12#8 { handle := handle }
  | .wClose handle => .command 0x13#8 { handle := handle }
  | .rOpen source => .command 0x20#8 { bytes := source }
  | .rRead handle capacity => .command 0x21#8 { handle := handle, number := capacity }
  | .rClose handle => .command 0x22#8 { handle := handle }

/-! ## The words of the opcode table -/

/-- The longest instruction in bytes: a `LIT` of 32 bytes (R70). -/
def longestForm : Nat := 33

/-- `k` bytes of a number, the least significant first: how the table numbers the bits of a row. -/
def wordBytes : Nat → Nat → List Byte
  | 0, _ => []
  | k + 1, w => BitVec.ofNat 8 w :: wordBytes k (w / 256)

/-- The bytes of a table word, with the bits above it zero. The table writes the three fixed bytes of a header as
one number whose FIRST byte is the most significant (0x5A5600, 0x5A5601); such a word is laid out in stream order,
as R71 and R72 say (log entry 15). -/
def tableBytes (w : Nat) : List Byte :=
  if w % 16777216 = 0x5A5600 ∨ w % 16777216 = 0x5A5601 then
    (wordBytes 3 w).reverse ++ wordBytes (longestForm - 3) (w / 16777216)
  else wordBytes longestForm w

/-- The fetch a table word stands for: a word of at most 8 bits that is a command code is that command with empty
operands; bytes that begin with the marker are a header; other bytes are a token (log entry 15). -/
def tableFetch (nbits w : Nat) : Fetched :=
  if nbits ≤ 8 ∧ (decodeCommand (BitVec.ofNat 8 w) {}).toBool = true then .command (BitVec.ofNat 8 w) {}
  else if 24 ≤ nbits ∧ (tableBytes w).take 2 = [Config.magic0, Config.magic1] then .header (tableBytes w)
  else .token (tableBytes w)

/-- The instruction the decoder reads from a word of the opcode table. -/
def decodeTableWord (nbits w : Nat) : Option Instr :=
  match decode (tableFetch nbits w) with
  | .ok i => some i
  | .error _ => none

end Sys2Proof
end

