-- ==== Sys2Proof/Machine/State.lean ====
section
/-! DEFINITION. The state of the block as plain data (10_state.md), the refusals, and the state after reset. -/

namespace Sys2Proof.Machine

/-! ## Errors and results -/

/-- The error kinds (10_state.md R24, 60_exceptions.md R230). -/
inductive ErrorKind where
  | malformedChunk
  | truncatedInput
  | invalidBackreference
  | streamClosed
  | invalidBlockSize
  | illegalCommand
  deriving DecidableEq, Repr

/-- What `raise E(pos)` carries (00_scope.md R10). -/
structure Raise where
  kind : ErrorKind
  pos : Nat
  deriving DecidableEq, Repr

/-- `STATUS` (R23): the result register of the last operation. `KIND` is 3 bits, `POS` unbounded (R24). -/
structure Status where
  kind : BitVec 3
  pos : Nat
  deriving DecidableEq, Repr

/-- What the last operation returned (00_scope.md R6, 30_encoding.md R81). The model's own field (log entry 10). -/
inductive Result where
  /-- nothing has been returned yet -/
  | none
  /-- an operation that returns no data succeeded -/
  | ok
  /-- a byte sequence: the output of ENCODE or DECODE, or what a read served (its count is its length) -/
  | bytes (bs : List Byte)
  /-- END, distinct from a count of 0 (44_streaming.md R214) -/
  | endSignal
  /-- the handle of a new Writer or Reader -/
  | handle (h : Nat)
  /-- an error, with no data (60_exceptions.md R235, R236) -/
  | error (kind : BitVec 3) (pos : Nat)
  deriving DecidableEq, Repr

/-! ## Streaming instances -/

/-- `W_STATE` (R25). -/
inductive WriterState where
  | opened
  | closed
  deriving DecidableEq, Repr

/-- A Writer instance (R25): `W_STATE`, `W_BLOCK`, `W_BUF`, and the bytes of its sink (R30, R200, R250), a stream that
no other instance reaches (log entry 7). -/
structure WriterInst where
  state : WriterState
  block : BitVec 16
  buf : List Byte
  sink : List Byte
  deriving DecidableEq, Repr

/-- `R_STATE` (R26). -/
inductive ReaderState where
  | opened
  | eof
  | closed
  | error
  deriving DecidableEq, Repr

/-- A Reader instance (R26): `R_STATE`, `R_BUF`, `R_POS`, `R_SRC`, `R_ERR`, and its source (R251). -/
structure ReaderInst where
  state : ReaderState
  buf : List Byte
  pos : Nat
  srcPos : Nat
  err : BitVec 3
  src : List Byte
  deriving DecidableEq, Repr

/-- What a handle names: the open that created it decides the kind (70_reset_and_hazards.md R267). -/
inductive Inst where
  | writer (w : WriterInst)
  | reader (r : ReaderInst)
  deriving DecidableEq, Repr

/-! ## The engines' working state -/

/-- Which loop of the chunk decoder is running: none, that of DECODE at a chunk header (43_decoder.md R170), or that
of a COMPRESSED chunk's tokens (R174). -/
inductive Phase where
  | idle
  | header
  | tokens
  deriving DecidableEq, Repr

/-- The chunk decoder's registers (R21, R30, R170, R174): `IN`, `OUT`, `cp`, `tp`, the payload's end `pe`, the
chunk's originalLength `n`, and the window `W`, whose length is the register `op`. -/
structure DecodeUnit where
  phase : Phase
  inp : List Byte
  out : List Byte
  cp : Nat
  tp : Nat
  pe : Nat
  orig : BitVec 16
  window : List Byte
  deriving DecidableEq, Repr

/-- The match finder's and token encoder's registers (R21) and the hash table `HT` (R28). `table` lists the entries
that are not EMPTY as (index, position), indices strictly rising. -/
structure EncodeUnit where
  p : BitVec 17
  litStart : BitVec 17
  cand : Option (BitVec 16)
  len : BitVec 9
  pend : Nat
  table : List (Nat × Nat)
  deriving DecidableEq, Repr

/-! ## The caller -/

/-- What the caller may do to the block: issue a command (R81), or reset it (R260). -/
inductive HostInput where
  | command (code : Byte) (args : Operands)
  | reset
  deriving DecidableEq, Repr

/-- The state of the block. A handle is a place in `instances` (log entry 6). `result`, `releasedSinks`, `inputs` and
`freeCount` are the model's own fields (log entries 10, 18, 9 and 13): `releasedSinks` holds the sinks of Writers that
a reset destroyed, in the order of their release. -/
structure State where
  status : Status
  result : Result
  instances : List Inst
  releasedSinks : List (List Byte)
  decoder : DecodeUnit
  encoder : EncodeUnit
  inputs : List HostInput
  freeCount : Nat
  deriving DecidableEq, Repr

/-- Reasons the machine stops with a fault: none. The block has no traps (60_exceptions.md, opening; R235): every
error the spec describes is a next state in which STATUS and the result hold it. -/
inductive Fault where
  deriving DecidableEq, Repr

/-- Reasons the machine gives an instruction no meaning. -/
inductive Refusal where
  /-- Raised by an arm of `exec` whose instruction has no meaning yet. Safe: nothing is claimed of it. -/
  | notModelled (mnemonic : String)
  /-- Raised by a streaming operation on a handle that no open returned (R267). Safe: the spec refuses it too. -/
  | unknownHandle
  /-- Raised by a Writer operation on a Reader's handle or the reverse (R267). Safe: the spec refuses it too. -/
  | wrongHandleKind
  /-- Raised by a token outside a COMPRESSED chunk's payload, or a header where no DECODE has reached one: the spec
  gives a form an effect only there (R22, R170, R174). Safe (log entry 12). -/
  | formOutOfContext
  deriving DecidableEq, Repr

/-! ## Reset -/

/-- The chunk decoder at reset: no DECODE is running, registers as log entry 13 names them (R32 leaves them
unspecified). -/
def DecodeUnit.reset : DecodeUnit :=
  { phase := .idle, inp := [], out := [], cp := 0, tp := 0, pe := 0, orig := 0#16, window := [] }

/-- The encoder's registers and hash table at reset, as log entry 13 names them (R32 leaves them unspecified). -/
def EncodeUnit.reset : EncodeUnit :=
  { p := 0#17, litStart := 0#17, cand := none, len := 0#9, pend := 0, table := [] }

/-- The block right after reset (R32, R260): STATUS is (0, 0) and no instance exists. -/
def State.reset : State :=
  { status := { kind := 0#3, pos := 0 }, result := .none, instances := [], releasedSinks := [], decoder := .reset,
    encoder := .reset, inputs := [], freeCount := 0 }

end Sys2Proof.Machine
end

