-- ==== Sys2Proof/Machine/Flags.lean ====
section
/-! DEFINITION. The codes software sees. STATUS is the block's only status register: there are no condition codes
(10_state.md R24), so what other machines keep in flags is here the computation of `STATUS.KIND` and `POS`. -/

namespace Sys2Proof.Machine

/-- `STATUS.KIND` of an error kind (R24). Code 0 is OK and code 7 is never written. -/
def ErrorKind.code : ErrorKind → BitVec 3
  | .malformedChunk => 1#3
  | .truncatedInput => 2#3
  | .invalidBackreference => 3#3
  | .streamClosed => 4#3
  | .invalidBlockSize => 5#3
  | .illegalCommand => 6#3

/-- `STATUS` after success: `KIND <- 0`, `POS <- 0` (R23). -/
def Status.success : Status := { kind := 0#3, pos := 0 }

/-- `STATUS` after an error: its code and position (R23, R235). -/
def Status.failure (kind : BitVec 3) (pos : Nat) : Status := { kind := kind, pos := pos }

/-- The value of the register `W_STATE` (R25, W0). -/
def WriterState.code : WriterState → BitVec 1
  | .opened => 0#1
  | .closed => 1#1

/-- The value of the register `R_STATE` (R26, Q0). -/
def ReaderState.code : ReaderState → BitVec 2
  | .opened => 0#2
  | .eof => 1#2
  | .closed => 2#2
  | .error => 3#2

/-- The error a rejected fetch raises: a header by R103 steps 1 to 5, a token cut by the payload's end by R179, a
reserved command code by R81. -/
def rejectKind : Reject → ErrorKind
  | .headerNoMagic => .truncatedInput
  | .badMagic => .malformedChunk
  | .headerNoType => .truncatedInput
  | .badType => .malformedChunk
  | .headerCut => .truncatedInput
  | .tokenCut => .malformedChunk
  | .reservedCommand => .illegalCommand

end Sys2Proof.Machine
end

