-- ==== Sys2Proof/Machine/Operands.lean ====
section
/-! DEFINITION. The operand forms: how a token's fields give an offset and a length (R74 to R76), how the encoder
assembles a token from them (R77), and how a handle operand names an instance (R267). -/

namespace Sys2Proof.Machine

/-- What a token says: a literal run, or a backreference by offset and length (00_scope.md glossary, R78). The
tokens of R144 are these. -/
inductive Tok where
  | run (s : List Byte)
  | ref (off len : Nat)
  deriving DecidableEq, Repr

/-- The bytes a token produces (R149). -/
def Tok.count : Tok → Nat
  | .run s => s.length
  | .ref _ len => len

/-- `off` from the 13-bit field, 1..8192 (R75, R76). -/
def fieldOffset (o : BitVec 13) : Nat := o.toNat + 1

/-- `len` of `REF_S`, 3..8 (R75). -/
def shortLength (l : BitVec 3) : Nat := l.toNat + 2

/-- `len` of `REF_L`, 9..264 (R76). -/
def longLength (e : Byte) : Nat := e.toNat + 9

/-- What a token form says (R74 to R76). -/
def tokOf : TokenForm → Tok
  | .lit bytes => .run bytes
  | .refS l o => .ref (fieldOffset o) (shortLength l)
  | .refL e o => .ref (fieldOffset o) (longLength e)

/-- Operand assembly on the encoder side (R77): the form that says a literal run or a backreference. The spec gives it
for an offset of 1..8192 and a length of 3..264. Outside them the fields' low bits stand: the model's choice (log
entry 20). -/
def formOf : Tok → TokenForm
  | .run s => .lit s
  | .ref off len =>
    if len ≤ 8 then .refS (BitVec.ofNat 3 (len - 2)) (BitVec.ofNat 13 (off - 1))
    else .refL (BitVec.ofNat 8 (len - 9)) (BitVec.ofNat 13 (off - 1))

/-- The instance a handle operand names as a Writer (R267): one that no W_OPEN returned is refused. -/
def writerAt (s : State) (h : Nat) : Except Refusal WriterInst :=
  match s.instances[h]? with
  | some (.writer w) => .ok w
  | some (.reader _) => .error .wrongHandleKind
  | none => .error .unknownHandle

/-- The instance a handle operand names as a Reader (R267): one that no R_OPEN returned is refused. -/
def readerAt (s : State) (h : Nat) : Except Refusal ReaderInst :=
  match s.instances[h]? with
  | some (.reader r) => .ok r
  | some (.writer _) => .error .wrongHandleKind
  | none => .error .unknownHandle

end Sys2Proof.Machine
end

