-- ==== Sys2Proof/Machine/Ops.lean ====
section
/-! DEFINITION. The named operations the meanings share: byte spaces, tables, the end of an operation, and raising
an error, which is the block's exception entry. -/

namespace Sys2Proof.Machine

/-! ## Byte spaces (10_state.md R30) -/

/-- `s[i..j)` (00_scope.md R10), which is also `MemRead(i, j - i)`. -/
def slice (s : List Byte) (i j : Nat) : List Byte := (s.take j).drop i

/-- `WinRead(d)` (R10): the byte `d` positions back from the window's current end. The window check comes first
(R183), so the byte is there. Outside the window it is 0: the model's choice (log entry 20). -/
def winRead (w : List Byte) (d : Nat) : Byte := w.getD (w.length - d) 0#8

/-- `s` cut into consecutive blocks of `k` bytes, the last possibly shorter and none empty; the first argument
bounds their number. -/
def blocksUpTo : Nat → Nat → List Byte → List (List Byte)
  | 0, _, _ => []
  | _ + 1, _, [] => []
  | f + 1, k, s => s.take k :: blocksUpTo f k (s.drop k)

/-- `s` cut into consecutive blocks of `k` bytes, `k ≥ 1`: how an input becomes chunk slices (R141), a run of
pending literals becomes tokens (R150), and a Writer's bytes become chunks (R208). What `k = 0` gives is the model's
choice (log entry 20). -/
def blocks (k : Nat) (s : List Byte) : List (List Byte) := blocksUpTo s.length k s

/-! ## Tables keyed by a number, in canonical form: keys strictly rising -/

/-- The value at a key, if it is listed. -/
def tableGet {α : Type} : List (Nat × α) → Nat → Option α
  | [], _ => none
  | (k', v) :: rest, k => if k = k' then some v else if k < k' then none else tableGet rest k

/-- The table with the value at a key replaced or added. -/
def tablePut {α : Type} : List (Nat × α) → Nat → α → List (Nat × α)
  | [], k, v => [(k, v)]
  | (k', v') :: rest, k, v =>
    if k = k' then (k, v) :: rest
    else if k < k' then (k, v) :: (k', v') :: rest
    else (k', v') :: tablePut rest k v

/-- The keys rise strictly from above `lo`. -/
def tableRises {α : Type} : Nat → List (Nat × α) → Bool
  | _, [] => true
  | lo, (k, _) :: rest => decide (lo ≤ k) && tableRises (k + 1) rest

/-! ## Sink streams (10_state.md R30, 60_exceptions.md R250) -/

/-- `Forward(w, c)` (44_streaming.md R202): the bytes join the Writer's sink, in order, at once. -/
def forward (w : WriterInst) (bs : List Byte) : WriterInst := { w with sink := w.sink ++ bs }

/-- The sink of an instance: a Reader has none. -/
def Inst.sink : Inst → Option (List Byte)
  | .writer w => some w.sink
  | .reader _ => none

/-! ## The hash table (10_state.md R28, R29) -/

/-- `HT[i] <- EMPTY for every i` (R29, R143). -/
def htEmpty : List (Nat × Nat) := []

/-- Entry `i` of the hash table; `none` is EMPTY. -/
def htGet (ht : List (Nat × Nat)) (i : Nat) : Option Nat := tableGet ht i

/-- `HT[i] <- p` (41_match_finder.md R124). -/
def htSet (ht : List (Nat × Nat)) (i p : Nat) : List (Nat × Nat) := tablePut ht i p

/-- Every listed entry is an index below `2 ^ HASH_BITS` with a position 0..65532, indices strictly rising (R28). -/
def htWf (ht : List (Nat × Nat)) : Bool :=
  tableRises 0 ht && ht.all (fun e => decide (e.1 < 2 ^ Config.hashBits) && decide (e.2 ≤ 65532))

/-! ## Working registers between operations: unspecified and unobservable (R32, U5, log entry 13) -/

/-- The encoder's registers and hash table after an operation has used them: free values. -/
def freeEncodeUnit (k : Nat) : EncodeUnit :=
  { p := BitVec.ofNat 17 (Config.freeNat k 0)
    litStart := BitVec.ofNat 17 (Config.freeNat k 1)
    cand := if Config.freeNat k 2 = 0 then none else some (BitVec.ofNat 16 (Config.freeNat k 3))
    len := BitVec.ofNat 9 (Config.freeNat k 4)
    pend := Config.freeNat k 5
    table := (Config.freeTable k).foldl (fun t e => htSet t (e.1 % 2 ^ Config.hashBits) (e.2 % 65533)) htEmpty }

/-- The decoder's registers after an operation has used them: free values, and no DECODE running. -/
def freeDecodeUnit (k : Nat) : DecodeUnit :=
  { phase := .idle, inp := [], out := []
    cp := Config.freeNat k 6
    tp := Config.freeNat k 7
    pe := Config.freeNat k 8
    orig := BitVec.ofNat 16 (Config.freeNat k 9)
    window := (Config.freeBytes k).take Config.maxChunk }

/-- The state after an operation that ran the encoder: its registers hold free values. -/
def State.leaveEncoder (s : State) : State :=
  { s with encoder := freeEncodeUnit s.freeCount, freeCount := s.freeCount + 1 }

/-- The state after an operation that ran the decode unit: it is idle and its registers hold free values. -/
def State.leaveDecoder (s : State) : State :=
  { s with decoder := freeDecodeUnit s.freeCount, freeCount := s.freeCount + 1 }

/-- The state after an operation that ran a decoder of its own, DECODE or a Reader's fetch: the decode unit's registers
hold free values, unless the unit is in the middle of a DECODE. That DECODE is another call, which shares nothing with
this one (20_memory.md R59, 60_exceptions.md R243, log entry 14). -/
def State.leaveOwnDecoder (s : State) : State :=
  match s.decoder.phase with
  | .idle => s.leaveDecoder
  | .header => s
  | .tokens => s

/-! ## The end of an operation -/

/-- Success (10_state.md R23): `STATUS <- (0, 0)` and the operation returns its result. -/
def State.complete (s : State) (r : Result) : State :=
  { s with status := .success, result := r }

/-- Error entry by code (60_exceptions.md R235, the block's exception entry): `STATUS` holds the kind's code and the
position, and the operation returns the error and no data. There is no vector, no saved program counter and no mode
change, and no return from an error: the caller issues its next operation (R238). -/
def State.raiseCode (s : State) (kind : BitVec 3) (pos : Nat) : State :=
  { s with status := .failure kind pos, result := .error kind pos }

/-- Error entry (R235): `raise E(pos)`. -/
def State.raise (s : State) (e : Raise) : State := s.raiseCode e.kind.code e.pos

/-! ## Instances -/

/-- The state with the instance at a handle replaced. -/
def State.setInst (s : State) (h : Nat) (i : Inst) : State :=
  { s with instances := s.instances.set h i }

/-- The state with a new instance; its handle is the next free place (log entry 6). -/
def State.addInst (s : State) (i : Inst) : State :=
  { s with instances := s.instances ++ [i] }

/-- A Writer operation: refused on a handle that is not a Writer's (R267). -/
def onWriter (s : State) (h : Nat) (k : WriterInst → State) : Host.Outcome State Fault Refusal :=
  match writerAt s h with
  | .ok w => .next (k w)
  | .error r => .refused r

/-- A Reader operation: refused on a handle that is not a Reader's (R267). -/
def onReader (s : State) (h : Nat) (k : ReaderInst → State) : Host.Outcome State Fault Refusal :=
  match readerAt s h with
  | .ok r => .next (k r)
  | .error r => .refused r

/-! ## Reset as an input (70_reset_and_hazards.md R260) -/

/-- Reset: every Writer and Reader is destroyed without forwarding its buffered bytes and every register takes its
reset value. The sinks are the caller's (R250): they keep what was forwarded (20_memory.md R56) and are released, and
what the caller has issued is still to come (log entry 18). -/
def State.afterReset (s : State) : State :=
  { State.reset with
    releasedSinks := s.releasedSinks ++ s.instances.filterMap Inst.sink
    inputs := s.inputs
    encoder := freeEncodeUnit s.freeCount
    decoder := freeDecodeUnit s.freeCount
    freeCount := s.freeCount + 1 }

end Sys2Proof.Machine
end

