-- ==== Sys2Proof/Machine/Decoder.lean ====
section
/-! DEFINITION. The chunk decoder (43_decoder.md, 40_chunk_format.md): the meaning of the five byte-coded forms, and
DECODE, which executes them. -/

namespace Sys2Proof.Machine

/-! ## Tokens -/

/-- `Copy(off, len)` (R186): `len` bytes, one at a time, each read from the window as it then is. -/
def copyBytes (off : Nat) : Nat → List Byte → List Byte
  | 0, w => w
  | len + 1, w => copyBytes off len (w ++ [winRead w off])

/-- Why a token of a given size cannot run, its checks in the order of R178: the payload's end (R179), the window
(R183), originalLength (R184). -/
def tokenCheck (t : Tok) (size tp pe op n : Nat) : Option ErrorKind :=
  if pe < tp + size then some .malformedChunk
  else
    match t with
    | .run s => if n < op + s.length then some .malformedChunk else none
    | .ref off len =>
      if op < off then some .invalidBackreference
      else if n < op + len then some .malformedChunk
      else none

/-- The window after a token that passed its checks (R180 to R182). -/
def tokenEmit (t : Tok) (w : List Byte) : List Byte :=
  match t with
  | .run s => w ++ s
  | .ref off len => copyBytes off len w

/-- One token at `tp` (R178): the new token pointer and window, or the error. -/
def runToken (t : Tok) (size pe n tp : Nat) (w : List Byte) : Except Raise (Nat × List Byte) :=
  match tokenCheck t size tp pe w.length n with
  | some kind => .error { kind := kind, pos := tp }
  | none => .ok (tp + size, tokenEmit t w)

/-- The end of a payload (R185): the window is the chunk's output, unless it is short. -/
def endTokens (n tp : Nat) (w : List Byte) : Except Raise (List Byte) :=
  if w.length = n then .ok w else .error { kind := .malformedChunk, pos := tp }

/-- The token loop of `DecodeTokens` (R174) from token pointer `tp` with window `w`. The first argument bounds the
steps; every token advances `tp` by at least 1 (R272). -/
def decodeTokensFrom (inp : List Byte) (pe n : Nat) : Nat → Nat → List Byte → Except Raise (List Byte)
  | 0, tp, w => endTokens n tp w
  | f + 1, tp, w =>
    if tp < pe then
      match decodeToken (slice inp tp pe) with
      | .error r => .error { kind := rejectKind r, pos := tp }
      | .ok form =>
        match runToken (tokOf form) form.size pe n tp w with
        | .error e => .error e
        | .ok (tp', w') => decodeTokensFrom inp pe n f tp' w'
    else endTokens n tp w

/-- `DecodeTokens(ps, pe, n)` (R174, R176). -/
def decodeTokens (inp : List Byte) (ps pe n : Nat) : Except Raise (List Byte) :=
  decodeTokensFrom inp pe n (pe - ps) ps []

/-! ## Headers and chunks -/

/-- Steps 5 to 8 of `parseHeader` (R103) for a header with `rem` bytes left from its first byte: why it is refused. -/
def headerCheck (h : HeaderForm) (rem : Nat) : Option ErrorKind :=
  if rem < h.size then some .truncatedInput
  else if h.original = 0#16 then some .malformedChunk
  else
    match h with
    | .raw _ => if rem - h.size < h.payloadLen then some .truncatedInput else none
    | .comp n m =>
      if m = 0#16 ∨ n.toNat < m.toNat then some .malformedChunk
      else if rem - h.size < h.payloadLen then some .truncatedInput
      else none

/-- `parseHeader(B, pos)` (R102, R103). -/
def parseHeader (B : List Byte) (pos : Nat) : Except Raise HeaderForm :=
  match decodeHeader (B.drop pos) with
  | .error r => .error { kind := rejectKind r, pos := pos }
  | .ok h =>
    match headerCheck h (B.length - pos) with
    | some kind => .error { kind := kind, pos := pos }
    | none => .ok h

/-- The output of the chunk whose payload starts at `ps` (R170, R173, R174). -/
def chunkOutput (B : List Byte) (ps : Nat) : HeaderForm → Except Raise (List Byte)
  | .raw n => .ok (slice B ps (ps + n.toNat))
  | .comp n m => decodeTokens B ps (ps + m.toNat) n.toNat

/-- One chunk at `pos` (R109, R213): its output and the position after it. -/
def decodeChunk (B : List Byte) (pos : Nat) : Except Raise (List Byte × Nat) :=
  match parseHeader B pos with
  | .error e => .error e
  | .ok h =>
    match chunkOutput B (pos + h.size) h with
    | .error e => .error e
    | .ok chunk => .ok (chunk, pos + h.size + h.payloadLen)

/-- The chunk loop of DECODE (R170 to R172) from chunk pointer `cp` with the output so far. The first argument
bounds the steps; every chunk advances `cp` (R272). -/
def decodeFrom (inp : List Byte) : Nat → Nat → List Byte → Except Raise (List Byte)
  | 0, _, out => .ok out
  | f + 1, cp, out =>
    if cp < inp.length then
      match decodeChunk inp cp with
      | .error e => .error e
      | .ok (chunk, cp') => decodeFrom inp f cp' (out ++ chunk)
    else .ok out

/-- `DECODE(IN)` (R170): the decoded bytes, or the first error with no bytes (R187). -/
def decodeAll (inp : List Byte) : Except Raise (List Byte) := decodeFrom inp inp.length 0 []

/-- `DECODE` (R170). Each call is independent of every other (60_exceptions.md R243): it leaves a DECODE that the
decode unit is in the middle of alone. -/
def execDecode (inp : List Byte) (s : State) : Host.Outcome State Fault Refusal :=
  match decodeAll inp with
  | .ok out => .next (s.leaveOwnDecoder.complete (.bytes out))
  | .error e => .next (s.leaveOwnDecoder.raise e)

/-! ## The forms as instructions of the decode unit -/

/-- An error inside a running DECODE (R187): it ends, with no output. -/
def decodeFails (s : State) (e : Raise) : State := s.leaveDecoder.raise e

/-- A token in a running token stream (R180 to R182); elsewhere it has no meaning (log entry 12). -/
def execToken (form : TokenForm) (s : State) : Host.Outcome State Fault Refusal :=
  match s.decoder.phase with
  | .tokens =>
    match runToken (tokOf form) form.size s.decoder.pe s.decoder.orig.toNat s.decoder.tp s.decoder.window with
    | .error e => .next (decodeFails s e)
    | .ok (tp', w') => .next { s with decoder := { s.decoder with tp := tp', window := w' } }
  | .idle => .refused .formOutOfContext
  | .header => .refused .formOutOfContext

/-- `LIT` (R180). -/
def execLit (bytes : List Byte) (s : State) : Host.Outcome State Fault Refusal := execToken (.lit bytes) s

/-- `REF_S` (R181). -/
def execRefS (l : BitVec 3) (o : BitVec 13) (s : State) : Host.Outcome State Fault Refusal := execToken (.refS l o) s

/-- `REF_L` (R182). -/
def execRefL (e : Byte) (o : BitVec 13) (s : State) : Host.Outcome State Fault Refusal := execToken (.refL e o) s

/-- What a header that passed its checks does at `cp` (R170, R173, R174, R176): a RAW chunk's payload is output
unchanged and `cp` moves past it; a COMPRESSED chunk's token stream begins with an empty window. -/
def enterChunk (h : HeaderForm) (d : DecodeUnit) : DecodeUnit :=
  match h with
  | .raw n =>
    { d with out := d.out ++ slice d.inp (d.cp + 5) (d.cp + 5 + n.toNat), cp := d.cp + 5 + n.toNat }
  | .comp n m =>
    { d with phase := .tokens, tp := d.cp + 7, pe := d.cp + 7 + m.toNat, orig := n, window := [] }

/-- A header that a running DECODE has reached (R103, R170); elsewhere it has no meaning (log entry 12). -/
def execHeader (h : HeaderForm) (s : State) : Host.Outcome State Fault Refusal :=
  match s.decoder.phase with
  | .header =>
    match headerCheck h (s.decoder.inp.length - s.decoder.cp) with
    | some kind => .next (decodeFails s { kind := kind, pos := s.decoder.cp })
    | none => .next { s with decoder := enterChunk h s.decoder }
  | .idle => .refused .formOutOfContext
  | .tokens => .refused .formOutOfContext

/-- `HDR_RAW` (R100, R103, R173). -/
def execHdrRaw (n : BitVec 16) (s : State) : Host.Outcome State Fault Refusal := execHeader (.raw n) s

/-- `HDR_COMP` (R101, R103, R174). -/
def execHdrComp (n m : BitVec 16) (s : State) : Host.Outcome State Fault Refusal := execHeader (.comp n m) s

/-- The token loop has reached the payload's end (R174, R185): the window is output and `cp` moves past the payload
(R172), or the output is short. -/
def finishPayload (s : State) : State :=
  match endTokens s.decoder.orig.toNat s.decoder.tp s.decoder.window with
  | .error e => decodeFails s e
  | .ok chunk =>
    { s with decoder := { s.decoder with phase := .header, cp := s.decoder.pe, out := s.decoder.out ++ chunk } }

/-- The chunk loop has reached the end of the input (R171): DECODE returns its output. -/
def finishInput (s : State) : State := s.leaveDecoder.complete (.bytes s.decoder.out)

/-- The decode unit at the start of `DECODE(IN)` (R170). -/
def startDecode (inp : List Byte) (d : DecodeUnit) : DecodeUnit :=
  { d with phase := .header, inp := inp, out := [], cp := 0 }

end Sys2Proof.Machine
end

