-- ==== Sys2Proof/Machine/Reader.lean ====
section
/-! DEFINITION. The Reader operations (44_streaming.md R210 to R222). -/

namespace Sys2Proof.Machine

/-- `R_OPEN` (R210). -/
def execROpen (source : List Byte) (s : State) : Host.Outcome State Fault Refusal :=
  .next ((s.addInst (.reader { state := .opened, buf := [], pos := 0, srcPos := 0, err := 0#3, src := source })).complete
    (.handle s.instances.length))

/-- Serve from the buffer (R211, R212): at most `k` bytes, from the current position. -/
def serve (h k : Nat) (s : State) (r : ReaderInst) : State :=
  ((s.setInst h (.reader { r with pos := r.pos + min k (r.buf.length - r.pos) }))).complete
    (.bytes (slice r.buf r.pos (r.pos + min k (r.buf.length - r.pos))))

/-- A fetch that failed (R216): the Reader enters ERROR with the kind and the read returns the error. -/
def failReader (h : Nat) (s : State) (r : ReaderInst) (e : Raise) : State :=
  (s.setInst h (.reader { r with state := .error, err := e.kind.code, buf := [], pos := 0 })).raise e

/-- A read with the buffer drained (R211, R213, R214): END when the source is exhausted, else fetch one chunk and
serve from it. -/
def readDrained (h k : Nat) (s : State) (r : ReaderInst) : State :=
  if r.srcPos = r.src.length then
    (s.setInst h (.reader { r with state := .eof, buf := [], pos := 0 })).complete .endSignal
  else
    match decodeChunk r.src r.srcPos with
    | .error e => failReader h s.leaveOwnDecoder r e
    | .ok (chunk, next) => serve h k s.leaveOwnDecoder { r with buf := chunk, pos := 0, srcPos := next }

/-- `R_READ` on a Reader (R211). -/
def readFrom (h k : Nat) (s : State) (r : ReaderInst) : State :=
  match r.state with
  | .closed => s.raise { kind := .streamClosed, pos := 0 }
  | .error => s.raiseCode r.err 0
  | .eof => s.complete .endSignal
  | .opened =>
    if k = 0 then s.complete (.bytes [])
    else if r.pos = r.buf.length then readDrained h k s r
    else serve h k s r

/-- `R_READ` (R211). -/
def execRRead (h k : Nat) (s : State) : Host.Outcome State Fault Refusal := onReader s h (readFrom h k s)

/-- `R_CLOSE` on a Reader (R219): closing a CLOSED Reader does nothing but write STATUS. -/
def closeReader (h : Nat) (s : State) (r : ReaderInst) : State :=
  match r.state with
  | .closed => s.complete .ok
  | .opened => (s.setInst h (.reader { r with state := .closed, buf := [], pos := 0, err := 0#3 })).complete .ok
  | .eof => (s.setInst h (.reader { r with state := .closed, buf := [], pos := 0, err := 0#3 })).complete .ok
  | .error => (s.setInst h (.reader { r with state := .closed, buf := [], pos := 0, err := 0#3 })).complete .ok

/-- `R_CLOSE` (R219). -/
def execRClose (h : Nat) (s : State) : Host.Outcome State Fault Refusal := onReader s h (closeReader h s)

end Sys2Proof.Machine
end

