-- ==== Sys2Proof/Machine/MatchFinder.lean ====
section
/-! DEFINITION. The match finder (41_match_finder.md): the reference finder, and a finder of the conformant policy. -/

namespace Sys2Proof.Machine

/-- `hash3` (R121). -/
def hash3 (b0 b1 b2 : Byte) : Nat :=
  ((b0.toNat * 65536 + b1.toNat * 256 + b2.toNat) * Config.hashMultiplier % 2 ^ 32) >>> (32 - Config.hashBits)

/-- The hash of the three bytes at position `p` of a slice, for `p + 3 ≤ n` (R122, R126). Bytes past the end count as 0:
the model's choice (log entry 20). -/
def hashAt (S : List Byte) (p : Nat) : Nat := hash3 (S.getD p 0#8) (S.getD (p + 1) 0#8) (S.getD (p + 2) 0#8)

/-- How many bytes at the front of two sequences agree, compared one at a time, at most `cap` (R125). -/
def agreeing : Nat → List Byte → List Byte → Nat
  | cap + 1, x :: a, y :: b => if x = y then agreeing cap a b + 1 else 0
  | _, _, _ => 0

/-- The measure of a candidate `c` at scan position `p` (R122, R125): NoMatch for EMPTY, for a distance above
`MAX_OFF` and for a collision; else the offset and the longest agreeing length within `MAX_MATCH` and the slice. A
candidate at or after `p` never occurs (R123), and what it gives is the model's choice (log entry 20). -/
def measureAt (S : List Byte) (p : Nat) : Option Nat → Option (Nat × Nat)
  | none => none
  | some c =>
    if Config.maxOff < p - c then none
    else if slice S c (c + 3) ≠ slice S p (p + 3) then none
    else some (p - c, 3 + agreeing (min Config.maxMatch (S.length - p) - 3) (S.drop (c + 3)) (S.drop (p + 3)))

/-- `MatchAt(p)` (R122): look the candidate up, insert `p`, then measure. The lookup comes before the insert
(R123, R124, R263). -/
def matchAt (ht : List (Nat × Nat)) (S : List Byte) (p : Nat) : Option (Nat × Nat) × List (Nat × Nat) :=
  (measureAt S p (htGet ht (hashAt S p)), htSet ht (hashAt S p) p)

/-- What every match satisfies (R129). -/
def matchLegal (S : List Byte) (p off len : Nat) : Bool :=
  decide (1 ≤ off) && decide (off ≤ Config.maxOff) && decide (Config.minMatch ≤ len) && decide (len ≤ Config.maxMatch)
    && decide (p + len ≤ S.length) && decide (off ≤ p)
    && decide (slice S (p - off) (p - off + len) = slice S p (p + len))

/-- A finder of the conformant policy (R130): NoMatch, or any match that satisfies R129. Which one is the free value
`Config.freeMatch`; it keeps no table. -/
def matchAny (S : List Byte) (p : Nat) : Option (Nat × Nat) :=
  match Config.freeMatch S p with
  | none => none
  | some (off, len) => if matchLegal S p off len then some (off, len) else none

/-- One step of the finder a policy takes at a scan position (R8 `ENC_POLICY`). -/
def find (policy : Config.EncPolicy) (ht : List (Nat × Nat)) (S : List Byte) (p : Nat) :
    Option (Nat × Nat) × List (Nat × Nat) :=
  match policy with
  | .reference => matchAt ht S p
  | .conformant => (matchAny S p, ht)

end Sys2Proof.Machine
end

