-- ==== Sys2Proof/Machine/Encoder.lean ====
section
/-! DEFINITION. The token encoder and ENCODE (42_encoder.md). -/

namespace Sys2Proof.Machine

/-- `FlushLiterals` (R150): pending literals as runs of at most `MAX_LIT` bytes, front first. -/
def flushLiterals (s : List Byte) : List Tok := (blocks Config.maxLit s).map .run

/-- The scan loop of `Tokenize` (R144 to R147) from scan position `p` with the pending literals `S[litStart..p)`.
The first argument bounds the steps; the scan advances at least one byte each (R127, R272). -/
def tokenizeFrom (policy : Config.EncPolicy) (S : List Byte) :
    Nat → List (Nat × Nat) → Nat → Nat → List Tok
  | 0, _, _, litStart => flushLiterals (slice S litStart S.length)
  | f + 1, ht, p, litStart =>
    if p + Config.minMatch ≤ S.length then
      match find policy ht S p with
      | (none, ht') => tokenizeFrom policy S f ht' (p + 1) litStart
      | (some (off, len), ht') =>
        flushLiterals (slice S litStart p) ++ .ref off len :: tokenizeFrom policy S f ht' (p + len) (p + len)
    else flushLiterals (slice S litStart S.length)

/-- `Tokenize(S)` (R144), with `HT` all EMPTY at the start of the slice (R29, R143, R264). -/
def tokenize (policy : Config.EncPolicy) (S : List Byte) : List Tok :=
  tokenizeFrom policy S S.length htEmpty 0 0

/-- `Pack(toks)` (R148): the tokens' encodings in order (R151, R152). -/
def pack (toks : List Tok) : List Byte := (toks.map fun t => encodeToken (formOf t)).flatten

/-- A chunk: the header that `writeHeader` gives, then the payload. Where `writeHeader` refuses the lengths no chunk is
written: the model's choice (log entry 19). -/
def chunkBytes (h : HeaderForm) (payload : List Byte) : List Byte :=
  match writeHeader h with
  | some header => header ++ payload
  | none => []

/-- The chunk of a slice, given its packed payload (R143, R153, R154): COMPRESSED exactly when the payload is
strictly shorter than the slice, else RAW. The spec gives a slice above `MAX_CHUNK` no meaning, and no chunk is written
for one: the model's choice (log entry 19). -/
def frame (S payload : List Byte) : List Byte :=
  if Config.maxChunk < S.length then []
  else if payload.length < S.length then
    chunkBytes (.comp (BitVec.ofNat 16 S.length) (BitVec.ofNat 16 payload.length)) payload
  else chunkBytes (.raw (BitVec.ofNat 16 S.length)) S

/-- `EncodeChunk(S)` (R143), for a slice of 1..65535 bytes. The encoder and the Writer give it no other. Any other slice
has no meaning in the spec and gives no bytes: the model's choice (log entry 19). -/
def encodeChunk (policy : Config.EncPolicy) (S : List Byte) : List Byte := frame S (pack (tokenize policy S))

/-- `ENCODE` (R140 to R142): the input's consecutive slices of at most `MAX_CHUNK` bytes, each one chunk. -/
def encodeAll (policy : Config.EncPolicy) (input : List Byte) : List Byte :=
  ((blocks Config.maxChunk input).map (encodeChunk policy)).flatten

/-- `ENCODE` (R140). It raises nothing. -/
def execEncode (input : List Byte) (s : State) : Host.Outcome State Fault Refusal :=
  .next (s.leaveEncoder.complete (.bytes (encodeAll Config.encPolicy input)))

end Sys2Proof.Machine
end

