-- ==== Sys2Proof/Machine/Writer.lean ====
section
/-! DEFINITION. The Writer operations (44_streaming.md R200 to R209). -/

namespace Sys2Proof.Machine

/-- `W_OPEN` (R200). -/
def execWOpen (sink : List Byte) (blockSize : Nat) (s : State) : Host.Outcome State Fault Refusal :=
  if blockSize < 1 ∨ 65535 < blockSize then .next (s.raise { kind := .invalidBlockSize, pos := 0 })
  else
    .next ((s.addInst (.writer { state := .opened, block := BitVec.ofNat 16 blockSize, buf := [], sink := sink })).complete
      (.handle s.instances.length))

/-- The byte loop of `W_WRITE` (R201): each byte joins the buffer, and a full buffer becomes one chunk and is
emptied. The pair is the bytes forwarded and the buffer. -/
def writeBytes (policy : Config.EncPolicy) (block : Nat) : List Byte → List Byte → List Byte × List Byte
  | buf, [] => ([], buf)
  | buf, b :: rest =>
    if (buf ++ [b]).length = block then
      (encodeChunk policy (buf ++ [b]) ++ (writeBytes policy block [] rest).1, (writeBytes policy block [] rest).2)
    else writeBytes policy block (buf ++ [b]) rest

/-- The chunk of a partial block, if there is one (R204, R205): an empty buffer forwards nothing. -/
def partialChunk (policy : Config.EncPolicy) (buf : List Byte) : List Byte :=
  if 0 < buf.length then encodeChunk policy buf else []

/-- The state after a Writer operation made chunk bytes: when there are any, the encoder has run. -/
def leaveAfterChunks (s : State) (bs : List Byte) : State :=
  match bs with
  | [] => s
  | _ :: _ => s.leaveEncoder

/-- The end of a Writer operation that succeeds: the bytes are forwarded to the Writer's sink (R202), and the Writer has
its new registers. -/
def completeWriter (h : Nat) (s : State) (w : WriterInst) (bs : List Byte) : State :=
  ((leaveAfterChunks s bs).setInst h (.writer (forward w bs))).complete .ok

/-- `W_WRITE` on a Writer (R201). -/
def writeTo (h : Nat) (data : List Byte) (s : State) (w : WriterInst) : State :=
  match w.state with
  | .closed => s.raise { kind := .streamClosed, pos := 0 }
  | .opened =>
    completeWriter h s { w with buf := (writeBytes Config.encPolicy w.block.toNat w.buf data).2 }
      (writeBytes Config.encPolicy w.block.toNat w.buf data).1

/-- `W_WRITE` (R201). -/
def execWWrite (h : Nat) (data : List Byte) (s : State) : Host.Outcome State Fault Refusal :=
  onWriter s h (writeTo h data s)

/-- `W_FLUSH` on a Writer (R204). -/
def flushWriter (h : Nat) (s : State) (w : WriterInst) : State :=
  match w.state with
  | .closed => s.raise { kind := .streamClosed, pos := 0 }
  | .opened => completeWriter h s { w with buf := [] } (partialChunk Config.encPolicy w.buf)

/-- `W_FLUSH` (R204). -/
def execWFlush (h : Nat) (s : State) : Host.Outcome State Fault Refusal := onWriter s h (flushWriter h s)

/-- `W_CLOSE` on a Writer (R205, R206): closing a CLOSED Writer does nothing but write STATUS. -/
def closeWriter (h : Nat) (s : State) (w : WriterInst) : State :=
  match w.state with
  | .closed => s.complete .ok
  | .opened => completeWriter h s { w with state := .closed, buf := [] } (partialChunk Config.encPolicy w.buf)

/-- `W_CLOSE` (R205). -/
def execWClose (h : Nat) (s : State) : Host.Outcome State Fault Refusal := onWriter s h (closeWriter h s)

end Sys2Proof.Machine
end

