-- ==== Sys2Proof/Machine/Dispatch.lean ====
section
/-! DEFINITION. The meaning of every instruction, one arm per constructor. -/

namespace Sys2Proof.Machine

/-- Execute an instruction. -/
def exec (i : Instr) (s : State) : Host.Outcome State Fault Refusal :=
  match i with
  | .lit bytes => Sys2Proof.Machine.execLit bytes s
  | .refS l o => Sys2Proof.Machine.execRefS l o s
  | .refL e o => Sys2Proof.Machine.execRefL e o s
  | .hdrRaw n => Sys2Proof.Machine.execHdrRaw n s
  | .hdrComp n m => Sys2Proof.Machine.execHdrComp n m s
  | .encode input => Sys2Proof.Machine.execEncode input s
  | .decode input => Sys2Proof.Machine.execDecode input s
  | .wOpen sink blockSize => Sys2Proof.Machine.execWOpen sink blockSize s
  | .wWrite handle data => Sys2Proof.Machine.execWWrite handle data s
  | .wFlush handle => Sys2Proof.Machine.execWFlush handle s
  | .wClose handle => Sys2Proof.Machine.execWClose handle s
  | .rOpen source => Sys2Proof.Machine.execROpen source s
  | .rRead handle capacity => Sys2Proof.Machine.execRRead handle capacity s
  | .rClose handle => Sys2Proof.Machine.execRClose handle s

end Sys2Proof.Machine
end

