-- ==== Sys2Proof/Machine/Fetch.lean ====
section
/-! DEFINITION. What the next step does: which unit acts, and the bytes it fetches (43_decoder.md R170, R174;
30_encoding.md R81). -/

namespace Sys2Proof.Machine

/-- What the next step does. -/
inductive Action where
  /-- nothing is running and nothing is issued: the block waits for its caller -/
  | wait
  /-- the caller resets the block -/
  | reset
  /-- the running DECODE has reached the end of its input (R171) -/
  | finishInput
  /-- the running token stream has reached its payload's end (R185) -/
  | finishPayload
  /-- decode what was fetched and execute it -/
  | run (f : Fetched)
  deriving DecidableEq, Repr

/-- The next action. A DECODE in progress goes on before the caller's next command: calls are synchronous (R6). -/
def nextAction (s : State) : Action :=
  match s.decoder.phase with
  | .header =>
    if s.decoder.cp < s.decoder.inp.length then .run (.header (s.decoder.inp.drop s.decoder.cp)) else .finishInput
  | .tokens =>
    if s.decoder.tp < s.decoder.pe then .run (.token (slice s.decoder.inp s.decoder.tp s.decoder.pe)) else .finishPayload
  | .idle =>
    match s.inputs with
    | [] => .wait
    | .reset :: _ => .reset
    | .command code args :: _ => .run (.command code args)

/-- The state with what the step takes from the caller taken: the first input, when the decode unit is idle. -/
def consume (s : State) : State :=
  match s.decoder.phase with
  | .idle => { s with inputs := s.inputs.tail }
  | .header => s
  | .tokens => s

/-- What a fetch that does not decode does: a header or token ends the running DECODE with the error (R103, R179,
R187); a reserved command code raises IllegalCommand and changes nothing but STATUS (R81). -/
def rejected (r : Reject) (s : State) : State :=
  match s.decoder.phase with
  | .header => decodeFails s { kind := rejectKind r, pos := s.decoder.cp }
  | .tokens => decodeFails s { kind := rejectKind r, pos := s.decoder.tp }
  | .idle => s.raise { kind := rejectKind r, pos := 0 }

/-- Place a fetch where the next step takes it from (log entry 15): a command in front of what the caller has
issued, with the decode unit idle; a header as the whole input of a DECODE that has just begun; a token as the whole
payload of a COMPRESSED chunk of the largest originalLength. -/
def placeFetch (s : State) : Fetched → State
  | .command code args =>
    { s with decoder := { s.decoder with phase := .idle }, inputs := .command code args :: s.inputs }
  | .header bytes => { s with decoder := startDecode bytes s.decoder }
  | .token bytes =>
    { s with decoder :=
        { s.decoder with phase := .tokens, inp := bytes, tp := 0, pe := bytes.length, orig := 0xFFFF#16 } }

end Sys2Proof.Machine
end

