-- ==== Sys2Proof/Machine/Step.lean ====
section
/-! DEFINITION. One step of the machine. -/

namespace Sys2Proof.Machine

/-- One step: the block waits, is reset, ends a loop of the decoder, or executes the instruction it fetches. -/
def step (s : State) : Host.Outcome State Fault Refusal :=
  match nextAction s with
  | .wait => .next s
  | .reset => .next (consume s).afterReset
  | .finishInput => .next (finishInput s)
  | .finishPayload => .next (finishPayload s)
  | .run f =>
    match decode f with
    | .ok i => exec i (consume s)
    | .error r => .next (rejected r (consume s))

/-- The state with a word of the opcode table placed where the next step fetches (log entry 15). -/
def State.withFetchWord (s : State) (nbits w : Nat) : State := placeFetch s (tableFetch nbits w)

end Sys2Proof.Machine
end

