-- ==== Sys2Proof/Safety.lean ====
section
/-! DEFINITION. What counts as a safe state and a safe run, in the terms the claims use: the legal values of every
register (10_state.md R24 to R28, 44_streaming.md R203) and the canonical form of the hash table. -/

namespace Sys2Proof.Machine

/-- The legal values of a Writer (R25, R27, R203): a block size of 1..65535, fewer bytes buffered than a block, and
nothing buffered once CLOSED. -/
def writerOk (w : WriterInst) : Bool :=
  decide (w.buf.length < w.block.toNat) && (decide (w.state = .opened) || w.buf.isEmpty)

/-- The legal values of a Reader (R26, R27): the position is inside the buffer, the source position inside the
source, `R_ERR` is 1, 2 or 3 exactly in ERROR and 0 elsewhere, and only an OPEN Reader holds bytes. -/
def readerOk (r : ReaderInst) : Bool :=
  decide (r.pos ≤ r.buf.length) && decide (r.buf.length ≤ Config.maxChunk) && decide (r.srcPos ≤ r.src.length)
    && (decide (r.state = .opened) || r.buf.isEmpty)
    && (if r.state = .error then decide (1 ≤ r.err.toNat ∧ r.err.toNat ≤ 3) else decide (r.err = 0#3))

/-- The legal values of an instance. -/
def instOk : Inst → Bool
  | .writer w => writerOk w
  | .reader r => readerOk r

/-- The legal values of the decode unit while a DECODE is running (R22, R176): the pointers are inside what they
scan, and the window has not passed originalLength. -/
def decodeUnitOk (d : DecodeUnit) : Bool :=
  match d.phase with
  | .idle => true
  | .header => decide (d.cp ≤ d.inp.length)
  | .tokens => decide (d.tp ≤ d.pe) && decide (d.pe ≤ d.inp.length) && decide (d.window.length ≤ d.orig.toNat)

/-- STATUS agrees with the result of the last operation (R23, R235), and code 7 is never written (R24). -/
def statusOk (st : Status) : Result → Bool
  | .error kind pos => decide (st = .failure kind pos) && decide (1 ≤ kind.toNat ∧ kind.toNat ≤ 6)
  | .none => decide (st = .success)
  | .ok => decide (st = .success)
  | .bytes _ => decide (st = .success)
  | .endSignal => decide (st = .success)
  | .handle _ => decide (st = .success)

/-- Every register of the state holds a legal value, and the hash table is in canonical form. -/
def State.ok (s : State) : Bool :=
  statusOk s.status s.result && s.instances.all instOk && decodeUnitOk s.decoder && htWf s.encoder.table

/-- A run of `k` steps that stops nowhere. -/
def runsTo (s : State) : Nat → State → Prop
  | 0, t => t = s
  | k + 1, t => ∃ u, step s = .next u ∧ runsTo u k t

/-- A sequence of operations, each of which answers a next state, and the results they return in order. -/
def operates (s : State) : List Instr → List Result → State → Prop
  | [], rs, t => rs = [] ∧ t = s
  | i :: rest, rs, t => ∃ u rs', exec i s = .next u ∧ rs = u.result :: rs' ∧ operates u rest rs' t

/-- The bytes a sequence of reads served, in order. -/
def served : List Result → List Byte
  | [] => []
  | .bytes bs :: rest => bs ++ served rest
  | _ :: rest => served rest

/-! ## How an operation ends, with everything it leaves alone -/

/-- The outcome is a next state in which the decode unit's DECODE has ended with an error (R187, R235): STATUS and
the result hold the code and position, the unit is idle with unspecified registers, and nothing else has changed. -/
def endsInError (o : Host.Outcome State Fault Refusal) (s : State) (code : BitVec 3) (pos : Nat) : Prop :=
  ∃ d k, d.phase = .idle ∧
    o = .next { s with status := { kind := code, pos := pos }, result := .error code pos, decoder := d, freeCount := k }

/-- The outcome is the next state in which an operation that ran neither engine has raised an error (R235): only
STATUS and the result have changed. -/
def raisesOnly (o : Host.Outcome State Fault Refusal) (s : State) (code : BitVec 3) (pos : Nat) : Prop :=
  o = .next { s with status := { kind := code, pos := pos }, result := .error code pos }

/-- The outcome is the next state in which an operation has returned a result and replaced one instance, and
nothing else has changed. -/
def returnsWith (o : Host.Outcome State Fault Refusal) (s : State) (r : Result) (insts : List Inst) : Prop :=
  o = .next { s with status := { kind := 0#3, pos := 0 }, result := r, instances := insts }

/-- The outcome is the next state in which a Writer operation has succeeded: the Writer at `h` is now `w'`, the
encoder's registers are unspecified, and nothing else has changed (R202, R31). -/
def movesWriter (o : Host.Outcome State Fault Refusal) (s : State) (h : Nat) (w' : WriterInst) : Prop :=
  ∃ u k, o = .next { s with
    status := { kind := 0#3, pos := 0 }, result := .ok, instances := s.instances.set h (.writer w'), encoder := u,
    freeCount := k }

/-- What an operation that ran a decoder of its own leaves in the decode unit: a DECODE the unit is in the middle of is
left alone, and an idle unit stays idle, its registers unspecified (R59, R243, R32). -/
def leavesOthersDecode (s : State) (d : DecodeUnit) (k : Nat) : Prop :=
  d.phase = s.decoder.phase ∧ (s.decoder.phase ≠ .idle → d = s.decoder ∧ k = s.freeCount)

/-- The handle an operation on an instance names. -/
def onHandle : Instr → Option Nat
  | .wWrite h _ => some h
  | .wFlush h => some h
  | .wClose h => some h
  | .rRead h _ => some h
  | .rClose h => some h
  | .lit _ => none
  | .refS _ _ => none
  | .refL _ _ => none
  | .hdrRaw _ => none
  | .hdrComp _ _ => none
  | .encode _ => none
  | .decode _ => none
  | .wOpen _ _ => none
  | .rOpen _ => none

/-- The operations of 00_scope.md R12, as opposed to the byte-coded forms a DECODE executes. -/
def isOperation : Instr → Bool
  | .lit _ => false
  | .refS _ _ => false
  | .refL _ _ => false
  | .hdrRaw _ => false
  | .hdrComp _ _ => false
  | .encode _ => true
  | .decode _ => true
  | .wOpen _ _ => true
  | .wWrite _ _ => true
  | .wFlush _ => true
  | .wClose _ => true
  | .rOpen _ => true
  | .rRead _ _ => true
  | .rClose _ => true

/-- The bytes in the sink of the instance at a handle; a Reader has none. -/
def sinkOf (s : State) (h : Nat) : Option (List Byte) := (s.instances[h]?).bind Inst.sink

/-! ## The scan of Tokenize -/

/-- `Scans policy S ht p litStart toks`: the scan of R144, from scan position `p` with hash table `ht` and first
pending literal `litStart`, emits `toks`. -/
inductive Scans (policy : Config.EncPolicy) (S : List Byte) : List (Nat × Nat) → Nat → Nat → List Tok → Prop where
  /-- With fewer than 3 bytes left the scan stops and the pending literals are emitted (R126, R147). -/
  | tail (ht : List (Nat × Nat)) (p litStart : Nat) (hp : S.length < p + 3) :
      Scans policy S ht p litStart (flushLiterals (S.drop litStart))
  /-- NoMatch: the byte at `p` stays pending and the scan moves on by one (R127). -/
  | pending (ht ht' : List (Nat × Nat)) (p litStart : Nat) (toks : List Tok) (hp : p + 3 ≤ S.length)
      (hm : find policy ht S p = (none, ht')) (rest : Scans policy S ht' (p + 1) litStart toks) :
      Scans policy S ht p litStart toks
  /-- The first match is accepted: the pending literals and the match are emitted, and the scan and `litStart` move
  past it, with no lookup and no insert in between (R127, R128, R146). -/
  | accepted (ht ht' : List (Nat × Nat)) (p litStart off len : Nat) (toks : List Tok) (hp : p + 3 ≤ S.length)
      (hm : find policy ht S p = (some (off, len), ht')) (rest : Scans policy S ht' (p + len) (p + len) toks) :
      Scans policy S ht p litStart (flushLiterals ((S.take p).drop litStart) ++ .ref off len :: toks)

end Sys2Proof.Machine
end

