-- ==== Sys2Proof/Certificates/Slice0/Obligations.lean ====
section
/-! DEFINITION. The statements for the provers. Each docstring names the rule it formalises; where a clause is the
model's own choice it names the log entry. -/

open Sys2Proof
open Sys2Proof.Machine

/-! ## Reset, STATUS and the machine as a whole -/

/-- R32, R260: after reset no Writer and no Reader exists and STATUS is (0, 0). (That nothing has been returned, that
no sink has been released and that nothing is issued are the model's: log entries 10, 18, 9.) -/
def Obligations.ResetClearsStatusAndInstances : Prop :=
  State.reset.instances = [] ∧ State.reset.status.kind = 0#3 ∧ State.reset.status.pos = 0 ∧
    State.reset.result = .none ∧ State.reset.releasedSinks = [] ∧ State.reset.inputs = [] ∧
    State.reset.decoder.phase = .idle

/-- The invariant of `Obligations.EveryStepKeepsLegalState` holds at reset. -/
def Obligations.ResetStateIsLegal : Prop := State.reset.ok = true

/-- R24, R26, R27, R28, R203: every step keeps every register at a legal value. `State.ok` says that STATUS agrees
with the result and never holds code 7, that a Writer has a block size of at least 1, buffers fewer bytes than a block
and none once CLOSED, that a Reader's position is inside its buffer, its source position inside its source and `R_ERR`
1, 2 or 3 exactly in ERROR, that a running DECODE's pointers are inside what they scan and its window has not passed
originalLength, and that `HT` is in canonical form with legal entries. -/
def Obligations.EveryStepKeepsLegalState : Prop :=
  ∀ s t : State, s.ok = true → step s = .next t → t.ok = true

/-- R260, R269: a reset the caller gives destroys every instance without forwarding a byte and clears STATUS. (That
the Writers' sinks are released as they stand and that what the caller has issued is kept is log entry 18.) -/
def Obligations.ResetInputDestroysInstances : Prop :=
  ∀ (s : State) (rest : List HostInput), s.decoder.phase = .idle → s.inputs = .reset :: rest →
    ∃ t, step s = .next t ∧ t.instances = [] ∧ t.status = { kind := 0#3, pos := 0 } ∧ t.result = .none ∧
      t.releasedSinks = s.releasedSinks ++ s.instances.filterMap Inst.sink ∧ t.inputs = rest ∧ t.decoder.phase = .idle

/-- A step executes the instruction its fetch decodes to: in DECODE's chunk loop the bytes from `cp` (R170), in a token
stream the bytes from `tp` to the payload's end (R174, R177), else the command the caller issued first (R81), which
it takes off what is issued (log entries 8, 9 and 11). -/
def Obligations.StepRunsTheDecodedInstruction : Prop :=
  ∀ (s : State) (i : Instr),
    (s.decoder.phase = .header → s.decoder.cp < s.decoder.inp.length →
      decode (.header (s.decoder.inp.drop s.decoder.cp)) = .ok i → step s = exec i s) ∧
    (s.decoder.phase = .tokens → s.decoder.tp < s.decoder.pe →
      decode (.token ((s.decoder.inp.take s.decoder.pe).drop s.decoder.tp)) = .ok i → step s = exec i s) ∧
    (∀ code args rest, s.decoder.phase = .idle → s.inputs = .command code args :: rest →
      decode (.command code args) = .ok i → step s = exec i { s with inputs := rest })

/-- With nothing running and nothing issued, a step changes nothing (log entry 9: the model's choice). -/
def Obligations.IdleBlockWaits : Prop :=
  ∀ s : State, s.decoder.phase = .idle → s.inputs = [] → step s = .next s

/-- R81, U7: a reserved command code changes no state except STATUS, which becomes (6, 0). (The result is the error,
log entry 10, and the command is taken off what is issued, log entry 9.) -/
def Obligations.ReservedCommandCodeIsIllegalCommand : Prop :=
  ∀ (s : State) (code : Byte) (args : Operands) (rest : List HostInput),
    s.decoder.phase = .idle → s.inputs = .command code args :: rest →
    code.toNat ∉ [0x01, 0x02, 0x10, 0x11, 0x12, 0x13, 0x20, 0x21, 0x22] →
    step s = .next { s with inputs := rest, status := { kind := 6#3, pos := 0 }, result := .error 6#3 0 }

/-- R23, R24: every operation writes STATUS at its end: (0, 0) on success, else the code and position of the error it
returns, a code of 1 to 6. -/
def Obligations.EveryOperationWritesStatus : Prop :=
  ∀ (i : Instr) (s t : State), isOperation i = true → s.ok = true → exec i s = .next t →
    (t.status = { kind := 0#3, pos := 0 } ∧ ∀ c p, t.result ≠ .error c p) ∨
    (∃ c p, t.status = { kind := c, pos := p } ∧ t.result = .error c p ∧ 1 ≤ c.toNat ∧ c.toNat ≤ 6)

/-- R25, R26, R215: CLOSED is terminal, a block size is written once, and a source position only advances. Only a reset
destroys an instance. -/
def Obligations.ClosedIsTerminal : Prop :=
  ∀ (s t : State) (h : Nat), nextAction s ≠ .reset → step s = .next t →
    (∀ w, s.instances[h]? = some (.writer w) → ∃ w', t.instances[h]? = some (.writer w') ∧
      w'.block = w.block ∧ (w.state = .closed → w' = w)) ∧
    (∀ r, s.instances[h]? = some (.reader r) → ∃ r', t.instances[h]? = some (.reader r') ∧
      r'.src = r.src ∧ r.srcPos ≤ r'.srcPos ∧ (r.state = .closed → r' = r))

/-- R56: what was forwarded to a sink is never withdrawn; no step of any kind shortens or changes a sink's bytes. (That a
reset releases the sinks as they stand is log entry 18.) -/
def Obligations.SinkBytesAreNeverWithdrawn : Prop :=
  ∀ s t : State, step s = .next t →
    (nextAction s ≠ .reset →
      t.releasedSinks = s.releasedSinks ∧
      ∀ (h : Nat) (w : WriterInst), s.instances[h]? = some (.writer w) →
        ∃ w' bs, t.instances[h]? = some (.writer w') ∧ w'.sink = w.sink ++ bs) ∧
    (nextAction s = .reset → t.releasedSinks = s.releasedSinks ++ s.instances.filterMap Inst.sink)

/-- R267: an operation on a handle that no open returned is refused, and so is a Writer operation on a Reader's handle
and the reverse. -/
def Obligations.UnknownAndWrongHandlesAreRefused : Prop :=
  ∀ (s : State) (h : Nat),
    (s.instances[h]? = none → ∀ i, onHandle i = some h → exec i s = .refused .unknownHandle) ∧
    (∀ r, s.instances[h]? = some (.reader r) →
      (∀ d, exec (.wWrite h d) s = .refused .wrongHandleKind) ∧ exec (.wFlush h) s = .refused .wrongHandleKind ∧
        exec (.wClose h) s = .refused .wrongHandleKind) ∧
    (∀ w, s.instances[h]? = some (.writer w) →
      (∀ k, exec (.rRead h k) s = .refused .wrongHandleKind) ∧ exec (.rClose h) s = .refused .wrongHandleKind)

/-- R59, R30: operations on different instances share no state, no sink among it, and commute. An operation leaves every
other instance as it is; run in either order, each returns what it returns alone, and every instance, its sink with it,
ends the same. -/
def Obligations.DifferentInstancesCommute : Prop :=
  ∀ (s a b : State) (i j : Instr) (h g : Nat), h ≠ g →
    onHandle i = some h → onHandle j = some g → exec i s = .next a → exec j s = .next b →
    (∀ k, k ≠ h → a.instances[k]? = s.instances[k]?) ∧
    ∃ c d, exec j a = .next c ∧ exec i b = .next d ∧ c.instances = d.instances ∧
      c.releasedSinks = s.releasedSinks ∧ d.releasedSinks = s.releasedSinks ∧
      c.result = b.result ∧ c.status = b.status ∧ d.result = a.result ∧ d.status = a.status

/-! ## Encoding -/

/-- R74 to R77, R71, R72, R81: decoding the encoding of a well-formed instruction gives it back, with every operand at
every value; what follows a token in its payload, or a header in its input, does not change what it decodes to. -/
def Obligations.DecodeOfEncodeIsTheInstruction : Prop :=
  (∀ i : Instr, i.wf = true → decode (encode i) = .ok i) ∧
  (∀ (f : TokenForm) (rest : List Byte), f.instr.wf = true → decodeToken (encodeToken f ++ rest) = .ok f) ∧
  (∀ (h : HeaderForm) (rest : List Byte), decodeHeader (headerBytes h ++ rest) = .ok h)

/-- R78: decode then encode is the identity on token bytes: a token that decodes is well formed, its encoding is the
bytes it was decoded from, and it has that many bytes. -/
def Obligations.EncodeOfDecodedTokenIsItsBytes : Prop :=
  ∀ (bytes : List Byte) (f : TokenForm), decodeToken bytes = .ok f →
    f.instr.wf = true ∧ encodeToken f = bytes.take f.size ∧ f.size ≤ bytes.length

/-- R78: a literal run of 1 to 32 bytes and a backreference with `1 ≤ off ≤ 8192` and `3 ≤ len ≤ 264` have exactly one
encoding: the form R77 assembles is well formed, says that run or backreference, and is the only well-formed form that
does. -/
def Obligations.EveryTokenHasOneEncoding : Prop :=
  ∀ t : Tok,
    (match t with
      | .run s => 1 ≤ s.length ∧ s.length ≤ 32
      | .ref off len => 1 ≤ off ∧ off ≤ 8192 ∧ 3 ≤ len ∧ len ≤ 264) →
    (formOf t).instr.wf = true ∧ tokOf (formOf t) = t ∧
      ∀ f : TokenForm, f.instr.wf = true → tokOf f = t → f = formOf t

/-- R73, R79, R179: the control byte alone selects a token's form and length, every control byte selects one, and a
token that has fewer bytes than that before the payload's end is cut. -/
def Obligations.ControlByteSelectsFormAndLength : Prop :=
  ∀ (ctrl : Byte) (rest : List Byte),
    (ctrl.toNat / 32 = 0 →
      (rest.length < ctrl.toNat % 32 + 1 → decodeToken (ctrl :: rest) = .error .tokenCut) ∧
      (ctrl.toNat % 32 + 1 ≤ rest.length →
        decodeToken (ctrl :: rest) = .ok (.lit (rest.take (ctrl.toNat % 32 + 1))))) ∧
    (1 ≤ ctrl.toNat / 32 → ctrl.toNat / 32 ≤ 6 →
      (rest = [] → decodeToken (ctrl :: rest) = .error .tokenCut) ∧
      (∀ lo more, rest = lo :: more → ∃ l o, decodeToken (ctrl :: rest) = .ok (.refS l o) ∧
        tokOf (.refS l o) = .ref (ctrl.toNat % 32 * 256 + lo.toNat + 1) (ctrl.toNat / 32 + 2))) ∧
    (ctrl.toNat / 32 = 7 →
      (rest.length < 2 → decodeToken (ctrl :: rest) = .error .tokenCut) ∧
      (∀ e lo more, rest = e :: lo :: more → ∃ o, decodeToken (ctrl :: rest) = .ok (.refL e o) ∧
        tokOf (.refL e o) = .ref (ctrl.toNat % 32 * 256 + lo.toNat + 1) (e.toNat + 9)))

/-- R71, R72, R74 to R76, R81: a few words written out from the spec's encodings decode to the instructions they stand
for. -/
def Obligations.SampleWordsDecode : Prop :=
  decode (.token [0x02#8, 0x61#8, 0x62#8, 0x63#8]) = .ok (.lit [0x61#8, 0x62#8, 0x63#8]) ∧
  decode (.token [0xDF#8, 0xFF#8]) = .ok (.refS 6#3 8191#13) ∧
  decode (.token [0xE1#8, 0x1A#8, 0x07#8]) = .ok (.refL 0x1A#8 263#13) ∧
  decode (.header [0x5A#8, 0x56#8, 0x00#8, 0x01#8, 0x2C#8]) = .ok (.hdrRaw 300#16) ∧
  decode (.header [0x5A#8, 0x56#8, 0x01#8, 0x01#8, 0x2C#8, 0x00#8, 0x08#8]) = .ok (.hdrComp 300#16 8#16) ∧
  decode (.command 0x11#8 { handle := 4, bytes := [0x6F#8] }) = .ok (.wWrite 4 [0x6F#8]) ∧
  decode (.command 0x21#8 { handle := 2, number := 5 }) = .ok (.rRead 2 5)

/-- R50, R100, R101: `writeHeader` gives the marker, the type, and each length big-endian, for an originalLength of 1 to
65535 and a compressedLength of 1 to originalLength; a call with any other length is refused. -/
def Obligations.HeaderBytesAreBigEndian : Prop :=
  ∀ n m : BitVec 16,
    (1 ≤ n.toNat → ∃ bytes, writeHeader (.raw n) = some bytes ∧
      bytes.map BitVec.toNat = [0x5A, 0x56, 0, n.toNat / 256, n.toNat % 256]) ∧
    (n.toNat = 0 → writeHeader (.raw n) = none) ∧
    (1 ≤ n.toNat → 1 ≤ m.toNat → m.toNat ≤ n.toNat → ∃ bytes, writeHeader (.comp n m) = some bytes ∧
      bytes.map BitVec.toNat = [0x5A, 0x56, 1, n.toNat / 256, n.toNat % 256, m.toNat / 256, m.toNat % 256]) ∧
    (n.toNat = 0 ∨ m.toNat = 0 ∨ n.toNat < m.toNat → writeHeader (.comp n m) = none)

/-! ## The chunk header -/

/-- R103: `parseHeader` makes its eight checks in this order and raises the first that fails, at the header's
position; a header that passes them all is returned with its lengths. -/
def Obligations.ParseHeaderChecksInOrder : Prop :=
  ∀ (B : List Byte) (pos : Nat), pos < B.length →
    let rem := B.length - pos
    let at' := fun i => (B.getD (pos + i) 0#8).toNat
    let n := at' 3 * 256 + at' 4
    let m := at' 5 * 256 + at' 6
    parseHeader B pos =
      if rem < 2 then .error { kind := .truncatedInput, pos := pos }
      else if at' 0 ≠ 0x5A ∨ at' 1 ≠ 0x56 then .error { kind := .malformedChunk, pos := pos }
      else if rem < 3 then .error { kind := .truncatedInput, pos := pos }
      else if at' 2 = 0 then
        if rem < 5 then .error { kind := .truncatedInput, pos := pos }
        else if n = 0 then .error { kind := .malformedChunk, pos := pos }
        else if rem - 5 < n then .error { kind := .truncatedInput, pos := pos }
        else .ok (.raw (BitVec.ofNat 16 n))
      else if at' 2 = 1 then
        if rem < 7 then .error { kind := .truncatedInput, pos := pos }
        else if n = 0 then .error { kind := .malformedChunk, pos := pos }
        else if m = 0 ∨ n < m then .error { kind := .malformedChunk, pos := pos }
        else if rem - 7 < m then .error { kind := .truncatedInput, pos := pos }
        else .ok (.comp (BitVec.ofNat 16 n) (BitVec.ofNat 16 m))
      else .error { kind := .malformedChunk, pos := pos }

/-- R173, R172, R105, R106: a RAW header that a DECODE has reached. With its lengths legal and its payload present, the
`n` payload bytes are output unchanged and `cp` advances by `5 + n`; nothing else changes. An originalLength of 0 is
MalformedChunk and a missing byte TruncatedInput, at the header's position. -/
def Obligations.RawHeaderOutputsItsPayload : Prop :=
  ∀ (s : State) (n : BitVec 16), s.decoder.phase = .header →
    let d := s.decoder
    let rem := d.inp.length - d.cp
    (5 ≤ rem → n ≠ 0#16 → n.toNat ≤ rem - 5 →
      exec (.hdrRaw n) s = .next { s with decoder :=
        { d with out := d.out ++ (d.inp.drop (d.cp + 5)).take n.toNat, cp := d.cp + (5 + n.toNat) } }) ∧
    (5 ≤ rem → n = 0#16 → endsInError (exec (.hdrRaw n) s) s 1#3 d.cp) ∧
    (rem < 5 ∨ (n ≠ 0#16 ∧ rem - 5 < n.toNat) → endsInError (exec (.hdrRaw n) s) s 2#3 d.cp)

/-- R174, R176, R105, R106: a COMPRESSED header that a DECODE has reached. With its lengths legal and its payload
present, the token stream begins: `tp` at the first payload byte, the payload's end `m` bytes on, the window empty;
nothing else changes. An originalLength of 0, a compressedLength of 0 and one above originalLength are MalformedChunk and
a missing byte is TruncatedInput, at the header's position. -/
def Obligations.CompressedHeaderStartsTokenStream : Prop :=
  ∀ (s : State) (n m : BitVec 16), s.decoder.phase = .header →
    let d := s.decoder
    let rem := d.inp.length - d.cp
    (7 ≤ rem → n ≠ 0#16 → m ≠ 0#16 → m.toNat ≤ n.toNat → m.toNat ≤ rem - 7 →
      exec (.hdrComp n m) s = .next { s with decoder :=
        { d with phase := .tokens, tp := d.cp + 7, pe := d.cp + 7 + m.toNat, orig := n, window := [] } }) ∧
    (7 ≤ rem → (n = 0#16 ∨ m = 0#16 ∨ n.toNat < m.toNat) → endsInError (exec (.hdrComp n m) s) s 1#3 d.cp) ∧
    (rem < 7 ∨ (n ≠ 0#16 ∧ m ≠ 0#16 ∧ m.toNat ≤ n.toNat ∧ rem - 7 < m.toNat) →
      endsInError (exec (.hdrComp n m) s) s 2#3 d.cp)

/-! ## Tokens -/

/-- R186: `Copy(off, len)` with `1 ≤ off ≤ op` appends `len` bytes, byte `i` of which equals
`W0[op − off + (i mod off)]`; when `off ≥ len` that is a bulk copy. -/
def Obligations.CopyRepeatsWithPeriodOffset : Prop :=
  ∀ (W0 : List Byte) (off len : Nat), 1 ≤ off → off ≤ W0.length →
    copyBytes off len W0 =
      W0 ++ (List.range len).map (fun i => W0.getD (W0.length - off + i % off) 0#8) ∧
    (len ≤ off → copyBytes off len W0 = W0 ++ (W0.drop (W0.length - off)).take len)

/-- R180, R181, R182: a token whose bytes lie before the payload's end, whose offset is inside the window and whose
output fits originalLength completes: `tp` advances by its size, its bytes join the window, and nothing else changes. -/
def Obligations.TokensComplete : Prop :=
  ∀ s : State, s.decoder.phase = .tokens →
    let d := s.decoder
    (∀ bytes : List Byte, d.tp + (1 + bytes.length) ≤ d.pe → d.window.length + bytes.length ≤ d.orig.toNat →
      exec (.lit bytes) s =
        .next { s with decoder := { d with tp := d.tp + (1 + bytes.length), window := d.window ++ bytes } }) ∧
    (∀ (l : BitVec 3) (o : BitVec 13), d.tp + 2 ≤ d.pe → o.toNat + 1 ≤ d.window.length →
      d.window.length + (l.toNat + 2) ≤ d.orig.toNat →
      exec (.refS l o) s = .next { s with decoder :=
        { d with tp := d.tp + 2, window := copyBytes (o.toNat + 1) (l.toNat + 2) d.window } }) ∧
    (∀ (e : Byte) (o : BitVec 13), d.tp + 3 ≤ d.pe → o.toNat + 1 ≤ d.window.length →
      d.window.length + (e.toNat + 9) ≤ d.orig.toNat →
      exec (.refL e o) s = .next { s with decoder :=
        { d with tp := d.tp + 3, window := copyBytes (o.toNat + 1) (e.toNat + 9) d.window } })

/-- R178, R179, R183, R184: why a token fails, the checks in this order: its bytes run past the payload's end
(MalformedChunk), its offset exceeds the window (InvalidBackreference), its output passes originalLength
(MalformedChunk); each at `tp`, each ending the DECODE with no output. -/
def Obligations.TokensFailInOrder : Prop :=
  ∀ (s : State) (f : TokenForm), s.decoder.phase = .tokens →
    let d := s.decoder
    (d.pe < d.tp + f.size → endsInError (exec f.instr s) s 1#3 d.tp) ∧
    (∀ off len, tokOf f = .ref off len → d.tp + f.size ≤ d.pe → d.window.length < off →
      endsInError (exec f.instr s) s 3#3 d.tp) ∧
    (∀ off len, tokOf f = .ref off len → d.tp + f.size ≤ d.pe → off ≤ d.window.length →
      d.orig.toNat < d.window.length + len → endsInError (exec f.instr s) s 1#3 d.tp) ∧
    (∀ bytes, tokOf f = .run bytes → d.tp + f.size ≤ d.pe → d.orig.toNat < d.window.length + bytes.length →
      endsInError (exec f.instr s) s 1#3 d.tp)

/-- R180: the step at a control byte with `ctrl[7:5] = 000` runs a literal run of `k = ctrl[4:0] + 1` bytes. -/
def Obligations.StepAtLiteralControlByte : Prop :=
  ∀ s : State, s.decoder.phase = .tokens → s.decoder.tp < s.decoder.pe → s.decoder.pe ≤ s.decoder.inp.length →
    let d := s.decoder
    let ctrl := (d.inp.getD d.tp 0#8).toNat
    let k := ctrl % 32 + 1
    ctrl / 32 = 0 →
    (d.pe < d.tp + 1 + k → endsInError (step s) s 1#3 d.tp) ∧
    (d.tp + 1 + k ≤ d.pe → d.orig.toNat < d.window.length + k → endsInError (step s) s 1#3 d.tp) ∧
    (d.tp + 1 + k ≤ d.pe → d.window.length + k ≤ d.orig.toNat →
      step s = .next { s with decoder :=
        { d with tp := d.tp + 1 + k, window := d.window ++ (d.inp.drop (d.tp + 1)).take k } })

/-- R181: the step at a control byte with `ctrl[7:5]` in 001..110 runs a short backreference. -/
def Obligations.StepAtShortBackreference : Prop :=
  ∀ s : State, s.decoder.phase = .tokens → s.decoder.tp < s.decoder.pe → s.decoder.pe ≤ s.decoder.inp.length →
    let d := s.decoder
    let ctrl := (d.inp.getD d.tp 0#8).toNat
    let len := ctrl / 32 + 2
    let off := ctrl % 32 * 256 + (d.inp.getD (d.tp + 1) 0#8).toNat + 1
    1 ≤ ctrl / 32 → ctrl / 32 ≤ 6 →
    (d.pe < d.tp + 2 → endsInError (step s) s 1#3 d.tp) ∧
    (d.tp + 2 ≤ d.pe → d.window.length < off → endsInError (step s) s 3#3 d.tp) ∧
    (d.tp + 2 ≤ d.pe → off ≤ d.window.length → d.orig.toNat < d.window.length + len →
      endsInError (step s) s 1#3 d.tp) ∧
    (d.tp + 2 ≤ d.pe → off ≤ d.window.length → d.window.length + len ≤ d.orig.toNat →
      step s = .next { s with decoder := { d with
        tp := d.tp + 2
        window := d.window ++ (List.range len).map (fun i => d.window.getD (d.window.length - off + i % off) 0#8) } })

/-- R182: the step at a control byte with `ctrl[7:5] = 111` runs a long backreference. -/
def Obligations.StepAtLongBackreference : Prop :=
  ∀ s : State, s.decoder.phase = .tokens → s.decoder.tp < s.decoder.pe → s.decoder.pe ≤ s.decoder.inp.length →
    let d := s.decoder
    let ctrl := (d.inp.getD d.tp 0#8).toNat
    let len := (d.inp.getD (d.tp + 1) 0#8).toNat + 9
    let off := ctrl % 32 * 256 + (d.inp.getD (d.tp + 2) 0#8).toNat + 1
    ctrl / 32 = 7 →
    (d.pe < d.tp + 3 → endsInError (step s) s 1#3 d.tp) ∧
    (d.tp + 3 ≤ d.pe → d.window.length < off → endsInError (step s) s 3#3 d.tp) ∧
    (d.tp + 3 ≤ d.pe → off ≤ d.window.length → d.orig.toNat < d.window.length + len →
      endsInError (step s) s 1#3 d.tp) ∧
    (d.tp + 3 ≤ d.pe → off ≤ d.window.length → d.window.length + len ≤ d.orig.toNat →
      step s = .next { s with decoder := { d with
        tp := d.tp + 3
        window := d.window ++ (List.range len).map (fun i => d.window.getD (d.window.length - off + i % off) 0#8) } })

/-- R185, R172: when `tp` reaches the payload's end the token stream ends: with `op = n` the window is output and `cp`
moves to the payload's end, else the output is short and DECODE ends with MalformedChunk there. -/
def Obligations.PayloadEndChecksOutputLength : Prop :=
  ∀ s : State, s.decoder.phase = .tokens → s.decoder.tp = s.decoder.pe →
    let d := s.decoder
    (d.window.length ≠ d.orig.toNat → endsInError (step s) s 1#3 d.pe) ∧
    (d.window.length = d.orig.toNat →
      step s = .next { s with decoder := { d with phase := .header, cp := d.pe, out := d.out ++ d.window } })

/-- A token outside a token stream and a header that no DECODE has reached have no meaning (log entry 12: the model's
choice). -/
def Obligations.FormsOutOfContextAreRefused : Prop :=
  ∀ (s : State) (f : TokenForm) (h : HeaderForm),
    (s.decoder.phase ≠ .tokens → exec f.instr s = .refused .formOutOfContext) ∧
    (s.decoder.phase ≠ .header → exec h.instr s = .refused .formOutOfContext)

/-! ## DECODE -/

/-- R170, R187, R235, R236, R59, R243: DECODE completes from every state. It returns the decoded bytes with STATUS (0, 0), or
the first error with its code and position and no bytes; nothing else changes. (Its own registers, kept in an idle decode
unit, are unspecified afterwards, and a DECODE that the unit is in the middle of is left alone: log entries 13 and
14.) -/
def Obligations.DecodeReturnsBytesOrFirstError : Prop :=
  ∀ (s : State) (inp : List Byte),
    (∀ out, decodeAll inp = .ok out → ∃ d k, leavesOthersDecode s d k ∧ exec (.decode inp) s =
      .next { s with status := { kind := 0#3, pos := 0 }, result := .bytes out, decoder := d, freeCount := k }) ∧
    (∀ e, decodeAll inp = .error e → ∃ d k, leavesOthersDecode s d k ∧ exec (.decode inp) s =
      .next { s with
        status := { kind := e.kind.code, pos := e.pos }, result := .error e.kind.code e.pos, decoder := d,
        freeCount := k })

/-- R170, R171, R172, R109: DECODE is decided chunk by chunk. The empty input gives the empty output. Else the chunk at
the front decides: its error is the error, or its output is followed by the DECODE of the bytes after it, whose error
positions count from there. -/
def Obligations.DecodeGoesChunkByChunk : Prop :=
  decodeAll [] = .ok [] ∧
  ∀ inp : List Byte, inp ≠ [] →
    (∀ e, decodeChunk inp 0 = .error e → decodeAll inp = .error e) ∧
    (∀ chunk next, decodeChunk inp 0 = .ok (chunk, next) → 0 < next ∧ next ≤ inp.length ∧
      (∀ out, decodeAll (inp.drop next) = .ok out → decodeAll inp = .ok (chunk ++ out)) ∧
      (∀ e, decodeAll (inp.drop next) = .error e → decodeAll inp = .error { kind := e.kind, pos := next + e.pos }))

/-- R109: chunks are self-contained. A concatenation of valid encoded buffers is valid and decodes to the concatenation
of their decodes; and after a valid buffer the first error of what follows is the error, further on. -/
def Obligations.DecodeOfConcatenation : Prop :=
  ∀ (a b x : List Byte), decodeAll a = .ok x →
    (∀ y, decodeAll b = .ok y → decodeAll (a ++ b) = .ok (x ++ y)) ∧
    (∀ e, decodeAll b = .error e → decodeAll (a ++ b) = .error { kind := e.kind, pos := a.length + e.pos })

/-- R170, R171, R174, R272: executing the forms one step at a time from the start of a DECODE reaches, within
`len(IN) + 1` steps, an idle unit with the STATUS and the result that the atomic DECODE gives, and changes nothing else
the caller can see. (That a DECODE can be executed form by form, in a decode unit, is log entry 11: the model's choice.) -/
def Obligations.SteppingFormsReachesDecode : Prop :=
  ∀ (s t : State) (inp : List Byte), exec (.decode inp) s = .next t →
    ∃ k u, k ≤ inp.length + 1 ∧ runsTo { s with decoder := startDecode inp s.decoder } k u ∧
      u.decoder.phase = .idle ∧ u.status = t.status ∧ u.result = t.result ∧ u.instances = s.instances ∧
      u.releasedSinks = s.releasedSinks ∧ u.inputs = s.inputs

/-! ## The match finder and the encoder -/

/-- R121: `hash3`, and that it is an index of the table. -/
def Obligations.HashIsATableIndex : Prop :=
  ∀ b0 b1 b2 : Byte,
    hash3 b0 b1 b2 =
      (b0.toNat * 65536 + b1.toNat * 256 + b2.toNat) * 2654435761 % 4294967296 / 262144 ∧
    hash3 b0 b1 b2 < 16384

/-- R122, R123, R124: `MatchAt(p)` looks the bucket up before it inserts `p`: what it measures is the old entry, the
bucket then holds `p`, and every other bucket is unchanged. -/
def Obligations.LookupPrecedesInsert : Prop :=
  ∀ (ht : List (Nat × Nat)) (S : List Byte) (p : Nat), htWf ht = true →
    (matchAt ht S p).1 = measureAt S p (htGet ht (hashAt S p)) ∧
    htGet (matchAt ht S p).2 (hashAt S p) = some p ∧
    ∀ i, i ≠ hashAt S p → htGet (matchAt ht S p).2 i = htGet ht i

/-- R125, R129: what the finder measures. A candidate `c < p` at a distance above 8192, or whose first three bytes
differ, gives NoMatch. Else the match has `off = p − c` and the largest length within 264 and the slice at which the
bytes agree. -/
def Obligations.MeasureIsTheLongestAgreement : Prop :=
  ∀ (S : List Byte) (p c : Nat), c < p → p + 3 ≤ S.length →
    measureAt S p none = none ∧
    (8192 < p - c → measureAt S p (some c) = none) ∧
    ((∃ i, i < 3 ∧ S.getD (c + i) 0#8 ≠ S.getD (p + i) 0#8) → measureAt S p (some c) = none) ∧
    (p - c ≤ 8192 → (∀ i, i < 3 → S.getD (c + i) 0#8 = S.getD (p + i) 0#8) →
      ∃ len, measureAt S p (some c) = some (p - c, len) ∧ 3 ≤ len ∧ len ≤ 264 ∧ p + len ≤ S.length ∧
        (∀ i, i < len → S.getD (c + i) 0#8 = S.getD (p + i) 0#8) ∧
        (len < 264 → p + len < S.length → S.getD (c + len) 0#8 ≠ S.getD (p + len) 0#8))

/-- R129: every match the finder returns, at its scan position `p` (the bytes the tokens before it produce), satisfies
`1 ≤ off ≤ 8192`, `3 ≤ len ≤ 264`, `p + len ≤ n`, `p − off ≥ 0`, and its bytes are those `off` back. Under either
value of `ENC_POLICY`. -/
def Obligations.EveryMatchIsLegal : Prop :=
  ∀ (policy : Config.EncPolicy) (S : List Byte) (before after : List Tok) (off len : Nat),
    tokenize policy S = before ++ .ref off len :: after →
    let p := (before.map Tok.count).sum
    1 ≤ off ∧ off ≤ 8192 ∧ 3 ≤ len ∧ len ≤ 264 ∧ p + len ≤ S.length ∧ off ≤ p ∧
      ∀ i, i < len → S.getD (p - off + i) 0#8 = S.getD (p + i) 0#8

/-- R149: the lengths of a slice's literal runs and backreferences sum to exactly its length. -/
def Obligations.TokensCoverTheSlice : Prop :=
  ∀ (policy : Config.EncPolicy) (S : List Byte), ((tokenize policy S).map Tok.count).sum = S.length

/-- R29, R126, R127, R128, R144, R146, R147: Tokenize is the greedy scan, which starts at position 0 with every entry of
`HT` EMPTY and no byte pending. While 3 bytes remain, the finder is asked at `p`: NoMatch leaves the byte pending and
moves `p` by 1, and the first match emits the pending literals and the backreference and moves `p` and `litStart` past
it. The bytes left pending are emitted at the end. Under `reference` the finder is `MatchAt`. -/
def Obligations.TokenizeScansGreedily : Prop :=
  (∀ i, htGet htEmpty i = none) ∧
  (∀ ht S p, find .reference ht S p = matchAt ht S p) ∧
  ∀ (policy : Config.EncPolicy) (S : List Byte) (toks : List Tok),
    Scans policy S htEmpty 0 0 toks ↔ toks = tokenize policy S

/-- R150, R156(d): pending literals become `floor(k/32)` runs of 32 and, when `k mod 32 ≠ 0`, one final run of the
rest, front first; and every literal run of a slice has 1 to 32 bytes. -/
def Obligations.LiteralRunsAreSplitFrontFirst : Prop :=
  (∀ s : List Byte, flushLiterals s =
    (List.range (s.length / 32)).map (fun j => Tok.run ((s.drop (32 * j)).take 32)) ++
      (if s.length % 32 = 0 then [] else [Tok.run (s.drop (32 * (s.length / 32)))])) ∧
  (∀ (policy : Config.EncPolicy) (S bytes : List Byte), Tok.run bytes ∈ tokenize policy S →
    1 ≤ bytes.length ∧ bytes.length ≤ 32)

/-- R153, R154: the chunk of a slice of 1 to 65535 bytes is COMPRESSED exactly when the packed payload is strictly
shorter than the slice, and else RAW with the slice as its payload; `writeHeader` refuses neither call. -/
def Obligations.CompressedExactlyWhenItShrinks : Prop :=
  ∀ (policy : Config.EncPolicy) (S : List Byte), 1 ≤ S.length → S.length ≤ 65535 →
    let payload := pack (tokenize policy S)
    (payload.length < S.length → ∃ header,
      writeHeader (.comp (BitVec.ofNat 16 S.length) (BitVec.ofNat 16 payload.length)) = some header ∧
        encodeChunk policy S = header ++ payload) ∧
    (S.length ≤ payload.length → ∃ header,
      writeHeader (.raw (BitVec.ofNat 16 S.length)) = some header ∧ encodeChunk policy S = header ++ S)

/-- R141, R142: an input of `L` bytes is encoded as `ceil(L / 65535)` chunks, chunk `j` covering the bytes from
`65535·j`, at most 65535 of them; the empty input is zero chunks. -/
def Obligations.InputSplitsIntoMaxSizeChunks : Prop :=
  ∀ (policy : Config.EncPolicy) (B : List Byte),
    encodeAll policy B =
      ((List.range ((B.length + 65534) / 65535)).map
        (fun j => encodeChunk policy ((B.drop (65535 * j)).take 65535))).flatten

/-- R155: an input of `L` bytes encodes to at most `L + 6·ceil(L/65535)` bytes. -/
def Obligations.EncodingExpandsByAtMostSixPerChunk : Prop :=
  ∀ (policy : Config.EncPolicy) (B : List Byte),
    (encodeAll policy B).length ≤ B.length + 6 * ((B.length + 65534) / 65535)

/-- R156: whatever finder is used, each chunk of a slice of 1 to 65535 bytes is RAW with the slice as its payload, or
COMPRESSED with a payload shorter than the slice whose tokens decode to exactly the slice with no error; and decoding
the encoding of any input gives the input. -/
def Obligations.DecodeOfEncodeIsTheInput : Prop :=
  ∀ policy : Config.EncPolicy,
    (∀ S : List Byte, 1 ≤ S.length → S.length ≤ 65535 →
      (∃ header, writeHeader (.raw (BitVec.ofNat 16 S.length)) = some header ∧ encodeChunk policy S = header ++ S) ∨
      ∃ header payload : List Byte, payload.length < S.length ∧
        writeHeader (.comp (BitVec.ofNat 16 S.length) (BitVec.ofNat 16 payload.length)) = some header ∧
        encodeChunk policy S = header ++ payload ∧
        decodeTokens payload 0 payload.length S.length = .ok S) ∧
    (∀ B : List Byte, decodeAll (encodeAll policy B) = .ok B)

/-- R140, R156, R157, R261: ENCODE completes from every state on every input. It returns the input's encoding under the
machine's `ENC_POLICY`, `reference` (R8, log entry 4; the statements about `encodeAll`, `encodeChunk` and `tokenize` say which bytes those are), and
changes nothing else but STATUS and its own unspecified registers; a DECODE of what it returned gives the input back. -/
def Obligations.EncodeCompletesAndDecodesBack : Prop :=
  Config.encPolicy = .reference ∧
  ∀ (B : List Byte) (s : State),
    (∃ u k, exec (.encode B) s = .next { s with
      status := { kind := 0#3, pos := 0 }, result := .bytes (encodeAll Config.encPolicy B), encoder := u,
      freeCount := k }) ∧
    (∃ t, exec (.decode (encodeAll Config.encPolicy B)) s = .next t ∧ t.result = .bytes B ∧
      t.status = { kind := 0#3, pos := 0 })

/-! ## Writer -/

/-- R200: W_OPEN with a block size of 1 to 65535 returns the handle of a new OPEN Writer with an empty buffer and the sink
as it was handed over, and changes no other sink and nothing else; any other block size raises InvalidBlockSize and
creates no instance. (That a handle is a place in the table is log entry 6.) -/
def Obligations.WriterOpens : Prop :=
  ∀ (s : State) (sink : List Byte) (S : Nat),
    (1 ≤ S → S ≤ 65535 →
      ∃ b : BitVec 16, b.toNat = S ∧
        returnsWith (exec (.wOpen sink S) s) s (.handle s.instances.length)
          (s.instances ++ [.writer { state := .opened, block := b, buf := [], sink := sink }])) ∧
    (S < 1 ∨ 65535 < S → raisesOnly (exec (.wOpen sink S) s) s 5#3 0)

/-- R201, R202, R203: W_WRITE on an OPEN Writer completes. With `B` the buffered bytes followed by the bytes written,
every full block of `B` is forwarded as one chunk, in order, and what is left, less than a block, is buffered; no other
instance, no other sink and nothing else changes. The premise on the buffer is the invariant
`Obligations.EveryStepKeepsLegalState`. -/
def Obligations.WriteForwardsFullBlocks : Prop :=
  ∀ (s : State) (h : Nat) (data : List Byte) (w : WriterInst), s.instances[h]? = some (.writer w) → w.state = .opened →
    w.buf.length < w.block.toNat →
    let B := w.buf ++ data
    let S := w.block.toNat
    movesWriter (exec (.wWrite h data) s) s h { w with
      buf := B.drop (S * (B.length / S))
      sink := w.sink ++ ((List.range (B.length / S)).map
        (fun j => encodeChunk Config.encPolicy ((B.drop (S * j)).take S))).flatten }

/-- R204: W_FLUSH on an OPEN Writer completes: it forwards the partial block if there is one, empties the buffer and
stays OPEN; flushing an empty buffer forwards nothing. -/
def Obligations.FlushForwardsPartialBlock : Prop :=
  ∀ (s : State) (h : Nat) (w : WriterInst), s.instances[h]? = some (.writer w) → w.state = .opened →
    (w.buf = [] → movesWriter (exec (.wFlush h) s) s h w) ∧
    (w.buf ≠ [] → movesWriter (exec (.wFlush h) s) s h
      { w with buf := [], sink := w.sink ++ encodeChunk Config.encPolicy w.buf })

/-- R205, R206: W_CLOSE completes on every Writer: an OPEN one forwards its partial block if there is one, releases the
buffer and becomes CLOSED; closing a CLOSED one writes STATUS and does nothing. -/
def Obligations.CloseForwardsAndReleases : Prop :=
  ∀ (s : State) (h : Nat) (w : WriterInst), s.instances[h]? = some (.writer w) →
    (w.state = .opened → w.buf = [] → movesWriter (exec (.wClose h) s) s h { w with state := .closed }) ∧
    (w.state = .opened → w.buf ≠ [] → movesWriter (exec (.wClose h) s) s h
      { w with state := .closed, buf := [], sink := w.sink ++ encodeChunk Config.encPolicy w.buf }) ∧
    (w.state = .closed → returnsWith (exec (.wClose h) s) s .ok s.instances)

/-- R201, R204, R207, R234: after close every W_WRITE and W_FLUSH raises StreamClosed and changes nothing else. -/
def Obligations.ClosedWriterRaisesStreamClosed : Prop :=
  ∀ (s : State) (h : Nat) (data : List Byte) (w : WriterInst), s.instances[h]? = some (.writer w) → w.state = .closed →
    raisesOnly (exec (.wWrite h data) s) s 4#3 0 ∧ raisesOnly (exec (.wFlush h) s) s 4#3 0

/-- R208: streaming equals block. Whatever pieces an input is written in, after W_CLOSE the sink holds what it held
followed by the chunks of the input's consecutive `S`-byte blocks; DECODE of those bytes gives the input, and for
`S = 65535` they are ENCODE of the input. (That the handle is the next place in the table is log entry 6.) -/
def Obligations.StreamingEqualsBlock : Prop :=
  ∀ (s : State) (sink : List Byte) (S : Nat) (pieces : List (List Byte)), 1 ≤ S → S ≤ 65535 →
    let h := s.instances.length
    let B := pieces.flatten
    let E := ((List.range ((B.length + (S - 1)) / S)).map
      (fun j => encodeChunk Config.encPolicy ((B.drop (S * j)).take S))).flatten
    ∃ rs t, operates s (.wOpen sink S :: pieces.map (Instr.wWrite h) ++ [.wClose h]) rs t ∧
      sinkOf t h = some (sink ++ E) ∧
      (∀ g, g ≠ h → sinkOf t g = sinkOf s g) ∧ t.releasedSinks = s.releasedSinks ∧
      decodeAll E = .ok B ∧
      (S = 65535 → E = encodeAll Config.encPolicy B)

/-! ## Reader -/

/-- R210: R_OPEN returns the handle of a new OPEN Reader that has pulled nothing, and changes nothing else. (That a handle
is a place in the table is log entry 6.) -/
def Obligations.ReaderOpens : Prop :=
  ∀ (s : State) (src : List Byte),
    returnsWith (exec (.rOpen src) s) s (.handle s.instances.length)
      (s.instances ++ [.reader { state := .opened, buf := [], pos := 0, srcPos := 0, err := 0#3, src := src }])

/-- R211, R212, R214, R217, R218, R216: R_READ where no chunk is fetched. CLOSED raises StreamClosed and ERROR raises
its error again, both changing nothing else; EOF returns END; in OPEN, capacity 0 returns 0 bytes, an undrained buffer
serves `min(k, len(R_BUF) − R_POS)` bytes, and a drained one at the end of the source enters EOF and returns END. -/
def Obligations.ReadServesWithoutFetching : Prop :=
  ∀ (s : State) (h k : Nat) (r : ReaderInst), s.instances[h]? = some (.reader r) →
    (r.state = .closed → raisesOnly (exec (.rRead h k) s) s 4#3 0) ∧
    (r.state = .error → raisesOnly (exec (.rRead h k) s) s r.err 0) ∧
    (r.state = .eof → returnsWith (exec (.rRead h k) s) s .endSignal s.instances) ∧
    (r.state = .opened → k = 0 → returnsWith (exec (.rRead h k) s) s (.bytes []) s.instances) ∧
    (r.state = .opened → 1 ≤ k → r.pos < r.buf.length →
      returnsWith (exec (.rRead h k) s) s (.bytes ((r.buf.drop r.pos).take (min k (r.buf.length - r.pos))))
        (s.instances.set h (.reader { r with pos := r.pos + min k (r.buf.length - r.pos) }))) ∧
    (r.state = .opened → 1 ≤ k → r.pos = r.buf.length → r.srcPos = r.src.length →
      returnsWith (exec (.rRead h k) s) s .endSignal
        (s.instances.set h (.reader { r with state := .eof, buf := [], pos := 0 })))

/-- R211, R213, R215, R216: R_READ with the buffer drained and source left fetches exactly one chunk. A valid one is
served from, at least one byte and at most `k`, and `R_SRC` moves past it; an error is returned with no bytes, and the
Reader enters ERROR with its kind and an empty buffer. No other instance and no sink changes. (The decode unit is left
as `leavesOthersDecode` says, unchanged when it is in the middle of a DECODE: log entries 13 and 14.) -/
def Obligations.ReadFetchesOneChunk : Prop :=
  ∀ (s : State) (h k : Nat) (r : ReaderInst), s.instances[h]? = some (.reader r) → r.state = .opened → 1 ≤ k →
    r.pos = r.buf.length → r.srcPos < r.src.length →
    (∀ chunk next, decodeChunk r.src r.srcPos = .ok (chunk, next) → 1 ≤ chunk.length ∧ r.srcPos < next ∧
      next ≤ r.src.length ∧
      ∃ d c, leavesOthersDecode s d c ∧ exec (.rRead h k) s =
        .next { s with
          status := { kind := 0#3, pos := 0 }, result := .bytes (chunk.take (min k chunk.length)),
          instances := s.instances.set h
            (.reader { r with buf := chunk, pos := min k chunk.length, srcPos := next }),
          decoder := d, freeCount := c }) ∧
    (∀ e, decodeChunk r.src r.srcPos = .error e →
      1 ≤ e.kind.code.toNat ∧ e.kind.code.toNat ≤ 3 ∧
      ∃ d c, leavesOthersDecode s d c ∧ exec (.rRead h k) s =
        .next { s with
          status := { kind := e.kind.code, pos := e.pos }, result := .error e.kind.code e.pos,
          instances := s.instances.set h
            (.reader { r with state := .error, err := e.kind.code, buf := [], pos := 0 }),
          decoder := d, freeCount := c })

/-- R219: R_CLOSE completes on every Reader: from OPEN, EOF or ERROR it releases the buffer and enters CLOSED; closing a
CLOSED one does nothing but write STATUS. -/
def Obligations.ReaderCloses : Prop :=
  ∀ (s : State) (h : Nat) (r : ReaderInst), s.instances[h]? = some (.reader r) →
    (r.state ≠ .closed → returnsWith (exec (.rClose h) s) s .ok
      (s.instances.set h (.reader { r with state := .closed, buf := [], pos := 0, err := 0#3 }))) ∧
    (r.state = .closed → returnsWith (exec (.rClose h) s) s .ok s.instances)

/-- R221: Reader equals decode. Every read of a new Reader with capacities of at least 1 completes. Where DECODE of the
source gives `B`, the bytes served are a beginning of `B`, all of `B` once END is returned, no read returns an error, and
END is returned after at most `len(B)` reads that serve. Where DECODE gives an error, no read returns END, the bytes
served are a beginning of the output of the chunks before the failing one, all of it once an error is returned, and that
error has DECODE's kind. (That the handle is the next place in the table is log entry 6.) -/
def Obligations.ReaderEqualsDecode : Prop :=
  ∀ (s : State) (src : List Byte) (ks : List Nat), (∀ k ∈ ks, 1 ≤ k) →
    let h := s.instances.length
    ∃ rs t, operates s (.rOpen src :: ks.map (Instr.rRead h)) (.handle h :: rs) t ∧
      (∀ B, decodeAll src = .ok B → served rs <+: B ∧ (∀ c p, Result.error c p ∉ rs) ∧
        (Result.endSignal ∈ rs → served rs = B) ∧ (B.length < ks.length → Result.endSignal ∈ rs)) ∧
      (∀ e, decodeAll src = .error e → Result.endSignal ∉ rs ∧
        ∃ P cut, decodeAll (src.take cut) = .ok P ∧ decodeChunk src cut = .error e ∧ served rs <+: P ∧
          (∀ c p, Result.error c p ∈ rs → c = e.kind.code ∧ served rs = P) ∧
          (P.length < ks.length → ∃ p, Result.error e.kind.code p ∈ rs))
end

