-- ==== Sys2Proof/Laws/Bytes.lean ====
section
/-! SUPPORT. Slices and blocks of byte sequences. -/

namespace Sys2Proof.Machine

/-! ## Slices -/

theorem slice_length (s : List Byte) (i j : Nat) : (slice s i j).length = min j s.length - i := by
  simp [slice]

theorem slice_length_of_le {s : List Byte} {i j : Nat} (h : j ≤ s.length) : (slice s i j).length = j - i := by
  rw [slice_length, min_eq_left h]

/-- `s[i..i+k)` is `k` bytes from `i`. -/
theorem slice_add (s : List Byte) (i k : Nat) : slice s i (i + k) = (s.drop i).take k := by
  unfold slice
  rw [List.drop_take]
  congr 1
  omega

theorem slice_eq (s : List Byte) (i j : Nat) : slice s i j = (s.drop i).take (j - i) := by
  unfold slice
  rw [List.drop_take]

@[simp] theorem slice_self (s : List Byte) (i : Nat) : slice s i i = [] := by
  simp [slice_eq]

theorem slice_append_slice {s : List Byte} {i j k : Nat} (hij : i ≤ j) (hjk : j ≤ k) :
    slice s i j ++ slice s j k = slice s i k := by
  simp only [slice_eq]
  obtain ⟨a, rfl⟩ := Nat.exists_eq_add_of_le hij
  obtain ⟨b, rfl⟩ := Nat.exists_eq_add_of_le hjk
  rw [show i + a - i = a by omega, show i + a + b - (i + a) = b by omega, show i + a + b - i = a + b by omega,
    List.take_add, List.drop_drop]

theorem slice_getElem? {s : List Byte} {i j m : Nat} (h : i + m < j) : (slice s i j)[m]? = s[i + m]? := by
  rw [slice_eq, List.getElem?_take_of_lt (by omega), List.getElem?_drop]

/-- Two slices of `k` bytes are equal when they agree byte by byte. -/
theorem slice_eq_slice_iff {s : List Byte} {a b k : Nat} (ha : a + k ≤ s.length) (hb : b + k ≤ s.length) :
    slice s a (a + k) = slice s b (b + k) ↔ ∀ i, i < k → s.getD (a + i) 0#8 = s.getD (b + i) 0#8 := by
  constructor
  · intro h i hi
    have h' : (slice s a (a + k))[i]? = (slice s b (b + k))[i]? := by rw [h]
    rw [slice_getElem? (by omega), slice_getElem? (by omega)] at h'
    simp [List.getD_eq_getElem?_getD, h']
  · intro h
    apply List.ext_getElem?
    intro i
    by_cases hi : i < k
    · rw [slice_getElem? (by omega), slice_getElem? (by omega)]
      have := h i hi
      rw [List.getD_eq_getElem?_getD, List.getD_eq_getElem?_getD,
        List.getElem?_eq_getElem (by omega), List.getElem?_eq_getElem (by omega)] at this
      rw [List.getElem?_eq_getElem (by omega), List.getElem?_eq_getElem (by omega)]
      simpa using this
    · rw [List.getElem?_eq_none, List.getElem?_eq_none]
      · rw [slice_length_of_le hb]; omega
      · rw [slice_length_of_le ha]; omega

/-- Bytes at `k` and later of a sequence that has `a` in front are those of the rest. -/
theorem slice_append_right (a b : List Byte) (i j : Nat) :
    slice (a ++ b) (a.length + i) (a.length + j) = slice b i j := by
  simp only [slice_eq]
  rw [List.drop_append, show a.length + i - a.length = i by omega,
    List.drop_eq_nil_of_le (by omega), List.nil_append]
  congr 1
  omega

/-- A slice of the front is a slice of the whole. -/
theorem slice_append_left {a : List Byte} (b : List Byte) {i j : Nat} (h : j ≤ a.length) :
    slice (a ++ b) i j = slice a i j := by
  unfold slice
  rw [List.take_append_of_le_length h]

/-! ## Blocks -/

/-- More steps than there are bytes change nothing. -/
theorem blocksUpTo_eq {k : Nat} (hk : 1 ≤ k) :
    ∀ (f : Nat) (s : List Byte), s.length ≤ f → blocksUpTo f k s = blocksUpTo s.length k s := by
  intro f
  induction f using Nat.strong_induction_on with
  | _ f ih =>
    intro s hs
    match s, f with
    | [], 0 => rfl
    | [], f + 1 => rfl
    | b :: rest, 0 => simp at hs
    | b :: rest, f + 1 =>
      have hd : ((b :: rest).drop k).length ≤ rest.length := by simp; omega
      show (b :: rest).take k :: blocksUpTo f k ((b :: rest).drop k) =
        (b :: rest).take k :: blocksUpTo rest.length k ((b :: rest).drop k)
      simp only [List.length_cons] at hs
      congr 1
      rw [ih f (by omega) _ (by omega)]
      by_cases hr : rest.length < f + 1
      · rw [ih rest.length hr _ hd]
      · omega

@[simp] theorem blocks_nil (k : Nat) : blocks k [] = [] := rfl

/-- The first block and the blocks of the rest. -/
theorem blocks_cons {k : Nat} (hk : 1 ≤ k) {s : List Byte} (hs : s ≠ []) :
    blocks k s = s.take k :: blocks k (s.drop k) := by
  obtain ⟨b, rest, rfl⟩ := List.exists_cons_of_ne_nil hs
  show (b :: rest).take k :: blocksUpTo rest.length k ((b :: rest).drop k) = _
  rw [blocksUpTo_eq hk _ _ (by simp; omega)]
  rfl

/-- Induction over the blocks of a sequence. -/
theorem blocks_induction {k : Nat} (hk : 1 ≤ k) {P : List Byte → Prop} (nil : P [])
    (cons : ∀ s, s ≠ [] → P (s.drop k) → P s) (s : List Byte) : P s := by
  induction hn : s.length using Nat.strong_induction_on generalizing s with
  | _ n ih =>
    by_cases hs : s = []
    · subst hs; exact nil
    · refine cons s hs (ih (s.drop k).length ?_ _ rfl)
      have := List.length_pos_iff.mpr hs
      simp; omega

/-- The blocks in order are the sequence. -/
theorem blocks_flatten {k : Nat} (hk : 1 ≤ k) (s : List Byte) : (blocks k s).flatten = s := by
  induction s using blocks_induction hk with
  | nil => rfl
  | cons s hs ih => rw [blocks_cons hk hs, List.flatten_cons, ih, List.take_append_drop]

/-- Every block has 1 to `k` bytes. -/
theorem blocks_length {k : Nat} (hk : 1 ≤ k) (s : List Byte) : ∀ b ∈ blocks k s, 1 ≤ b.length ∧ b.length ≤ k := by
  induction s using blocks_induction hk with
  | nil => simp
  | cons s hs ih =>
    rw [blocks_cons hk hs]
    have := List.length_pos_iff.mpr hs
    rintro b (_ | ⟨_, hb⟩)
    · simp; omega
    · exact ih b hb

/-- Full blocks in front do not disturb the blocks behind them. -/
theorem blocks_append {k : Nat} (hk : 1 ≤ k) (a b : List Byte) (h : k ∣ a.length) :
    blocks k (a ++ b) = blocks k a ++ blocks k b := by
  induction a using blocks_induction hk with
  | nil => simp
  | cons a ha ih =>
    have hpos := List.length_pos_iff.mpr ha
    have hle : k ≤ a.length := Nat.le_of_dvd hpos h
    rw [blocks_cons hk (by simp [ha]), blocks_cons hk ha, List.take_append_of_le_length hle,
      List.drop_append_of_le_length hle, ih (by simpa using Nat.dvd_sub h (dvd_refl k)), List.cons_append]

/-- Block `j` covers the bytes from `k·j`: there are `ceil(len / k)` blocks. -/
theorem blocks_eq_map_range {k : Nat} (hk : 1 ≤ k) (s : List Byte) :
    blocks k s = (List.range ((s.length + (k - 1)) / k)).map fun j => (s.drop (k * j)).take k := by
  induction s using blocks_induction hk with
  | nil => simp [Nat.div_eq_of_lt (show k - 1 < k by omega)]
  | cons s hs ih =>
    have hpos := List.length_pos_iff.mpr hs
    have hdiv : (s.length + (k - 1)) / k = ((s.drop k).length + (k - 1)) / k + 1 := by
      rw [List.length_drop]
      by_cases hle : k ≤ s.length
      · rw [show s.length + (k - 1) = s.length - k + (k - 1) + k by omega, Nat.add_div_right _ (by omega)]
      · rw [show s.length - k = 0 by omega, Nat.zero_add, Nat.div_eq_of_lt (show k - 1 < k by omega)]
        exact Nat.div_eq_of_lt_le (by omega) (by omega)
    rw [blocks_cons hk hs, ih, hdiv, List.range_succ_eq_map, List.map_cons, List.map_map]
    simp only [Nat.mul_zero, List.drop_zero]
    congr 1
    apply List.map_congr_left
    intro j _
    simp only [Function.comp_apply, List.drop_drop, Nat.mul_succ]
    rw [Nat.add_comm]

end Sys2Proof.Machine
end

