-- ==== Sys2Proof/Laws/Encoding.lean ====
section
/-! SUPPORT. Bit fields as arithmetic, and how the encodings of 30_encoding.md read back. -/

namespace Sys2Proof

/-! ## Bit fields as arithmetic -/

/-- An appended bit vector's value: the high part times the low part's range, plus the low part. -/
theorem append_toNat {a b : Nat} (x : BitVec a) (y : BitVec b) : (x ++ y).toNat = x.toNat * 2 ^ b + y.toNat := by
  rw [BitVec.toNat_append, Nat.shiftLeft_eq, ← Nat.shiftLeft_eq, ← Nat.shiftLeft_add_eq_or_of_lt y.isLt]

theorem u16be_toNat (hi lo : Byte) : (u16be hi lo).toNat = hi.toNat * 256 + lo.toNat := append_toNat hi lo

theorem offsetField_toNat (ctrl lo : Byte) : (offsetField ctrl lo).toNat = ctrl.toNat % 32 * 256 + lo.toNat := by
  unfold offsetField
  rw [append_toNat]
  simp

theorem formBits_toNat (ctrl : Byte) : (formBits ctrl).toNat = ctrl.toNat / 32 := by
  have := ctrl.isLt
  simp [formBits, Nat.shiftRight_eq_div_pow]
  omega

theorem controlByte_toNat (form : BitVec 3) (o : BitVec 13) :
    (controlByte form o).toNat = form.toNat * 32 + o.toNat / 256 := by
  have := o.isLt
  unfold controlByte
  rw [append_toNat]
  simp [Nat.shiftRight_eq_div_pow]
  omega

theorem be16_toNat (v : BitVec 16) : (be16 v).map BitVec.toNat = [v.toNat / 256, v.toNat % 256] := by
  have := v.isLt
  simp [be16, Nat.shiftRight_eq_div_pow]
  omega

/-! ## Fields read back what was assembled -/

@[simp] theorem u16be_be16 (v : BitVec 16) : u16be (v.extractLsb' 8 8) (v.extractLsb' 0 8) = v := by
  have := v.isLt
  apply BitVec.eq_of_toNat_eq
  rw [u16be_toNat]
  simp [Nat.shiftRight_eq_div_pow]
  omega

@[simp] theorem formBits_controlByte (form : BitVec 3) (o : BitVec 13) : formBits (controlByte form o) = form := by
  have := o.isLt
  have := form.isLt
  apply BitVec.eq_of_toNat_eq
  rw [formBits_toNat, controlByte_toNat]
  omega

@[simp] theorem offsetField_controlByte (form : BitVec 3) (o : BitVec 13) :
    offsetField (controlByte form o) (o.extractLsb' 0 8) = o := by
  have := o.isLt
  have := form.isLt
  apply BitVec.eq_of_toNat_eq
  rw [offsetField_toNat, controlByte_toNat]
  simp
  omega

/-- A control byte is its form bits and its offset part. -/
theorem controlByte_formBits (ctrl lo : Byte) : controlByte (formBits ctrl) (offsetField ctrl lo) = ctrl := by
  have := ctrl.isLt
  have := lo.isLt
  apply BitVec.eq_of_toNat_eq
  rw [controlByte_toNat, formBits_toNat, offsetField_toNat]
  omega

theorem offsetField_low (ctrl lo : Byte) : (offsetField ctrl lo).extractLsb' 0 8 = lo := by
  have := lo.isLt
  apply BitVec.eq_of_toNat_eq
  rw [BitVec.extractLsb'_toNat, offsetField_toNat]
  simp
  omega

/-! ## Legal fields -/

theorem litLegal_iff {bytes : List Byte} : litLegal bytes = true ↔ 1 ≤ bytes.length ∧ bytes.length ≤ 32 := by
  rw [litLegal, Bool.and_eq_true, decide_eq_true_eq, decide_eq_true_eq]
  exact Iff.rfl

theorem refSLegal_iff {l : BitVec 3} : refSLegal l = true ↔ l ≠ 0#3 ∧ l ≠ 7#3 := by
  simp [refSLegal]

theorem lit_wf_iff {bytes : List Byte} : (Instr.lit bytes).wf = true ↔ 1 ≤ bytes.length ∧ bytes.length ≤ 32 :=
  litLegal_iff

/-! ## Sizes -/

theorem TokenForm.size_pos (f : TokenForm) : 1 ≤ f.size := by
  cases f <;> simp [TokenForm.size]

theorem encodeToken_length (f : TokenForm) : (encodeToken f).length = f.size := by
  cases f <;> simp [encodeToken, TokenForm.size, Nat.add_comm]

@[simp] theorem headerBytes_length (h : HeaderForm) : (headerBytes h).length = h.size := by
  cases h <;> rfl

theorem headerBytes_ne_nil (h : HeaderForm) : headerBytes h ≠ [] := by
  cases h <;> simp [headerBytes]

/-- `writeHeader` gives a well-formed header's bytes and refuses every other. -/
theorem writeHeader_of_wf {h : HeaderForm} (hwf : h.instr.wf = true) : writeHeader h = some (headerBytes h) := by
  simp [writeHeader, hwf]

theorem writeHeader_of_not_wf {h : HeaderForm} (hwf : h.instr.wf = false) : writeHeader h = none := by
  simp [writeHeader, hwf]

theorem hdrRaw_wf_iff {n : BitVec 16} : (HeaderForm.raw n).instr.wf = true ↔ 1 ≤ n.toNat := by
  simp only [HeaderForm.instr, Instr.wf, originalLegal, decide_eq_true_eq, ne_eq, ← BitVec.toNat_inj, BitVec.toNat_ofNat]
  omega

theorem hdrComp_wf_iff {n m : BitVec 16} :
    (HeaderForm.comp n m).instr.wf = true ↔ 1 ≤ n.toNat ∧ 1 ≤ m.toNat ∧ m.toNat ≤ n.toNat := by
  simp only [HeaderForm.instr, Instr.wf, originalLegal, compressedLegal, Bool.and_eq_true, decide_eq_true_eq, ne_eq,
    ← BitVec.toNat_inj, BitVec.toNat_ofNat]
  omega

/-! ## Headers -/

/-- A header reads back, whatever follows it. -/
theorem decodeHeader_headerBytes (h : HeaderForm) (rest : List Byte) :
    decodeHeader (headerBytes h ++ rest) = .ok h := by
  cases h with
  | raw n => simp [headerBytes, be16, decodeHeader]
  | comp n m => simp [headerBytes, be16, decodeHeader, Config.typeComp, Config.typeRaw]

/-! ## Tokens -/

/-- A literal run reads back, whatever follows it. -/
theorem decodeToken_lit {bytes : List Byte} (h1 : 1 ≤ bytes.length) (h32 : bytes.length ≤ 32) (rest : List Byte) :
    decodeToken (BitVec.ofNat 8 (bytes.length - 1) :: (bytes ++ rest)) = .ok (.lit bytes) := by
  have hctrl : (BitVec.ofNat 8 (bytes.length - 1)).toNat = bytes.length - 1 := by
    simp; omega
  have hform : formBits (BitVec.ofNat 8 (bytes.length - 1)) = 0#3 := by
    apply BitVec.eq_of_toNat_eq
    rw [formBits_toNat, hctrl]
    simp; omega
  have hk : ((BitVec.ofNat 8 (bytes.length - 1)).extractLsb' 0 5).toNat + 1 = bytes.length := by
    rw [BitVec.extractLsb'_toNat, hctrl]
    simp; omega
  simp only [decodeToken, hform, hk, if_true]
  rw [if_neg (by simp)]
  simp

/-- A well-formed token reads back, whatever follows it in its payload. -/
theorem decodeToken_encodeToken (f : TokenForm) (rest : List Byte) (h : f.instr.wf = true) :
    decodeToken (encodeToken f ++ rest) = .ok f := by
  cases f with
  | lit bytes =>
    obtain ⟨h1, h32⟩ := lit_wf_iff.mp h
    exact decodeToken_lit h1 h32 rest
  | refS l o =>
    obtain ⟨h0, h7⟩ := refSLegal_iff.mp h
    simp [encodeToken, decodeToken, h0, h7]
  | refL e o =>
    simp [encodeToken, decodeToken]

/-- What a control byte and the bytes after it decode to. -/
theorem decodeToken_cons (ctrl : Byte) (rest : List Byte) :
    decodeToken (ctrl :: rest) =
      if ctrl.toNat / 32 = 0 then
        if rest.length < ctrl.toNat % 32 + 1 then .error .tokenCut
        else .ok (.lit (rest.take (ctrl.toNat % 32 + 1)))
      else if ctrl.toNat / 32 = 7 then
        match rest with
        | e :: lo :: _ => .ok (.refL e (offsetField ctrl lo))
        | _ => .error .tokenCut
      else
        match rest with
        | lo :: _ => .ok (.refS (formBits ctrl) (offsetField ctrl lo))
        | [] => .error .tokenCut := by
  have h0 : formBits ctrl = 0#3 ↔ ctrl.toNat / 32 = 0 := by
    rw [← formBits_toNat, ← BitVec.toNat_inj]; rfl
  have h7 : formBits ctrl = 7#3 ↔ ctrl.toNat / 32 = 7 := by
    rw [← formBits_toNat, ← BitVec.toNat_inj]; rfl
  have hk : (ctrl.extractLsb' 0 5).toNat = ctrl.toNat % 32 := by simp
  simp only [decodeToken, h0, h7, hk] <;> rfl

/-- The only reason a token does not decode is that the payload's end cuts it. -/
theorem decodeToken_error {bytes : List Byte} {r : Reject} (h : decodeToken bytes = .error r) : r = .tokenCut := by
  cases bytes with
  | nil => simpa [decodeToken] using h.symm
  | cons ctrl rest =>
    rw [decodeToken_cons] at h
    split at h
    · split at h <;> simp_all
    · split at h <;> (split at h <;> simp_all)

/-- A decoded token is well formed, and its bytes are its encoding. -/
theorem decodeToken_ok {bytes : List Byte} {f : TokenForm} (h : decodeToken bytes = .ok f) :
    f.instr.wf = true ∧ f.size ≤ bytes.length ∧ encodeToken f = bytes.take f.size := by
  cases bytes with
  | nil => simp [decodeToken] at h
  | cons ctrl rest =>
    have hlt := ctrl.isLt
    rw [decodeToken_cons] at h
    split at h
    · rename_i h0
      split at h
      · exact absurd h (by simp)
      · rename_i hlen
        obtain rfl := Except.ok.inj h
        have hl : (rest.take (ctrl.toNat % 32 + 1)).length = ctrl.toNat % 32 + 1 := by simp; omega
        have hwf : (Instr.lit (rest.take (ctrl.toNat % 32 + 1))).wf = true := lit_wf_iff.mpr (by omega)
        have hsize : (TokenForm.lit (rest.take (ctrl.toNat % 32 + 1))).size = ctrl.toNat % 32 + 1 + 1 := by
          simp only [TokenForm.size, hl]; omega
        refine ⟨hwf, by rw [hsize]; simp; omega, ?_⟩
        rw [hsize, List.take_succ_cons]
        simp only [encodeToken, hl]
        congr 1
        apply BitVec.eq_of_toNat_eq
        simp; omega
    · rename_i h0
      split at h
      · rename_i h7
        split at h
        · rename_i e lo more
          obtain rfl := Except.ok.inj h
          have h7' : formBits ctrl = 7#3 := by
            apply BitVec.eq_of_toNat_eq; rw [formBits_toNat, h7]; rfl
          refine ⟨rfl, by simp [TokenForm.size], ?_⟩
          simp only [encodeToken, TokenForm.size, offsetField_low, List.take_succ_cons, List.take_zero]
          rw [← h7', controlByte_formBits]
        · exact absurd h (by simp)
      · rename_i h7
        split at h
        · rename_i lo more
          obtain rfl := Except.ok.inj h
          refine ⟨refSLegal_iff.mpr ⟨?_, ?_⟩, by simp [TokenForm.size], ?_⟩
          · intro hc; apply h0; rw [← formBits_toNat, hc]; rfl
          · intro hc; apply h7; rw [← formBits_toNat, hc]; rfl
          · simp only [encodeToken, TokenForm.size, offsetField_low, List.take_succ_cons, List.take_zero,
              controlByte_formBits]
        · exact absurd h (by simp)

end Sys2Proof
end

