-- ==== Sys2Proof/Laws/Decoder.lean ====
section
/-! SUPPORT. The chunk decoder's shared operations, one specification each: the copy engine, one token, the token
loop, one header, one chunk, the chunk loop. -/

namespace Sys2Proof.Machine

/-! ## The copy engine -/

@[simp] theorem copyBytes_length (off len : Nat) (w : List Byte) : (copyBytes off len w).length = w.length + len := by
  induction len generalizing w with
  | zero => rfl
  | succ len ih => simp [copyBytes, ih]; omega

/-- A copy only appends. -/
theorem copyBytes_prefix (off len : Nat) (w : List Byte) : w <+: copyBytes off len w := by
  induction len generalizing w with
  | zero => exact List.prefix_refl w
  | succ len ih => exact (List.prefix_append w _).trans (ih _)

theorem winRead_take {S : List Byte} {p off : Nat} (hp : p ≤ S.length) (h1 : 1 ≤ off) (hoff : off ≤ p) :
    winRead (S.take p) off = S.getD (p - off) 0#8 := by
  unfold winRead
  rw [List.length_take, min_eq_left hp, List.getD_eq_getElem?_getD, List.getD_eq_getElem?_getD,
    List.getElem?_take_of_lt (by omega)]

/-- Where the bytes at `p` repeat those `off` back, a copy into a window that holds `S` up to `p` goes on with `S`. -/
theorem copyBytes_replays {S : List Byte} {off : Nat} (h1 : 1 ≤ off) (len p : Nat) (hoff : off ≤ p)
    (hlen : p + len ≤ S.length) (h : ∀ i, i < len → S.getD (p - off + i) 0#8 = S.getD (p + i) 0#8) :
    copyBytes off len (S.take p) = S.take (p + len) := by
  induction len generalizing p with
  | zero => rfl
  | succ len ih =>
    have hb : winRead (S.take p) off = S[p]'(by omega) := by
      rw [winRead_take (by omega) h1 hoff]
      have := h 0 (by omega)
      simp only [Nat.add_zero] at this
      rw [this, List.getD_eq_getElem?_getD, List.getElem?_eq_getElem (by omega), Option.getD_some]
    rw [copyBytes, hb, List.take_append_getElem (by omega), ih (p + 1) (by omega) (by omega)]
    · congr 1; omega
    · intro i hi
      have := h (i + 1) (by omega)
      rw [show p + 1 - off + i = p - off + (i + 1) by omega, show p + 1 + i = p + (i + 1) by omega]
      exact this

/-! ## One token -/

theorem tokenEmit_length (t : Tok) (w : List Byte) : (tokenEmit t w).length = w.length + t.count := by
  cases t <;> simp [tokenEmit, Tok.count]

/-- A token's checks pass exactly when its bytes lie in the payload, its offset in the window and its output in
originalLength (R178). -/
theorem tokenCheck_none_iff {t : Tok} {size tp pe op n : Nat} :
    tokenCheck t size tp pe op n = none ↔
      tp + size ≤ pe ∧ op + t.count ≤ n ∧ ∀ off len, t = .ref off len → off ≤ op := by
  unfold tokenCheck
  split
  · simp; omega
  · cases t with
    | run s => simp [Tok.count]; omega
    | ref off len =>
      simp only [Tok.count]
      split
      · simp; omega
      · split
        · simp; omega
        · simp; omega

/-- A token that runs moves `tp` past its bytes and emits its output. -/
theorem runToken_ok {t : Tok} {size pe n tp : Nat} {w : List Byte} {tp' : Nat} {w' : List Byte}
    (h : runToken t size pe n tp w = .ok (tp', w')) :
    tp' = tp + size ∧ w' = tokenEmit t w ∧ tp + size ≤ pe ∧ w.length + t.count ≤ n := by
  unfold runToken at h
  split at h
  · exact absurd h (by simp)
  · rename_i hc
    simp only [Except.ok.injEq, Prod.mk.injEq] at h
    exact ⟨h.1.symm, h.2.symm, (tokenCheck_none_iff.mp hc).1, (tokenCheck_none_iff.mp hc).2.1⟩

/-- A token that fails raises at its own position a kind a DECODE may raise. -/
theorem runToken_error {t : Tok} {size pe n tp : Nat} {w : List Byte} {e : Raise}
    (h : runToken t size pe n tp w = .error e) :
    tokenCheck t size tp pe w.length n = some e.kind ∧ e.pos = tp := by
  unfold runToken at h
  split at h
  · simp only [Except.error.injEq] at h
    subst h
    exact ⟨by assumption, rfl⟩
  · exact absurd h (by simp)

/-- The kinds a token or header raises are MalformedChunk, TruncatedInput and InvalidBackreference (R230). -/
abbrev decodeKind (k : ErrorKind) : Prop := 1 ≤ k.code.toNat ∧ k.code.toNat ≤ 3

theorem tokenCheck_kind {t : Tok} {size tp pe op n : Nat} {k : ErrorKind}
    (h : tokenCheck t size tp pe op n = some k) : decodeKind k := by
  unfold tokenCheck at h
  repeat' split at h
  all_goals (cases h <;> decide)

/-! ## The token loop -/

/-- Error positions counted from further on. -/
def shiftError {α : Type} (k : Nat) : Except Raise α → Except Raise α
  | .ok a => .ok a
  | .error e => .error { kind := e.kind, pos := k + e.pos }

@[simp] theorem shiftError_ok {α : Type} (k : Nat) (a : α) : shiftError k (.ok a : Except Raise α) = .ok a := rfl

@[simp] theorem shiftError_error {α : Type} (k : Nat) (e : Raise) :
    shiftError k (.error e : Except Raise α) = .error { kind := e.kind, pos := k + e.pos } := rfl

/-- The token loop with as many steps as there are payload bytes left. -/
def tokensAt (inp : List Byte) (pe n tp : Nat) (w : List Byte) : Except Raise (List Byte) :=
  decodeTokensFrom inp pe n (pe - tp) tp w

theorem decodeTokens_eq (inp : List Byte) (ps pe n : Nat) : decodeTokens inp ps pe n = tokensAt inp pe n ps [] := rfl

/-- The loop's bound is never what stops it: any two bounds of at least the payload bytes left agree. -/
theorem decodeTokensFrom_fuel {inp : List Byte} {pe n : Nat} (f g tp : Nat) (w : List Byte) (hf : pe ≤ tp + f)
    (hg : pe ≤ tp + g) : decodeTokensFrom inp pe n f tp w = decodeTokensFrom inp pe n g tp w := by
  induction f generalizing g tp w with
  | zero =>
    cases g with
    | zero => rfl
    | succ g => simp [decodeTokensFrom, show ¬ tp < pe by omega]
  | succ f ih =>
    cases g with
    | zero => simp [decodeTokensFrom, show ¬ tp < pe by omega]
    | succ g =>
      simp only [decodeTokensFrom]
      split
      · split
        · rfl
        · rename_i form _
          split
          · rfl
          · rename_i hrun
            obtain ⟨rfl, -⟩ := runToken_ok hrun
            have := form.size_pos
            exact ih g _ _ (by omega) (by omega)
      · rfl

/-- At the payload's end the loop ends (R185). -/
theorem tokensAt_end {inp : List Byte} {pe n tp : Nat} {w : List Byte} (h : pe ≤ tp) :
    tokensAt inp pe n tp w = endTokens n tp w := by
  simp [tokensAt, show pe - tp = 0 by omega, decodeTokensFrom]

/-- Before it, the loop runs one token and goes on (R174). -/
theorem tokensAt_step {inp : List Byte} {pe n tp : Nat} {w : List Byte} (h : tp < pe) :
    tokensAt inp pe n tp w =
      match decodeToken (slice inp tp pe) with
      | .error r => .error { kind := rejectKind r, pos := tp }
      | .ok form =>
        match runToken (tokOf form) form.size pe n tp w with
        | .error e => .error e
        | .ok (tp', w') => tokensAt inp pe n tp' w' := by
  rw [tokensAt, show pe - tp = (pe - tp - 1) + 1 by omega]
  simp only [decodeTokensFrom, if_pos h]
  cases decodeToken (slice inp tp pe) with
  | error r => rfl
  | ok form =>
    cases hrun : runToken (tokOf form) form.size pe n tp w with
    | error e => simp only [hrun]
    | ok q =>
      obtain ⟨tp', w'⟩ := q
      obtain ⟨rfl, -⟩ := runToken_ok hrun
      have := form.size_pos
      simp only [hrun]
      exact decodeTokensFrom_fuel _ _ _ _ (by omega) (by omega)

/-- Induction over the token loop: at the payload's end, and at a token from every later position. -/
theorem tokens_induction {P : Nat → List Byte → Prop} {pe : Nat}
    (finish : ∀ tp w, pe ≤ tp → P tp w)
    (token : ∀ tp w, tp < pe → (∀ tp' w', tp < tp' → P tp' w') → P tp w) (tp : Nat) (w : List Byte) : P tp w := by
  induction hn : pe - tp using Nat.strong_induction_on generalizing tp w with
  | _ n ih =>
    by_cases h : tp < pe
    · exact token tp w h fun tp' w' ht => ih (pe - tp') (by omega) tp' w' rfl
    · exact finish tp w (by omega)

/-- A token stream that ends well has produced exactly originalLength bytes (R175, R185). -/
theorem tokensAt_ok_length {inp : List Byte} {pe n : Nat} (tp : Nat) (w : List Byte) {out : List Byte}
    (h : tokensAt inp pe n tp w = .ok out) : out.length = n := by
  induction tp, w using tokens_induction (pe := pe) with
  | finish tp w hle =>
    rw [tokensAt_end hle, endTokens] at h
    split at h
    · simp only [Except.ok.injEq] at h; subst h; assumption
    · exact absurd h (by simp)
  | token tp w hlt ih =>
    rw [tokensAt_step hlt] at h
    split at h
    · exact absurd h (by simp)
    · rename_i form _
      split at h
      · exact absurd h (by simp)
      · rename_i hrun
        obtain ⟨rfl, -⟩ := runToken_ok hrun
        have := form.size_pos
        exact ih _ _ (by omega) h

/-- A token stream raises only the kinds a DECODE may raise. -/
theorem tokensAt_error_kind {inp : List Byte} {pe n : Nat} (tp : Nat) (w : List Byte) {e : Raise}
    (h : tokensAt inp pe n tp w = .error e) : decodeKind e.kind := by
  induction tp, w using tokens_induction (pe := pe) with
  | finish tp w hle =>
    rw [tokensAt_end hle, endTokens] at h
    split at h
    · exact absurd h (by simp)
    · simp only [Except.error.injEq] at h
      subst h
      show decodeKind .malformedChunk
      decide
  | token tp w hlt ih =>
    rw [tokensAt_step hlt] at h
    split at h
    · rename_i r hr
      obtain rfl := decodeToken_error hr
      simp only [Except.error.injEq] at h
      subst h
      show decodeKind .malformedChunk
      decide
    · rename_i form _
      split at h
      · rename_i hrun
        simp only [Except.error.injEq] at h; subst h
        exact tokenCheck_kind (runToken_error hrun).1
      · rename_i hrun
        obtain ⟨rfl, -⟩ := runToken_ok hrun
        have := form.size_pos
        exact ih _ _ (by omega) h

theorem tokenCheck_shift (k : Nat) (t : Tok) (size tp pe op n : Nat) :
    tokenCheck t size (k + tp) (k + pe) op n = tokenCheck t size tp pe op n := by
  unfold tokenCheck
  by_cases h : pe < tp + size
  · rw [if_pos h, if_pos (by omega)]
  · rw [if_neg h, if_neg (by omega)]

/-- A token stream behind other bytes runs as it does alone, its positions counted from further on (R109). -/
theorem tokensAt_append_right (a b : List Byte) {pe n : Nat} (tp : Nat) (w : List Byte) :
    tokensAt (a ++ b) (a.length + pe) n (a.length + tp) w = shiftError a.length (tokensAt b pe n tp w) := by
  induction tp, w using tokens_induction (pe := pe) with
  | finish tp w hle =>
    rw [tokensAt_end hle, tokensAt_end (by omega)]
    unfold endTokens
    split <;> rfl
  | token tp w hlt ih =>
    rw [tokensAt_step hlt, tokensAt_step (by omega), slice_append_right]
    cases decodeToken (slice b tp pe) with
    | error r => rfl
    | ok form =>
      have := form.size_pos
      simp only [runToken, tokenCheck_shift]
      cases tokenCheck (tokOf form) form.size tp pe w.length n with
      | some k => rfl
      | none =>
        simp only [Nat.add_assoc]
        exact ih _ _ (by omega)

/-- A token stream reads nothing behind its payload (R109, R179). -/
theorem tokensAt_append_left {a : List Byte} (b : List Byte) {pe n : Nat} (hpe : pe ≤ a.length) (tp : Nat)
    (w : List Byte) : tokensAt (a ++ b) pe n tp w = tokensAt a pe n tp w := by
  induction tp, w using tokens_induction (pe := pe) with
  | finish tp w hle => rw [tokensAt_end hle, tokensAt_end hle]
  | token tp w hlt ih =>
    rw [tokensAt_step hlt, tokensAt_step hlt, slice_append_left b hpe]
    split
    · rfl
    · rename_i form _
      split
      · rfl
      · rename_i hrun
        obtain ⟨rfl, -⟩ := runToken_ok hrun
        have := form.size_pos
        exact ih _ _ (by omega)

end Sys2Proof.Machine
end

