-- ==== Sys2Proof/Laws/Chunks.lean ====
section
/-! SUPPORT. Chunk headers, whole chunks and the chunk loop of DECODE: what a success says, and that chunks are
self-contained (40_chunk_format.md R109). -/

namespace Sys2Proof.Machine

/-! ## Headers -/

/-- A header that decodes goes on decoding to the same header with more bytes behind. -/
theorem decodeHeader_append {a : List Byte} {h : HeaderForm} (hd : decodeHeader a = .ok h) (b : List Byte) :
    decodeHeader (a ++ b) = .ok h := by
  match a with
  | [] => simp [decodeHeader] at hd
  | [_] => simp [decodeHeader] at hd
  | m0 :: m1 :: rest =>
    simp only [decodeHeader, List.cons_append] at hd ⊢
    split at hd
    · rename_i hm
      rw [if_pos hm]
      match rest with
      | [] => simp at hd
      | ty :: fields =>
        simp only [List.cons_append] at hd ⊢
        split at hd
        · rename_i ht
          rw [if_pos ht]
          match fields with
          | [] => simp at hd
          | [_] => simp at hd
          | _ :: _ :: _ => simpa using hd
        · rename_i ht
          rw [if_neg ht]
          split at hd
          · rename_i ht'
            rw [if_pos ht']
            match fields with
            | [] => simp at hd
            | [_] => simp at hd
            | [_, _] => simp at hd
            | [_, _, _] => simp at hd
            | _ :: _ :: _ :: _ :: _ => simpa using hd
          · exact absurd hd (by simp)
    · exact absurd hd (by simp)

/-- A header that decodes with more bytes behind decodes without them, when its own bytes are there. -/
theorem decodeHeader_of_append {a b : List Byte} {h : HeaderForm} (hd : decodeHeader (a ++ b) = .ok h)
    (hlen : h.size ≤ a.length) : decodeHeader a = .ok h := by
  have h5 : 5 ≤ h.size := by cases h <;> simp [HeaderForm.size]
  match a with
  | [] => simp at hlen; omega
  | [_] => simp at hlen; omega
  | [_, _] => simp at hlen; omega
  | m0 :: m1 :: ty :: fields =>
    simp only [decodeHeader, List.cons_append] at hd ⊢
    split at hd
    · rename_i hm
      rw [if_pos hm]
      split at hd
      · rename_i ht
        rw [if_pos ht]
        match fields with
        | [] => simp at hlen; omega
        | [_] => simp at hlen; omega
        | _ :: _ :: _ => simpa using hd
      · rename_i ht
        rw [if_neg ht]
        split at hd
        · rename_i ht'
          rw [if_pos ht']
          split at hd
          · rename_i heq
            obtain rfl := Except.ok.inj hd
            match fields with
            | [] => simp [HeaderForm.size] at hlen
            | [_] => simp [HeaderForm.size] at hlen
            | [_, _] => simp [HeaderForm.size] at hlen
            | [_, _, _] => simp [HeaderForm.size] at hlen
            | n1 :: n0 :: c1 :: c0 :: _ =>
              simp only [List.cons_append, List.cons.injEq] at heq
              obtain ⟨rfl, rfl, rfl, rfl, -⟩ := heq
              rfl
          · exact absurd hd (by simp)
        · exact absurd hd (by simp)
    · exact absurd hd (by simp)

/-- A rejected header raises only kinds a DECODE may raise. -/
theorem decodeHeader_error_kind {a : List Byte} {r : Reject} (h : decodeHeader a = .error r) :
    decodeKind (rejectKind r) := by
  unfold decodeHeader at h
  repeat' split at h
  all_goals (cases h <;> decide)

/-- What a header that passes steps 5 to 8 says about its lengths (R103, R105). -/
theorem headerCheck_none {h : HeaderForm} {rem : Nat} (hc : headerCheck h rem = none) :
    h.size + h.payloadLen ≤ rem ∧ 1 ≤ h.payloadLen ∧ h.payloadLen ≤ h.original.toNat ∧ 1 ≤ h.original.toNat := by
  unfold headerCheck at hc
  split at hc
  · exact absurd hc (by simp)
  · split at hc
    · exact absurd hc (by simp)
    · rename_i hs hn
      have hn' : 1 ≤ h.original.toNat := by
        have : h.original.toNat ≠ 0 := fun h0 => hn (BitVec.eq_of_toNat_eq h0)
        omega
      cases h with
      | raw n =>
        simp only at hc
        split at hc
        · exact absurd hc (by simp)
        · simp only [HeaderForm.original, HeaderForm.payloadLen] at *; omega
      | comp n m =>
        simp only at hc
        split at hc
        · exact absurd hc (by simp)
        · rename_i hm
          rw [not_or] at hm
          have hm' : m.toNat ≠ 0 := fun h0 => hm.1 (BitVec.eq_of_toNat_eq h0)
          split at hc
          · exact absurd hc (by simp)
          · simp only [HeaderForm.original, HeaderForm.payloadLen] at *; omega

/-- A well-formed header with its payload present passes (R103). -/
theorem headerCheck_of_wf {h : HeaderForm} {rem : Nat} (hwf : h.instr.wf = true) (hrem : h.size + h.payloadLen ≤ rem) :
    headerCheck h rem = none := by
  unfold headerCheck
  rw [if_neg (by omega)]
  cases h with
  | raw n =>
    have hn : n ≠ 0#16 := by simpa [HeaderForm.instr, Instr.wf, originalLegal] using hwf
    rw [if_neg (show HeaderForm.original (.raw n) ≠ 0#16 from hn)]
    exact if_neg (by omega)
  | comp n m =>
    have hw : n ≠ 0#16 ∧ m ≠ 0#16 ∧ m.toNat ≤ n.toNat := by
      simpa [HeaderForm.instr, Instr.wf, originalLegal, compressedLegal] using hwf
    rw [if_neg (show HeaderForm.original (.comp n m) ≠ 0#16 from hw.1)]
    dsimp only
    rw [if_neg (by simp only [not_or]; exact ⟨hw.2.1, by omega⟩), if_neg (by omega)]

theorem headerCheck_kind {h : HeaderForm} {rem : Nat} {k : ErrorKind} (hc : headerCheck h rem = some k) :
    decodeKind k := by
  unfold headerCheck at hc
  repeat' split at hc
  all_goals (cases hc <;> decide)

/-- Steps 5 to 8 that pass go on passing with more bytes behind. -/
theorem headerCheck_more {h : HeaderForm} {rem : Nat} (hc : headerCheck h rem = none) (k : Nat) :
    headerCheck h (rem + k) = none := by
  unfold headerCheck at hc ⊢
  split at hc
  · exact absurd hc (by simp)
  · rw [if_neg (by omega)]
    split at hc
    · exact absurd hc (by simp)
    · rename_i hn
      rw [if_neg hn]
      cases h with
      | raw n =>
        simp only at hc ⊢
        split at hc
        · exact absurd hc (by simp)
        · rw [if_neg (by omega)]
      | comp n m =>
        simp only at hc ⊢
        split at hc
        · exact absurd hc (by simp)
        · rename_i hm
          rw [if_neg hm]
          split at hc
          · exact absurd hc (by simp)
          · rw [if_neg (by omega)]

/-- `parseHeader` succeeds exactly when the header decodes and passes steps 5 to 8. -/
theorem parseHeader_ok_iff {B : List Byte} {pos : Nat} {h : HeaderForm} :
    parseHeader B pos = .ok h ↔ decodeHeader (B.drop pos) = .ok h ∧ headerCheck h (B.length - pos) = none := by
  unfold parseHeader
  cases decodeHeader (B.drop pos) with
  | error r => simp
  | ok h' =>
    cases hc : headerCheck h' (B.length - pos) with
    | some k =>
      simp only [hc, reduceCtorEq, false_iff, Except.ok.injEq, not_and]
      rintro rfl; simp [hc]
    | none =>
      simp only [hc, Except.ok.injEq]
      exact ⟨fun he => ⟨he, he ▸ hc⟩, fun he => he.1⟩

theorem parseHeader_error_kind {B : List Byte} {pos : Nat} {e : Raise} (h : parseHeader B pos = .error e) :
    decodeKind e.kind ∧ e.pos = pos := by
  unfold parseHeader at h
  split at h
  · rename_i hr
    simp only [Except.error.injEq] at h
    subst h
    exact ⟨decodeHeader_error_kind hr, rfl⟩
  · split at h
    · rename_i hc
      simp only [Except.error.injEq] at h
      subst h
      exact ⟨headerCheck_kind hc, rfl⟩
    · exact absurd h (by simp)

/-- A header behind other bytes parses as it does alone (R109). -/
theorem parseHeader_append_right (a b : List Byte) (pos : Nat) :
    parseHeader (a ++ b) (a.length + pos) = shiftError a.length (parseHeader b pos) := by
  unfold parseHeader
  rw [List.drop_append, List.drop_eq_nil_of_le (by omega), List.nil_append,
    show a.length + pos - a.length = pos by omega,
    show (a ++ b).length - (a.length + pos) = b.length - pos by simp; omega]
  cases decodeHeader (b.drop pos) with
  | error r => rfl
  | ok h => dsimp only; cases headerCheck h (b.length - pos) <;> rfl

/-- A header that parses goes on parsing with more bytes behind. -/
theorem parseHeader_append_left {a : List Byte} {pos : Nat} {h : HeaderForm} (hp : parseHeader a pos = .ok h)
    (b : List Byte) : parseHeader (a ++ b) pos = .ok h := by
  rw [parseHeader_ok_iff] at hp ⊢
  obtain ⟨hd, hc⟩ := hp
  have hlen := (headerCheck_none hc)
  have hs : 1 ≤ h.size := by cases h <;> simp [HeaderForm.size]
  refine ⟨?_, ?_⟩
  · rw [List.drop_append_of_le_length (by omega)]
    exact decodeHeader_append hd b
  · rw [show (a ++ b).length - pos = a.length - pos + b.length by simp; omega]
    exact headerCheck_more hc _

/-! ## One chunk -/

/-- What a chunk that decodes says: where it ends, and how many bytes it gives (R108, R172, R175). -/
theorem decodeChunk_ok {B : List Byte} {pos : Nat} {chunk : List Byte} {next : Nat}
    (h : decodeChunk B pos = .ok (chunk, next)) :
    ∃ hd, parseHeader B pos = .ok hd ∧ chunkOutput B (pos + hd.size) hd = .ok chunk ∧
      next = pos + hd.size + hd.payloadLen ∧ pos < next ∧ next ≤ B.length ∧ 1 ≤ chunk.length ∧ chunk.length ≤ 65535 := by
  unfold decodeChunk at h
  split at h
  · exact absurd h (by simp)
  · rename_i hd hp
    split at h
    · exact absurd h (by simp)
    · rename_i out ho
      simp only [Except.ok.injEq, Prod.mk.injEq] at h
      obtain ⟨rfl, rfl⟩ := h
      obtain ⟨hlen, hpay, horig, hn⟩ := headerCheck_none (parseHeader_ok_iff.mp hp).2
      have hs : 1 ≤ hd.size := by cases hd <;> simp [HeaderForm.size]
      have hout : out.length = hd.original.toNat := by
        cases hd with
        | raw n =>
          simp only [chunkOutput, Except.ok.injEq] at ho
          simp only [HeaderForm.payloadLen] at hlen
          rw [← ho, slice_length_of_le (by omega)]
          simp [HeaderForm.original]
        | comp n m =>
          simp only [chunkOutput, decodeTokens_eq] at ho
          exact tokensAt_ok_length _ _ ho
      have := hd.original.isLt
      exact ⟨hd, hp, ho, rfl, by omega, by omega, by omega, by omega⟩

theorem decodeChunk_error_kind {B : List Byte} {pos : Nat} {e : Raise} (h : decodeChunk B pos = .error e) :
    decodeKind e.kind := by
  unfold decodeChunk at h
  split at h
  · rename_i hp
    simp only [Except.error.injEq] at h
    subst h
    exact (parseHeader_error_kind hp).1
  · rename_i hd _
    split at h
    · rename_i ho
      simp only [Except.error.injEq] at h
      subst h
      cases hd with
      | raw n => simp [chunkOutput] at ho
      | comp n m => exact tokensAt_error_kind _ _ ho
    · exact absurd h (by simp)

/-- A position and output counted from further on. -/
def shiftChunk (k : Nat) : Except Raise (List Byte × Nat) → Except Raise (List Byte × Nat)
  | .ok (chunk, next) => .ok (chunk, k + next)
  | .error e => .error { kind := e.kind, pos := k + e.pos }

/-- A chunk behind other bytes decodes as it does alone (R109). -/
theorem decodeChunk_append_right (a b : List Byte) (pos : Nat) :
    decodeChunk (a ++ b) (a.length + pos) = shiftChunk a.length (decodeChunk b pos) := by
  unfold decodeChunk
  rw [parseHeader_append_right]
  cases parseHeader b pos with
  | error e => rfl
  | ok h =>
    have hout : chunkOutput (a ++ b) (a.length + pos + h.size) h =
        shiftError a.length (chunkOutput b (pos + h.size) h) := by
      cases h with
      | raw n => simp only [chunkOutput, Nat.add_assoc, slice_append_right, shiftError_ok]
      | comp n m => simp only [chunkOutput, decodeTokens_eq, Nat.add_assoc, tokensAt_append_right]
    simp only [shiftError_ok, hout]
    cases chunkOutput b (pos + h.size) h with
    | error e => rfl
    | ok out => simp [shiftChunk, Nat.add_assoc]

/-- A chunk that decodes reads nothing behind its payload (R109). -/
theorem decodeChunk_append_left {a : List Byte} {pos : Nat} {chunk : List Byte} {next : Nat}
    (h : decodeChunk a pos = .ok (chunk, next)) (b : List Byte) : decodeChunk (a ++ b) pos = .ok (chunk, next) := by
  obtain ⟨hd, hp, ho, rfl, -, hle, -, -⟩ := decodeChunk_ok h
  unfold decodeChunk
  rw [parseHeader_append_left hp]
  have : chunkOutput (a ++ b) (pos + hd.size) hd = .ok chunk := by
    rw [← ho]
    cases hd with
    | raw n => simp only [chunkOutput, slice_append_left b (show pos + HeaderForm.size _ + n.toNat ≤ _ from hle)]
    | comp n m => exact tokensAt_append_left b hle _ _
  simp only [this]

/-- A chunk that decodes with more bytes behind its payload decodes without them (R109). -/
theorem decodeChunk_of_append {a b : List Byte} {pos : Nat} {chunk : List Byte} {next : Nat}
    (h : decodeChunk (a ++ b) pos = .ok (chunk, next)) (hn : next ≤ a.length) : decodeChunk a pos = .ok (chunk, next) := by
  obtain ⟨hd, hp, ho, rfl, hlt, -, -, -⟩ := decodeChunk_ok h
  obtain ⟨hdec, hc⟩ := parseHeader_ok_iff.mp hp
  have hdec' : decodeHeader (a.drop pos) = .ok hd := by
    rw [List.drop_append_of_le_length (by omega)] at hdec
    exact decodeHeader_of_append hdec (by simp; omega)
  have hc' : headerCheck hd (a.length - pos) = none := by
    unfold headerCheck at hc ⊢
    split at hc
    · exact absurd hc (by simp)
    · rw [if_neg (by omega)]
      split at hc
      · exact absurd hc (by simp)
      · rename_i h0
        rw [if_neg h0]
        cases hd with
        | raw n =>
          dsimp only
          rw [if_neg (by omega)]
        | comp n m =>
          simp only at hc ⊢
          split at hc
          · exact absurd hc (by simp)
          · rename_i hm
            rw [if_neg hm, if_neg (by omega)]
  have hp' : parseHeader a pos = .ok hd := parseHeader_ok_iff.mpr ⟨hdec', hc'⟩
  unfold decodeChunk
  rw [hp']
  have : chunkOutput a (pos + hd.size) hd = .ok chunk := by
    rw [← ho]
    cases hd with
    | raw n => simp only [chunkOutput, slice_append_left b (show pos + HeaderForm.size _ + n.toNat ≤ _ from hn)]
    | comp n m => exact (tokensAt_append_left b hn _ _).symm
  simp only [this]

/-! ## The chunk loop -/

/-- Output in front of a result. -/
def prependOk (out : List Byte) : Except Raise (List Byte) → Except Raise (List Byte)
  | .ok rest => .ok (out ++ rest)
  | .error e => .error e

@[simp] theorem prependOk_nil (r : Except Raise (List Byte)) : prependOk [] r = r := by
  cases r <;> rfl

theorem prependOk_prependOk (x y : List Byte) (r : Except Raise (List Byte)) :
    prependOk x (prependOk y r) = prependOk (x ++ y) r := by
  cases r <;> simp [prependOk]

/-- The output so far only stands in front of what follows. -/
theorem decodeFrom_out (inp : List Byte) (f cp : Nat) (out : List Byte) :
    decodeFrom inp f cp out = prependOk out (decodeFrom inp f cp []) := by
  induction f generalizing cp out with
  | zero => simp [decodeFrom, prependOk]
  | succ f ih =>
    simp only [decodeFrom]
    split
    · cases decodeChunk inp cp with
      | error e => rfl
      | ok q =>
        obtain ⟨chunk, next⟩ := q
        simp only [List.nil_append]
        rw [ih next (out ++ chunk), ih next chunk, prependOk_prependOk]
    · simp [prependOk]

/-- The loop's bound is never what stops it. -/
theorem decodeFrom_fuel {inp : List Byte} (f g cp : Nat) (out : List Byte) (hf : inp.length ≤ cp + f)
    (hg : inp.length ≤ cp + g) : decodeFrom inp f cp out = decodeFrom inp g cp out := by
  induction f generalizing g cp out with
  | zero =>
    cases g with
    | zero => rfl
    | succ g => simp [decodeFrom, show ¬ cp < inp.length by omega]
  | succ f ih =>
    cases g with
    | zero => simp [decodeFrom, show ¬ cp < inp.length by omega]
    | succ g =>
      simp only [decodeFrom]
      split
      · cases hc : decodeChunk inp cp with
        | error e => rfl
        | ok q =>
          obtain ⟨chunk, next⟩ := q
          obtain ⟨_, -, -, -, hlt, -⟩ := decodeChunk_ok hc
          exact ih g _ _ (by omega) (by omega)
      · rfl

/-- DECODE from a chunk boundary, positions counted from the input's start. -/
def decodeRest (inp : List Byte) (cp : Nat) : Except Raise (List Byte) := decodeFrom inp (inp.length - cp) cp []

theorem decodeAll_eq (inp : List Byte) : decodeAll inp = decodeRest inp 0 := rfl

theorem decodeRest_end {inp : List Byte} {cp : Nat} (h : inp.length ≤ cp) : decodeRest inp cp = .ok [] := by
  simp [decodeRest, show inp.length - cp = 0 by omega, decodeFrom]

/-- Before the input's end the loop decodes one chunk and goes on (R170). -/
theorem decodeRest_step {inp : List Byte} {cp : Nat} (h : cp < inp.length) :
    decodeRest inp cp =
      match decodeChunk inp cp with
      | .error e => .error e
      | .ok (chunk, next) => prependOk chunk (decodeRest inp next) := by
  rw [decodeRest, show inp.length - cp = (inp.length - cp - 1) + 1 by omega]
  simp only [decodeFrom, if_pos h]
  cases hc : decodeChunk inp cp with
  | error e => rfl
  | ok q =>
    obtain ⟨chunk, next⟩ := q
    obtain ⟨_, -, -, -, hlt, -⟩ := decodeChunk_ok hc
    simp only [List.nil_append]
    rw [decodeFrom_out, decodeFrom_fuel _ (inp.length - next) _ _ (by omega) (by omega)]
    rfl

/-- Induction over the chunk loop: at the input's end, and at a chunk from every later position. -/
theorem chunks_induction {P : Nat → Prop} {n : Nat} (finish : ∀ cp, n ≤ cp → P cp)
    (chunk : ∀ cp, cp < n → (∀ next, cp < next → P next) → P cp) (cp : Nat) : P cp := by
  induction hn : n - cp using Nat.strong_induction_on generalizing cp with
  | _ m ih =>
    by_cases h : cp < n
    · exact chunk cp h fun next ht => ih (n - next) (by omega) next rfl
    · exact finish cp (by omega)

/-- DECODE behind other bytes, from a chunk boundary (R109). -/
theorem decodeRest_append_right (a b : List Byte) (cp : Nat) :
    decodeRest (a ++ b) (a.length + cp) = shiftError a.length (decodeRest b cp) := by
  induction cp using chunks_induction (n := b.length) with
  | finish cp h => rw [decodeRest_end (by simp; omega), decodeRest_end h]; rfl
  | chunk cp h ih =>
    rw [decodeRest_step (by simp; omega), decodeRest_step h, decodeChunk_append_right]
    cases hc : decodeChunk b cp with
    | error e => rfl
    | ok q =>
      obtain ⟨chunk, next⟩ := q
      obtain ⟨_, -, -, -, hlt, -⟩ := decodeChunk_ok hc
      simp only [shiftChunk]
      rw [ih next hlt]
      cases decodeRest b next <;> rfl

/-- After a valid encoded buffer DECODE goes on with what follows (R109). -/
theorem decodeRest_append_left {a x : List Byte} (b : List Byte) {cp : Nat} (hcp : cp ≤ a.length)
    (h : decodeRest a cp = .ok x) : decodeRest (a ++ b) cp = prependOk x (decodeRest (a ++ b) a.length) := by
  induction cp using chunks_induction (n := a.length) generalizing x with
  | finish cp hle =>
    rw [decodeRest_end hle] at h
    obtain rfl := Except.ok.inj h
    rw [show cp = a.length by omega, prependOk_nil]
  | chunk cp hlt ih =>
    rw [decodeRest_step hlt] at h
    cases hc : decodeChunk a cp with
    | error e => simp [hc] at h
    | ok q =>
      obtain ⟨chunk, next⟩ := q
      obtain ⟨_, -, -, -, hltn, hle, -⟩ := decodeChunk_ok hc
      simp only [hc] at h
      rw [decodeRest_step (by simp; omega), decodeChunk_append_left hc]
      cases hr : decodeRest a next with
      | error e => simp [hr, prependOk] at h
      | ok y =>
        simp only [hr, prependOk, Except.ok.injEq] at h
        subst h
        simp only
        rw [ih next hltn hle hr, prependOk_prependOk]

/-- DECODE from a chunk boundary is DECODE of the bytes from there, positions counted from further on. -/
theorem decodeRest_eq_decodeAll {inp : List Byte} {cp : Nat} (h : cp ≤ inp.length) :
    decodeRest inp cp = shiftError cp (decodeAll (inp.drop cp)) := by
  have := decodeRest_append_right (inp.take cp) (inp.drop cp) 0
  rwa [List.take_append_drop, List.length_take, min_eq_left h, Nat.add_zero] at this

theorem decodeRest_error_kind {inp : List Byte} (cp : Nat) {e : Raise} (h : decodeRest inp cp = .error e) :
    decodeKind e.kind := by
  induction cp using chunks_induction (n := inp.length) with
  | finish cp hle => rw [decodeRest_end hle] at h; exact absurd h (by simp)
  | chunk cp hlt ih =>
    rw [decodeRest_step hlt] at h
    cases hc : decodeChunk inp cp with
    | error e' =>
      simp only [hc] at h
      simp only [Except.error.injEq] at h
      subst h
      exact decodeChunk_error_kind hc
    | ok q =>
      obtain ⟨chunk, next⟩ := q
      obtain ⟨_, -, -, -, hltn, -⟩ := decodeChunk_ok hc
      simp only [hc] at h
      cases hr : decodeRest inp next with
      | ok y => simp [hr, prependOk] at h
      | error e' =>
        simp only [hr, prependOk, Except.error.injEq] at h
        subst h
        exact ih next hltn hr

end Sys2Proof.Machine
end

