-- ==== Sys2Proof/Laws/Tables.lean ====
section
/-! SUPPORT. Tables keyed by a number keep their canonical form and read back what was put, and the
hash table with them. -/

namespace Sys2Proof.Machine

variable {α : Type}

/-! ## Tables -/

theorem tableRises_mono {t : List (Nat × α)} {lo lo' : Nat} (hl : lo' ≤ lo) (h : tableRises lo t = true) :
    tableRises lo' t = true := by
  cases t with
  | nil => rfl
  | cons e rest =>
    simp only [tableRises, Bool.and_eq_true, decide_eq_true_eq] at h ⊢
    exact ⟨by omega, h.2⟩

/-- Below every key nothing is listed. -/
theorem tableGet_of_lt {t : List (Nat × α)} {lo k : Nat} (h : tableRises lo t = true) (hk : k < lo) :
    tableGet t k = none := by
  cases t with
  | nil => rfl
  | cons e rest =>
    simp only [tableRises, Bool.and_eq_true, decide_eq_true_eq] at h
    simp only [tableGet]
    rw [if_neg (by omega), if_pos (by omega)]

/-- Putting keeps the keys rising. -/
theorem tablePut_rises {t : List (Nat × α)} {lo k : Nat} (v : α) (h : tableRises lo t = true) (hk : lo ≤ k) :
    tableRises lo (tablePut t k v) = true := by
  induction t generalizing lo with
  | nil => simp [tablePut, tableRises, hk]
  | cons e rest ih =>
    obtain ⟨k', v'⟩ := e
    simp only [tableRises, Bool.and_eq_true, decide_eq_true_eq] at h
    simp only [tablePut]
    split
    · subst k; simp [tableRises, hk, h.2]
    · split
      · simp only [tableRises, Bool.and_eq_true, decide_eq_true_eq]
        exact ⟨hk, by omega, h.2⟩
      · simp only [tableRises, Bool.and_eq_true, decide_eq_true_eq]
        exact ⟨h.1, ih h.2 (by omega)⟩

/-- Read after put. -/
theorem tableGet_put {t : List (Nat × α)} {lo : Nat} (h : tableRises lo t = true) (k j : Nat) (v : α) :
    tableGet (tablePut t k v) j = if j = k then some v else tableGet t j := by
  induction t generalizing lo with
  | nil =>
    simp only [tablePut, tableGet]
    split <;> simp
  | cons e rest ih =>
    obtain ⟨k', v'⟩ := e
    simp only [tableRises, Bool.and_eq_true, decide_eq_true_eq] at h
    simp only [tablePut]
    split
    · subst k
      simp only [tableGet]
      split <;> simp
    · split
      · simp only [tableGet]
        by_cases hj : j = k
        · simp [hj]
        · rw [if_neg hj, if_neg hj]
          by_cases hjk : j < k
          · rw [if_pos hjk, if_neg (by omega), if_pos (by omega)]
          · rw [if_neg hjk]
      · simp only [tableGet]
        rw [ih h.2]
        by_cases hj : j = k
        · subst hj
          simp_all
        · simp [hj]

/-- What is listed after a put was put or was listed before. -/
theorem mem_tablePut {t : List (Nat × α)} {k : Nat} {v : α} {e : Nat × α} (h : e ∈ tablePut t k v) :
    e = (k, v) ∨ e ∈ t := by
  induction t with
  | nil => simpa [tablePut] using h
  | cons d rest ih =>
    obtain ⟨k', v'⟩ := d
    simp only [tablePut] at h
    split at h
    · rcases List.mem_cons.mp h with h | h
      · exact .inl h
      · exact .inr (List.mem_cons_of_mem _ h)
    · split at h
      · rcases List.mem_cons.mp h with h | h
        · exact .inl h
        · exact .inr h
      · rcases List.mem_cons.mp h with h | h
        · exact .inr (h ▸ List.mem_cons_self)
        · rcases ih h with h | h
          · exact .inl h
          · exact .inr (List.mem_cons_of_mem _ h)

/-- A value that is read is listed. -/
theorem mem_of_tableGet {t : List (Nat × α)} {k : Nat} {v : α} (h : tableGet t k = some v) : (k, v) ∈ t := by
  induction t with
  | nil => simp [tableGet] at h
  | cons e rest ih =>
    obtain ⟨k', v'⟩ := e
    simp only [tableGet] at h
    split at h
    · subst k; simp only [Option.some.injEq] at h; simp [h]
    · split at h
      · exact absurd h (by simp)
      · exact List.mem_cons_of_mem _ (ih h)

/-! ## The hash table -/

theorem htWf_iff {t : List (Nat × Nat)} :
    htWf t = true ↔ tableRises 0 t = true ∧ ∀ e ∈ t, e.1 < 2 ^ Config.hashBits ∧ e.2 ≤ 65532 := by
  simp [htWf]

@[simp] theorem htEmpty_wf : htWf htEmpty = true := rfl

@[simp] theorem htGet_empty (i : Nat) : htGet htEmpty i = none := rfl

theorem htSet_wf {t : List (Nat × Nat)} {i p : Nat} (h : htWf t = true) (hi : i < 2 ^ Config.hashBits)
    (hp : p ≤ 65532) : htWf (htSet t i p) = true := by
  rw [htWf_iff] at h ⊢
  refine ⟨tablePut_rises _ h.1 (Nat.zero_le _), fun e he => ?_⟩
  rcases mem_tablePut he with rfl | he
  · exact ⟨hi, hp⟩
  · exact h.2 e he

theorem htGet_set {t : List (Nat × Nat)} (h : tableRises 0 t = true) (i j p : Nat) :
    htGet (htSet t i p) j = if j = i then some p else htGet t j :=
  tableGet_put h i j p

/-- Whatever entries the free value lists, the table left in the encode unit is legal. -/
theorem freeEncodeUnit_table_wf (k : Nat) : htWf (freeEncodeUnit k).table = true := by
  suffices ∀ (l t : List (Nat × Nat)), htWf t = true →
      htWf (l.foldl (fun t e => htSet t (e.1 % 2 ^ Config.hashBits) (e.2 % 65533)) t) = true from
    this _ _ htEmpty_wf
  intro l
  induction l with
  | nil => exact fun t h => h
  | cons e rest ih =>
    exact fun t h => ih _ (htSet_wf h (Nat.mod_lt _ (by decide)) (by omega))

end Sys2Proof.Machine
end

