-- ==== Sys2Proof/Laws/Encoder.lean ====
section
/-! SUPPORT. The match finder and the token encoder: every match is legal, and the tokens of a slice replay it. -/

namespace Sys2Proof.Machine

/-! ## The measure of a candidate -/

/-- The agreeing bytes agree, and lie in both sequences and under the cap. -/
theorem agreeing_spec (cap : Nat) (a b : List Byte) :
    agreeing cap a b ≤ cap ∧ agreeing cap a b ≤ a.length ∧ agreeing cap a b ≤ b.length ∧
      ∀ i, i < agreeing cap a b → a[i]? = b[i]? := by
  induction cap generalizing a b with
  | zero => simp [agreeing]
  | succ cap ih =>
    cases a with
    | nil => simp [agreeing]
    | cons x a =>
      cases b with
      | nil => simp [agreeing]
      | cons y b =>
        simp only [agreeing]
        split
        · rename_i hxy
          obtain ⟨h1, h2, h3, h4⟩ := ih a b
          refine ⟨by omega, by simp; omega, by simp; omega, fun i hi => ?_⟩
          cases i with
          | zero => simp [hxy]
          | succ i => simpa using h4 i (by omega)
        · simp

/-- The agreement ends at the cap, at an end, or at a byte that differs. -/
theorem agreeing_max (cap : Nat) (a b : List Byte) (hc : agreeing cap a b < cap) (ha : agreeing cap a b < a.length)
    (hb : agreeing cap a b < b.length) : a[agreeing cap a b]? ≠ b[agreeing cap a b]? := by
  induction cap generalizing a b with
  | zero => omega
  | succ cap ih =>
    cases a with
    | nil => simp at ha
    | cons x a =>
      cases b with
      | nil => simp at hb
      | cons y b =>
        simp only [agreeing] at *
        split at hc
        · rename_i hxy
          simp only [if_pos hxy, List.length_cons] at ha hb ⊢
          simpa using ih a b (by omega) (by omega) (by omega)
        · rename_i hxy
          simpa [if_neg hxy] using hxy

/-- What a match satisfies (R129), with the bytes spelled out. -/
def MatchOk (S : List Byte) (p off len : Nat) : Prop :=
  1 ≤ off ∧ off ≤ 8192 ∧ 3 ≤ len ∧ len ≤ 264 ∧ p + len ≤ S.length ∧ off ≤ p ∧
    ∀ i, i < len → S.getD (p - off + i) 0#8 = S.getD (p + i) 0#8

theorem matchLegal_iff {S : List Byte} {p off len : Nat} : matchLegal S p off len = true ↔ MatchOk S p off len := by
  simp only [matchLegal, Bool.and_eq_true, decide_eq_true_eq, MatchOk]
  constructor
  · rintro ⟨⟨⟨⟨⟨⟨h1, h2⟩, h3⟩, h4⟩, h5⟩, h6⟩, h7⟩
    exact ⟨h1, h2, h3, h4, h5, h6, (slice_eq_slice_iff (by omega) h5).mp h7⟩
  · rintro ⟨h1, h2, h3, h4, h5, h6, h7⟩
    exact ⟨⟨⟨⟨⟨⟨h1, h2⟩, h3⟩, h4⟩, h5⟩, h6⟩, (slice_eq_slice_iff (by omega) h5).mpr h7⟩

/-- An earlier candidate that is accepted is a legal match (R122, R125). -/
theorem measureAt_ok {S : List Byte} {p c off len : Nat} (hc : c < p) (hp : p + 3 ≤ S.length)
    (h : measureAt S p (some c) = some (off, len)) : MatchOk S p off len := by
  unfold measureAt at h
  dsimp only at h
  split at h
  · exact absurd h (by simp)
  · rename_i hoff
    replace hoff : ¬ 8192 < p - c := hoff
    split at h
    · exact absurd h (by simp)
    · rename_i hfirst
      simp only [ne_eq, Decidable.not_not] at hfirst
      simp only [Option.some.injEq, Prod.mk.injEq] at h
      obtain ⟨rfl, rfl⟩ := h
      obtain ⟨h1, h2, h3, h4⟩ :=
        agreeing_spec (min Config.maxMatch (S.length - p) - 3) (S.drop (c + 3)) (S.drop (p + 3))
      have hmax : Config.maxMatch = 264 := rfl
      simp only [List.length_drop] at h2 h3
      have hfirst' := (slice_eq_slice_iff (by omega) (by omega)).mp hfirst
      refine ⟨by omega, by omega, by omega, by omega, by omega, by omega, fun i hi => ?_⟩
      rw [show p - (p - c) + i = c + i by omega]
      by_cases hi3 : i < 3
      · exact hfirst' i hi3
      · have := h4 (i - 3) (by omega)
        rw [List.getElem?_drop, List.getElem?_drop, show c + 3 + (i - 3) = c + i by omega,
          show p + 3 + (i - 3) = p + i by omega] at this
        rw [List.getD_eq_getElem?_getD, List.getD_eq_getElem?_getD, this]

/-! ## One position of the scan -/

/-- Every position in the table was scanned before `p` (R123). -/
def HtBelow (ht : List (Nat × Nat)) (p : Nat) : Prop :=
  tableRises 0 ht = true ∧ ∀ i c, htGet ht i = some c → c < p

theorem HtBelow.mono {ht : List (Nat × Nat)} {p q : Nat} (h : HtBelow ht p) (hpq : p ≤ q) : HtBelow ht q :=
  ⟨h.1, fun i c hc => by have := h.2 i c hc; omega⟩

theorem htBelow_empty (p : Nat) : HtBelow htEmpty p := ⟨rfl, fun i c h => by simp at h⟩

/-- Whichever finder runs, its match is legal and its table goes on holding scanned positions only. -/
theorem find_ok {policy : Config.EncPolicy} {ht ht' : List (Nat × Nat)} {S : List Byte} {p : Nat}
    {r : Option (Nat × Nat)} (hb : HtBelow ht p) (hp : p + 3 ≤ S.length) (h : find policy ht S p = (r, ht')) :
    HtBelow ht' (p + 1) ∧ ∀ off len, r = some (off, len) → MatchOk S p off len := by
  cases policy with
  | reference =>
    simp only [find, matchAt, Prod.mk.injEq] at h
    obtain ⟨rfl, rfl⟩ := h
    refine ⟨⟨tablePut_rises _ hb.1 (Nat.zero_le _), fun i c hc => ?_⟩, fun off len hm => ?_⟩
    · rw [htGet_set hb.1] at hc
      split at hc
      · simp only [Option.some.injEq] at hc; omega
      · have := hb.2 i c hc; omega
    · cases hg : htGet ht (hashAt S p) with
      | none => rw [hg] at hm; simp [measureAt] at hm
      | some c => rw [hg] at hm; exact measureAt_ok (hb.2 _ _ hg) hp hm
  | conformant =>
    simp only [find, Prod.mk.injEq] at h
    obtain ⟨rfl, rfl⟩ := h
    refine ⟨hb.mono (by omega), fun off len hm => ?_⟩
    unfold matchAny at hm
    split at hm
    · exact absurd hm (by simp)
    · split at hm
      · rename_i hl
        simp only [Option.some.injEq, Prod.mk.injEq] at hm
        obtain ⟨rfl, rfl⟩ := hm
        exact matchLegal_iff.mp hl
      · exact absurd hm (by simp)

/-! ## The tokens of a slice replay it -/

/-- From position `q` on, the tokens produce the rest of the slice: each run is 1 to 32 of its bytes, each
backreference a legal match, and together they end at its end (R149, R156). -/
def Replays (S : List Byte) : Nat → List Tok → Prop
  | q, [] => q = S.length
  | q, .run s :: rest =>
    1 ≤ s.length ∧ s.length ≤ 32 ∧ q + s.length ≤ S.length ∧ s = slice S q (q + s.length) ∧ Replays S (q + s.length) rest
  | q, .ref off len :: rest => MatchOk S q off len ∧ Replays S (q + len) rest

/-- Flushed literals replay the pending bytes. -/
theorem replays_flush {S : List Byte} {rest : List Tok} {q p : Nat} (hqp : q ≤ p) (hp : p ≤ S.length)
    (h : Replays S p rest) : Replays S q (flushLiterals (slice S q p) ++ rest) := by
  have key : ∀ (s : List Byte) (q : Nat), q ≤ p → s = slice S q p →
      Replays S q ((blocks Config.maxLit s).map Tok.run ++ rest) := by
    intro s
    induction s using blocks_induction (k := Config.maxLit) (by decide) with
    | nil =>
      intro q hqp hs
      have := congrArg List.length hs
      rw [slice_length_of_le hp] at this
      simp only [List.length_nil] at this
      obtain rfl : q = p := by omega
      exact h
    | cons s hne ih =>
      intro q hqp hs
      have hlen : s.length = p - q := by rw [hs, slice_length_of_le hp]
      have hpos := List.length_pos_iff.mpr hne
      rw [blocks_cons (by decide) hne]
      have htl : (s.take Config.maxLit).length = min 32 (p - q) := by rw [List.length_take, hlen]; rfl
      have hdrop : s.drop Config.maxLit = slice S (q + min 32 (p - q)) p := by
        rw [hs, slice_eq, slice_eq, List.drop_take, List.drop_drop]
        by_cases hle : 32 ≤ p - q
        · rw [min_eq_left hle]
          congr 1
        · rw [min_eq_right (by omega), show p - q - Config.maxLit = 0 by show p - q - 32 = 0; omega,
            show p - (q + (p - q)) = 0 by omega, List.take_zero, List.take_zero]
      have htake : s.take Config.maxLit = slice S q (q + min 32 (p - q)) := by
        rw [hs, slice_eq, slice_add, List.take_take]
        rfl
      refine ⟨by rw [htl]; omega, by rw [htl]; omega, by rw [htl]; omega, by rw [htl]; exact htake, ?_⟩
      rw [htl]
      exact ih _ (by omega) hdrop
  exact key _ _ hqp rfl

/-- The scan loop's tokens replay the slice from its pending literals on. -/
theorem replays_tokenizeFrom (policy : Config.EncPolicy) (S : List Byte) (f : Nat) (ht : List (Nat × Nat))
    (p litStart : Nat) (hb : HtBelow ht p) (hl : litStart ≤ p) (hp : p ≤ S.length) :
    Replays S litStart (tokenizeFrom policy S f ht p litStart) := by
  have finish : Replays S litStart (flushLiterals (slice S litStart S.length)) := by
    have := replays_flush (rest := []) (show litStart ≤ S.length by omega) le_rfl rfl
    simpa using this
  induction f generalizing ht p litStart with
  | zero => exact finish
  | succ f ih =>
    simp only [tokenizeFrom]
    split
    · rename_i h3
      split
      · rename_i ht' hf
        have := (find_ok hb h3 hf).1
        have h3' : p + 3 ≤ S.length := h3
        exact ih ht' (p + 1) litStart this (by omega) (by omega) finish
      · rename_i off len ht' hf
        obtain ⟨hb', hm⟩ := find_ok hb h3 hf
        have hok := hm off len rfl
        obtain ⟨-, -, h3len, -, hend, -, -⟩ := id hok
        refine replays_flush hl hp ⟨hok, ih ht' (p + len) (p + len) (hb'.mono (by omega)) le_rfl hend ?_⟩
        have := replays_flush (rest := []) hend le_rfl rfl
        simpa using this
    · exact finish

/-- The tokens of a slice replay it from its start. -/
theorem replays_tokenize (policy : Config.EncPolicy) (S : List Byte) : Replays S 0 (tokenize policy S) :=
  replays_tokenizeFrom policy S _ _ 0 0 (htBelow_empty 0) le_rfl (Nat.zero_le _)

/-! ## Packed tokens decode -/

/-- A literal run or backreference in range has a well-formed form that says it (R77, R78). -/
theorem formOf_ok {t : Tok}
    (h : match t with
      | .run s => 1 ≤ s.length ∧ s.length ≤ 32
      | .ref off len => 1 ≤ off ∧ off ≤ 8192 ∧ 3 ≤ len ∧ len ≤ 264) :
    (formOf t).instr.wf = true ∧ tokOf (formOf t) = t := by
  cases t with
  | run s => exact ⟨lit_wf_iff.mpr h, rfl⟩
  | ref off len =>
    obtain ⟨h1, h2, h3, h4⟩ := h
    have ho : (BitVec.ofNat 13 (off - 1)).toNat + 1 = off := by simp; omega
    simp only [formOf]
    split
    · have hl : (BitVec.ofNat 3 (len - 2)).toNat = len - 2 := by simp; omega
      refine ⟨refSLegal_iff.mpr ⟨fun hc => ?_, fun hc => ?_⟩, ?_⟩
      · rw [hc] at hl; simp at hl; omega
      · rw [hc] at hl; simp at hl; omega
      · simp only [tokOf, fieldOffset, shortLength, ho, hl]
        congr 1; omega
    · have hl : (BitVec.ofNat 8 (len - 9)).toNat = len - 9 := by simp; omega
      refine ⟨rfl, ?_⟩
      simp only [tokOf, fieldOffset, longLength, ho, hl]
      congr 1; omega

theorem pack_cons (t : Tok) (rest : List Tok) : pack (t :: rest) = encodeToken (formOf t) ++ pack rest := by
  simp [pack]

/-- One packed token at `tp`: it runs, and the loop goes on behind it. -/
theorem tokensAt_packed {t : Tok} {S pre : List Byte} {rest : List Tok} {q n : Nat}
    (hwf : (formOf t).instr.wf = true) (htok : tokOf (formOf t) = t) (hn : q + t.count ≤ n) (hq : q ≤ S.length)
    (hoff : ∀ off len, t = .ref off len → off ≤ q) :
    tokensAt (pre ++ pack (t :: rest)) (pre.length + (pack (t :: rest)).length) n pre.length (S.take q) =
      tokensAt (pre ++ pack (t :: rest)) (pre.length + (pack (t :: rest)).length) n
        (pre.length + (formOf t).size) (tokenEmit t (S.take q)) := by
  have hs := (formOf t).size_pos
  have hlen : (pack (t :: rest)).length = (formOf t).size + (pack rest).length := by
    rw [pack_cons, List.length_append, encodeToken_length]
  rw [tokensAt_step (by omega)]
  have hslice : slice (pre ++ pack (t :: rest)) pre.length (pre.length + (pack (t :: rest)).length) =
      encodeToken (formOf t) ++ pack rest := by
    have := slice_append_right pre (pack (t :: rest)) 0 (pack (t :: rest)).length
    rw [Nat.add_zero] at this
    rw [this, slice_eq, pack_cons]
    simp
  rw [hslice, decodeToken_encodeToken _ _ hwf]
  simp only [htok]
  have hc : tokenCheck t (formOf t).size pre.length (pre.length + (pack (t :: rest)).length) (S.take q).length n = none := by
    rw [List.length_take, min_eq_left hq]
    exact tokenCheck_none_iff.mpr ⟨by omega, hn, hoff⟩
  simp only [runToken, hc]

/-- The packed tokens of a slice decode to it (R156). -/
theorem tokensAt_pack {S : List Byte} (toks : List Tok) (pre : List Byte) (q : Nat) (h : Replays S q toks)
    (hq : q ≤ S.length) :
    tokensAt (pre ++ pack toks) (pre.length + (pack toks).length) S.length pre.length (S.take q) = .ok S := by
  induction toks generalizing pre q with
  | nil =>
    obtain rfl : q = S.length := h
    rw [tokensAt_end (by simp [pack]), endTokens]
    simp
  | cons t rest ih =>
    have hlen : (pack (t :: rest)).length = (formOf t).size + (pack rest).length := by
      rw [pack_cons, List.length_append, encodeToken_length]
    have hmove : ∀ q', Replays S q' rest → q' ≤ S.length →
        tokensAt (pre ++ pack (t :: rest)) (pre.length + (pack (t :: rest)).length) S.length
          (pre.length + (formOf t).size) (S.take q') = .ok S := by
      intro q' hr hq'
      have := ih (pre ++ encodeToken (formOf t)) q' hr hq'
      rwa [List.append_assoc, ← pack_cons, List.length_append, encodeToken_length, Nat.add_assoc, ← hlen] at this
    cases t with
    | run s =>
      obtain ⟨h1, h32, hend, hs, hr⟩ := h
      obtain ⟨hwf, htok⟩ := formOf_ok (t := .run s) ⟨h1, h32⟩
      rw [tokensAt_packed hwf htok hend hq (by simp)]
      have : tokenEmit (.run s) (S.take q) = S.take (q + s.length) := by
        simp only [tokenEmit]
        conv_lhs => rw [hs]
        rw [slice_add, ← List.take_add]
      rw [this]
      exact hmove _ hr hend
    | ref off len =>
      obtain ⟨⟨h1, h2, h3, h4, hend, hoff, hrep⟩, hr⟩ := h
      obtain ⟨hwf, htok⟩ := formOf_ok (t := .ref off len) ⟨h1, h2, h3, h4⟩
      rw [tokensAt_packed hwf htok hend hq (by rintro _ _ ⟨rfl, rfl⟩; exact hoff)]
      have : tokenEmit (.ref off len) (S.take q) = S.take (q + len) :=
        copyBytes_replays h1 len q hoff hend hrep
      rw [this]
      exact hmove _ hr hend

/-! ## Chunks -/

theorem pack_pos {S : List Byte} {toks : List Tok} (h : Replays S 0 toks) (hS : S ≠ []) : 1 ≤ (pack toks).length := by
  cases toks with
  | nil => exact absurd (List.length_eq_zero_iff.mp h.symm) hS
  | cons t rest =>
    rw [pack_cons, List.length_append, encodeToken_length]
    have := (formOf t).size_pos
    omega

/-- A 16-bit length field reads back. -/
theorem lengthField_toNat {k : Nat} (h : k ≤ 65535) : (BitVec.ofNat 16 k).toNat = k := by
  simp; omega

/-- Where `writeHeader` accepts the lengths, a chunk is the header's bytes and the payload. -/
theorem chunkBytes_of_wf {h : HeaderForm} (hwf : h.instr.wf = true) (payload : List Byte) :
    chunkBytes h payload = headerBytes h ++ payload := by
  simp [chunkBytes, writeHeader_of_wf hwf]

/-- The chunk of a slice of 1 to 65535 bytes, once: `writeHeader` accepts its lengths, and it is COMPRESSED exactly when
the payload is strictly shorter than the slice (R143, R153, R154). -/
theorem encodeChunk_cases (policy : Config.EncPolicy) {S : List Byte} (h1 : 1 ≤ S.length) (h2 : S.length ≤ 65535) :
    let payload := pack (tokenize policy S)
    let comp := HeaderForm.comp (BitVec.ofNat 16 S.length) (BitVec.ofNat 16 payload.length)
    let raw := HeaderForm.raw (BitVec.ofNat 16 S.length)
    (payload.length < S.length ∧ comp.instr.wf = true ∧ encodeChunk policy S = headerBytes comp ++ payload) ∨
      (S.length ≤ payload.length ∧ raw.instr.wf = true ∧ encodeChunk policy S = headerBytes raw ++ S) := by
  intro payload comp raw
  have hmax : ¬ Config.maxChunk < S.length := by simpa [Config.maxChunk] using h2
  have hframe : encodeChunk policy S = if payload.length < S.length then chunkBytes comp payload else chunkBytes raw S :=
    if_neg hmax
  by_cases hlt : payload.length < S.length
  · have hpos : 1 ≤ payload.length := pack_pos (replays_tokenize policy S) (List.length_pos_iff.mp h1)
    have hwf : comp.instr.wf = true := by
      rw [hdrComp_wf_iff, lengthField_toNat h2, lengthField_toNat (by omega)]
      omega
    exact .inl ⟨hlt, hwf, by rw [← chunkBytes_of_wf hwf, hframe, if_pos hlt]⟩
  · have hwf : raw.instr.wf = true := by rw [hdrRaw_wf_iff, lengthField_toNat h2]; exact h1
    exact .inr ⟨by omega, hwf, by rw [← chunkBytes_of_wf hwf, hframe, if_neg hlt]⟩

/-- Any other slice gives no bytes, whichever finder ran (log entry 19). -/
theorem encodeChunk_of_illegal (policy : Config.EncPolicy) {S : List Byte} (h : S.length = 0 ∨ 65535 < S.length) :
    encodeChunk policy S = [] := by
  rcases h with h | h
  · obtain rfl := List.length_eq_zero_iff.mp h
    have hnot : (HeaderForm.raw 0#16).instr.wf = false := rfl
    simp [encodeChunk, frame, chunkBytes, writeHeader_of_not_wf hnot]
  · exact if_pos h

/-- The chunk of a slice of 1 to 65535 bytes is never empty. -/
theorem encodeChunk_ne_nil (policy : Config.EncPolicy) {S : List Byte} (h1 : 1 ≤ S.length) (h2 : S.length ≤ 65535) :
    encodeChunk policy S ≠ [] := by
  rcases encodeChunk_cases policy h1 h2 with ⟨-, -, h⟩ | ⟨-, -, h⟩ <;> rw [h] <;>
    exact List.append_ne_nil_of_left_ne_nil (headerBytes_ne_nil _) _

theorem chunkBytes_length_le (h : HeaderForm) (payload : List Byte) :
    (chunkBytes h payload).length ≤ h.size + payload.length := by
  unfold chunkBytes writeHeader
  split
  · rename_i hd
    split at hd
    · cases hd; simp
    · exact absurd hd (by simp)
  · simp

/-- A chunk is at most six bytes longer than its slice (R155). -/
theorem encodeChunk_length (policy : Config.EncPolicy) (S : List Byte) :
    (encodeChunk policy S).length ≤ S.length + 6 := by
  unfold encodeChunk frame
  split
  · simp
  split
  · refine (chunkBytes_length_le _ _).trans ?_
    simp only [HeaderForm.size]; omega
  · refine (chunkBytes_length_le _ _).trans ?_
    simp only [HeaderForm.size]; omega

end Sys2Proof.Machine
end

