-- ==== Sys2Proof/Laws/State.lean ====
section
/-! SUPPORT. One lemma per field of State per shared update, and per register of the units. -/

namespace Sys2Proof.Machine

/-! ## The end of an operation -/

@[simp] theorem State.complete_status (s : State) (r : Result) : (s.complete r).status = .success := rfl

@[simp] theorem State.complete_result (s : State) (r : Result) : (s.complete r).result = r := rfl

@[simp] theorem State.complete_instances (s : State) (r : Result) : (s.complete r).instances = s.instances := rfl

@[simp] theorem State.complete_releasedSinks (s : State) (r : Result) : (s.complete r).releasedSinks = s.releasedSinks := rfl

@[simp] theorem State.complete_decoder (s : State) (r : Result) : (s.complete r).decoder = s.decoder := rfl

@[simp] theorem State.complete_encoder (s : State) (r : Result) : (s.complete r).encoder = s.encoder := rfl

@[simp] theorem State.complete_inputs (s : State) (r : Result) : (s.complete r).inputs = s.inputs := rfl

@[simp] theorem State.complete_freeCount (s : State) (r : Result) : (s.complete r).freeCount = s.freeCount := rfl

@[simp] theorem State.raiseCode_status (s : State) (c : BitVec 3) (p : Nat) : (s.raiseCode c p).status = .failure c p := rfl

@[simp] theorem State.raiseCode_result (s : State) (c : BitVec 3) (p : Nat) : (s.raiseCode c p).result = .error c p := rfl

@[simp] theorem State.raiseCode_instances (s : State) (c : BitVec 3) (p : Nat) : (s.raiseCode c p).instances = s.instances := rfl

@[simp] theorem State.raiseCode_releasedSinks (s : State) (c : BitVec 3) (p : Nat) : (s.raiseCode c p).releasedSinks = s.releasedSinks := rfl

@[simp] theorem State.raiseCode_decoder (s : State) (c : BitVec 3) (p : Nat) : (s.raiseCode c p).decoder = s.decoder := rfl

@[simp] theorem State.raiseCode_encoder (s : State) (c : BitVec 3) (p : Nat) : (s.raiseCode c p).encoder = s.encoder := rfl

@[simp] theorem State.raiseCode_inputs (s : State) (c : BitVec 3) (p : Nat) : (s.raiseCode c p).inputs = s.inputs := rfl

@[simp] theorem State.raiseCode_freeCount (s : State) (c : BitVec 3) (p : Nat) : (s.raiseCode c p).freeCount = s.freeCount := rfl

@[simp] theorem State.raise_status (s : State) (e : Raise) : (s.raise e).status = .failure e.kind.code e.pos := rfl

@[simp] theorem State.raise_result (s : State) (e : Raise) : (s.raise e).result = .error e.kind.code e.pos := rfl

@[simp] theorem State.raise_instances (s : State) (e : Raise) : (s.raise e).instances = s.instances := rfl

@[simp] theorem State.raise_releasedSinks (s : State) (e : Raise) : (s.raise e).releasedSinks = s.releasedSinks := rfl

@[simp] theorem State.raise_decoder (s : State) (e : Raise) : (s.raise e).decoder = s.decoder := rfl

@[simp] theorem State.raise_encoder (s : State) (e : Raise) : (s.raise e).encoder = s.encoder := rfl

@[simp] theorem State.raise_inputs (s : State) (e : Raise) : (s.raise e).inputs = s.inputs := rfl

@[simp] theorem State.raise_freeCount (s : State) (e : Raise) : (s.raise e).freeCount = s.freeCount := rfl

/-! ## Instances -/

@[simp] theorem State.setInst_status (s : State) (h : Nat) (i : Inst) : (s.setInst h i).status = s.status := rfl

@[simp] theorem State.setInst_result (s : State) (h : Nat) (i : Inst) : (s.setInst h i).result = s.result := rfl

@[simp] theorem State.setInst_instances (s : State) (h : Nat) (i : Inst) : (s.setInst h i).instances = s.instances.set h i := rfl

@[simp] theorem State.setInst_releasedSinks (s : State) (h : Nat) (i : Inst) : (s.setInst h i).releasedSinks = s.releasedSinks := rfl

@[simp] theorem State.setInst_decoder (s : State) (h : Nat) (i : Inst) : (s.setInst h i).decoder = s.decoder := rfl

@[simp] theorem State.setInst_encoder (s : State) (h : Nat) (i : Inst) : (s.setInst h i).encoder = s.encoder := rfl

@[simp] theorem State.setInst_inputs (s : State) (h : Nat) (i : Inst) : (s.setInst h i).inputs = s.inputs := rfl

@[simp] theorem State.setInst_freeCount (s : State) (h : Nat) (i : Inst) : (s.setInst h i).freeCount = s.freeCount := rfl

@[simp] theorem State.addInst_status (s : State) (i : Inst) : (s.addInst i).status = s.status := rfl

@[simp] theorem State.addInst_result (s : State) (i : Inst) : (s.addInst i).result = s.result := rfl

@[simp] theorem State.addInst_instances (s : State) (i : Inst) : (s.addInst i).instances = s.instances ++ [i] := rfl

@[simp] theorem State.addInst_releasedSinks (s : State) (i : Inst) : (s.addInst i).releasedSinks = s.releasedSinks := rfl

@[simp] theorem State.addInst_decoder (s : State) (i : Inst) : (s.addInst i).decoder = s.decoder := rfl

@[simp] theorem State.addInst_encoder (s : State) (i : Inst) : (s.addInst i).encoder = s.encoder := rfl

@[simp] theorem State.addInst_inputs (s : State) (i : Inst) : (s.addInst i).inputs = s.inputs := rfl

@[simp] theorem State.addInst_freeCount (s : State) (i : Inst) : (s.addInst i).freeCount = s.freeCount := rfl

/-! ## Free registers -/

@[simp] theorem State.leaveEncoder_status (s : State) : (s.leaveEncoder).status = s.status := rfl

@[simp] theorem State.leaveEncoder_result (s : State) : (s.leaveEncoder).result = s.result := rfl

@[simp] theorem State.leaveEncoder_instances (s : State) : (s.leaveEncoder).instances = s.instances := rfl

@[simp] theorem State.leaveEncoder_releasedSinks (s : State) : (s.leaveEncoder).releasedSinks = s.releasedSinks := rfl

@[simp] theorem State.leaveEncoder_decoder (s : State) : (s.leaveEncoder).decoder = s.decoder := rfl

@[simp] theorem State.leaveEncoder_encoder (s : State) : (s.leaveEncoder).encoder = freeEncodeUnit s.freeCount := rfl

@[simp] theorem State.leaveEncoder_inputs (s : State) : (s.leaveEncoder).inputs = s.inputs := rfl

@[simp] theorem State.leaveEncoder_freeCount (s : State) : (s.leaveEncoder).freeCount = s.freeCount + 1 := rfl

@[simp] theorem State.leaveDecoder_status (s : State) : (s.leaveDecoder).status = s.status := rfl

@[simp] theorem State.leaveDecoder_result (s : State) : (s.leaveDecoder).result = s.result := rfl

@[simp] theorem State.leaveDecoder_instances (s : State) : (s.leaveDecoder).instances = s.instances := rfl

@[simp] theorem State.leaveDecoder_releasedSinks (s : State) : (s.leaveDecoder).releasedSinks = s.releasedSinks := rfl

@[simp] theorem State.leaveDecoder_decoder (s : State) : (s.leaveDecoder).decoder = freeDecodeUnit s.freeCount := rfl

@[simp] theorem State.leaveDecoder_encoder (s : State) : (s.leaveDecoder).encoder = s.encoder := rfl

@[simp] theorem State.leaveDecoder_inputs (s : State) : (s.leaveDecoder).inputs = s.inputs := rfl

@[simp] theorem State.leaveDecoder_freeCount (s : State) : (s.leaveDecoder).freeCount = s.freeCount + 1 := rfl

@[simp] theorem freeDecodeUnit_phase (k : Nat) : (freeDecodeUnit k).phase = .idle := rfl

/-- An operation with a decoder of its own touches only the decode unit's registers and the count of free values. -/
theorem State.leaveOwnDecoder_cases (s : State) :
    (s.decoder.phase = .idle ∧ s.leaveOwnDecoder = s.leaveDecoder) ∨ (s.decoder.phase ≠ .idle ∧ s.leaveOwnDecoder = s) := by
  unfold State.leaveOwnDecoder
  cases h : s.decoder.phase <;> simp

@[simp] theorem State.leaveOwnDecoder_status (s : State) : s.leaveOwnDecoder.status = s.status := by
  unfold State.leaveOwnDecoder
  split <;> rfl

@[simp] theorem State.leaveOwnDecoder_result (s : State) : s.leaveOwnDecoder.result = s.result := by
  unfold State.leaveOwnDecoder
  split <;> rfl

@[simp] theorem State.leaveOwnDecoder_instances (s : State) : s.leaveOwnDecoder.instances = s.instances := by
  unfold State.leaveOwnDecoder
  split <;> rfl

@[simp] theorem State.leaveOwnDecoder_releasedSinks (s : State) : s.leaveOwnDecoder.releasedSinks = s.releasedSinks := by
  unfold State.leaveOwnDecoder
  split <;> rfl

@[simp] theorem State.leaveOwnDecoder_encoder (s : State) : s.leaveOwnDecoder.encoder = s.encoder := by
  unfold State.leaveOwnDecoder
  split <;> rfl

@[simp] theorem State.leaveOwnDecoder_inputs (s : State) : s.leaveOwnDecoder.inputs = s.inputs := by
  unfold State.leaveOwnDecoder
  split <;> rfl

/-- An operation with a decoder of its own never leaves a DECODE in progress that was not, nor ends one. -/
@[simp] theorem State.leaveOwnDecoder_phase (s : State) : s.leaveOwnDecoder.decoder.phase = s.decoder.phase := by
  unfold State.leaveOwnDecoder
  cases h : s.decoder.phase <;> simp [h]

/-! ## Reset as an input -/

@[simp] theorem State.afterReset_status (s : State) : (s.afterReset).status = .success := rfl

@[simp] theorem State.afterReset_result (s : State) : (s.afterReset).result = .none := rfl

@[simp] theorem State.afterReset_instances (s : State) : (s.afterReset).instances = [] := rfl

@[simp] theorem State.afterReset_releasedSinks (s : State) : (s.afterReset).releasedSinks =
    s.releasedSinks ++ s.instances.filterMap Inst.sink := rfl

@[simp] theorem State.afterReset_decoder (s : State) : (s.afterReset).decoder = freeDecodeUnit s.freeCount := rfl

@[simp] theorem State.afterReset_encoder (s : State) : (s.afterReset).encoder = freeEncodeUnit s.freeCount := rfl

@[simp] theorem State.afterReset_inputs (s : State) : (s.afterReset).inputs = s.inputs := rfl

@[simp] theorem State.afterReset_freeCount (s : State) : (s.afterReset).freeCount = s.freeCount + 1 := rfl

/-! ## The reset state -/

@[simp] theorem State.reset_status : State.reset.status = .success := rfl

@[simp] theorem State.reset_result : State.reset.result = .none := rfl

@[simp] theorem State.reset_instances : State.reset.instances = [] := rfl

@[simp] theorem State.reset_releasedSinks : State.reset.releasedSinks = [] := rfl

@[simp] theorem State.reset_decoder : State.reset.decoder = .reset := rfl

@[simp] theorem State.reset_encoder : State.reset.encoder = .reset := rfl

@[simp] theorem State.reset_inputs : State.reset.inputs = [] := rfl

@[simp] theorem State.reset_freeCount : State.reset.freeCount = 0 := rfl

end Sys2Proof.Machine
end

