-- ==== Sys2Proof/Laws/Forms.lean ====
section
/-! SUPPORT. The byte-coded forms as instructions of the decode unit: when each runs and when each fails, and what one
step of the machine does. -/

namespace Sys2Proof.Machine

/-! ## Headers -/

theorem headerCheck_raw (n : BitVec 16) (rem : Nat) :
    headerCheck (.raw n) rem =
      if rem < 5 then some .truncatedInput else if n = 0#16 then some .malformedChunk
      else if rem - 5 < n.toNat then some .truncatedInput else none := rfl

theorem headerCheck_comp (n m : BitVec 16) (rem : Nat) :
    headerCheck (.comp n m) rem =
      if rem < 7 then some .truncatedInput else if n = 0#16 then some .malformedChunk
      else if m = 0#16 ∨ n.toNat < m.toNat then some .malformedChunk
      else if rem - 7 < m.toNat then some .truncatedInput else none := rfl

theorem exec_headerForm (h : HeaderForm) (s : State) : exec h.instr s = execHeader h s := by cases h <;> rfl

/-- A header that fails a check ends the DECODE. -/
theorem execHeader_error {h : HeaderForm} {s : State} {k : ErrorKind} (hp : s.decoder.phase = .header)
    (hc : headerCheck h (s.decoder.inp.length - s.decoder.cp) = some k) :
    execHeader h s = .next (decodeFails s { kind := k, pos := s.decoder.cp }) := by
  simp [execHeader, hp, hc]

/-- A header that passes enters its chunk. -/
theorem execHeader_ok {h : HeaderForm} {s : State} (hp : s.decoder.phase = .header)
    (hc : headerCheck h (s.decoder.inp.length - s.decoder.cp) = none) :
    execHeader h s = .next { s with decoder := enterChunk h s.decoder } := by
  simp [execHeader, hp, hc]

/-! ## Tokens -/

theorem exec_tokenForm (f : TokenForm) (s : State) : exec f.instr s = execToken f s := by cases f <;> rfl

/-- A token that fails a check ends the DECODE. -/
theorem execToken_error {f : TokenForm} {s : State} {k : ErrorKind} (hp : s.decoder.phase = .tokens)
    (hc : tokenCheck (tokOf f) f.size s.decoder.tp s.decoder.pe s.decoder.window.length s.decoder.orig.toNat = some k) :
    execToken f s = .next (decodeFails s { kind := k, pos := s.decoder.tp }) := by
  simp [execToken, hp, runToken, hc]

/-- A token that passes moves the token pointer and adds its bytes to the window. -/
theorem execToken_ok {f : TokenForm} {s : State} (hp : s.decoder.phase = .tokens)
    (hc : tokenCheck (tokOf f) f.size s.decoder.tp s.decoder.pe s.decoder.window.length s.decoder.orig.toNat = none) :
    execToken f s = .next { s with decoder :=
      { s.decoder with tp := s.decoder.tp + f.size, window := tokenEmit (tokOf f) s.decoder.window } } := by
  simp [execToken, hp, runToken, hc]

/-- A slice's first byte and the rest. -/
theorem slice_cons {inp : List Byte} {i j : Nat} (h : i < j) (hj : j ≤ inp.length) :
    slice inp i j = inp.getD i 0#8 :: slice inp (i + 1) j := by
  rw [slice_eq, slice_eq, List.drop_eq_getElem_cons (by omega), show j - i = (j - (i + 1)) + 1 by omega,
    List.take_succ_cons, List.getD_eq_getElem?_getD, List.getElem?_eq_getElem (by omega), Option.getD_some]

/-! ## Operations with a decoder of their own -/

/-- DECODE and a Reader's fetch leave a DECODE in progress alone, and change nothing but the decode unit's free
registers. -/
theorem State.leaveOwnDecoder_eq (s : State) :
    ∃ d k, leavesOthersDecode s d k ∧ s.leaveOwnDecoder = { s with decoder := d, freeCount := k } := by
  rcases s.leaveOwnDecoder_cases with ⟨hp, h⟩ | ⟨hp, h⟩
  · exact ⟨_, _, ⟨by rw [hp]; rfl, fun hne => absurd hp hne⟩, h⟩
  · exact ⟨s.decoder, s.freeCount, ⟨rfl, fun _ => ⟨rfl, rfl⟩⟩, h⟩

/-- What DECODE does, once: it ends with the output or with the first error. -/
theorem execDecode_cases {inp : List Byte} {s t : State} (hn : exec (.decode inp) s = .next t) :
    (∃ out, decodeAll inp = .ok out ∧ t = s.leaveOwnDecoder.complete (.bytes out)) ∨
      ∃ e, decodeAll inp = .error e ∧ t = s.leaveOwnDecoder.raise e := by
  replace hn : execDecode inp s = .next t := hn
  unfold execDecode at hn
  cases hd : decodeAll inp <;> simp only [hd, Host.Outcome.next.injEq] at hn
  · exact .inr ⟨_, rfl, hn.symm⟩
  · exact .inl ⟨_, rfl, hn.symm⟩

/-! ## One step -/

/-- In a token stream, before the payload's end, a step runs the token at `tp`. -/
theorem step_tokens {s : State} (hp : s.decoder.phase = .tokens) (h : s.decoder.tp < s.decoder.pe) :
    step s = match decodeToken (slice s.decoder.inp s.decoder.tp s.decoder.pe) with
      | .ok f => execToken f s
      | .error _ => .next (decodeFails s { kind := .malformedChunk, pos := s.decoder.tp }) := by
  simp only [step, nextAction, hp, h, if_true, decode]
  cases hd : decodeToken (slice s.decoder.inp s.decoder.tp s.decoder.pe) with
  | ok f => simp [Except.map, exec_tokenForm, consume, hp]
  | error r => obtain rfl := decodeToken_error hd; simp [Except.map, consume, hp, rejected, rejectKind]

/-- At the payload's end, a step ends the token stream. -/
theorem step_payloadEnd {s : State} (hp : s.decoder.phase = .tokens) (h : s.decoder.pe ≤ s.decoder.tp) :
    step s = .next (finishPayload s) := by
  simp [step, nextAction, hp, Nat.not_lt.mpr h]

/-- In the chunk loop, before the input's end, a step runs the header at `cp`. -/
theorem step_header {s : State} (hp : s.decoder.phase = .header) (h : s.decoder.cp < s.decoder.inp.length) :
    step s = match parseHeader s.decoder.inp s.decoder.cp with
      | .ok hd => .next { s with decoder := enterChunk hd s.decoder }
      | .error e => .next (decodeFails s e) := by
  simp only [step, nextAction, hp, h, if_true, decode, parseHeader]
  cases hd : decodeHeader (s.decoder.inp.drop s.decoder.cp) with
  | error r => simp [Except.map, consume, hp, rejected]
  | ok f =>
    simp only [Except.map, exec_headerForm, consume, hp]
    cases hc : headerCheck f (s.decoder.inp.length - s.decoder.cp) with
    | some k => simp only [execHeader_error hp hc]
    | none => simp only [execHeader_ok hp hc]

/-- At the input's end, a step ends the DECODE. -/
theorem step_inputEnd {s : State} (hp : s.decoder.phase = .header) (h : s.decoder.inp.length ≤ s.decoder.cp) :
    step s = .next (finishInput s) := by
  simp [step, nextAction, hp, Nat.not_lt.mpr h]

/-- Everything a step may do, by the unit that acts. -/
theorem step_cases {s t : State} (hn : step s = .next t) :
    (s.decoder.phase = .idle ∧ s.inputs = [] ∧ t = s) ∨
    (∃ rest, s.decoder.phase = .idle ∧ s.inputs = .reset :: rest ∧ t = { s with inputs := rest }.afterReset) ∨
    (∃ code args rest, s.decoder.phase = .idle ∧ s.inputs = .command code args :: rest ∧
      ((∃ i, decodeCommand code args = .ok i ∧ exec i { s with inputs := rest } = .next t) ∨
        t = { s with inputs := rest }.raise { kind := .illegalCommand, pos := 0 })) ∨
    (s.decoder.phase = .header ∧ s.decoder.cp < s.decoder.inp.length ∧
      ((∃ hd, parseHeader s.decoder.inp s.decoder.cp = .ok hd ∧ t = { s with decoder := enterChunk hd s.decoder }) ∨
        ∃ e, parseHeader s.decoder.inp s.decoder.cp = .error e ∧ t = decodeFails s e)) ∨
    (s.decoder.phase = .header ∧ s.decoder.inp.length ≤ s.decoder.cp ∧ t = finishInput s) ∨
    (s.decoder.phase = .tokens ∧ s.decoder.tp < s.decoder.pe ∧
      ((∃ f, decodeToken (slice s.decoder.inp s.decoder.tp s.decoder.pe) = .ok f ∧ execToken f s = .next t) ∨
        t = decodeFails s { kind := .malformedChunk, pos := s.decoder.tp })) ∨
    (s.decoder.phase = .tokens ∧ s.decoder.pe ≤ s.decoder.tp ∧ t = finishPayload s) := by
  cases hp : s.decoder.phase with
  | idle =>
    cases hi : s.inputs with
    | nil =>
      simp only [step, nextAction, hp, hi, Host.Outcome.next.injEq] at hn
      exact .inl ⟨rfl, rfl, hn.symm⟩
    | cons i rest =>
      cases i with
      | reset =>
        simp only [step, nextAction, hp, hi, consume, List.tail_cons, Host.Outcome.next.injEq] at hn
        exact .inr (.inl ⟨rest, rfl, rfl, hn.symm⟩)
      | command code args =>
        refine .inr (.inr (.inl ⟨code, args, rest, rfl, rfl, ?_⟩))
        simp only [step, nextAction, hp, hi, consume, List.tail_cons, decode] at hn
        cases hd : decodeCommand code args with
        | ok i => simp only [hd] at hn; exact .inl ⟨i, rfl, hn⟩
        | error r =>
          have hr : r = .reservedCommand := by
            unfold decodeCommand at hd
            repeat' split at hd
            all_goals (first | (cases hd; done) | (cases hd; rfl))
          simp only [hd, hr, rejected, hp, rejectKind, Host.Outcome.next.injEq] at hn
          exact .inr hn.symm
  | header =>
    by_cases h : s.decoder.cp < s.decoder.inp.length
    · rw [step_header hp h] at hn
      refine .inr (.inr (.inr (.inl ⟨rfl, h, ?_⟩)))
      cases hd : parseHeader s.decoder.inp s.decoder.cp with
      | ok hd' => simp only [hd, Host.Outcome.next.injEq] at hn; exact .inl ⟨_, rfl, hn.symm⟩
      | error e => simp only [hd, Host.Outcome.next.injEq] at hn; exact .inr ⟨_, rfl, hn.symm⟩
    · rw [step_inputEnd hp (by omega), Host.Outcome.next.injEq] at hn
      exact .inr (.inr (.inr (.inr (.inl ⟨rfl, by omega, hn.symm⟩))))
  | tokens =>
    by_cases h : s.decoder.tp < s.decoder.pe
    · rw [step_tokens hp h] at hn
      refine .inr (.inr (.inr (.inr (.inr (.inl ⟨rfl, h, ?_⟩)))))
      cases hd : decodeToken (slice s.decoder.inp s.decoder.tp s.decoder.pe) with
      | ok f => simp only [hd] at hn; exact .inl ⟨_, rfl, hn⟩
      | error e => simp only [hd, Host.Outcome.next.injEq] at hn; exact .inr hn.symm
    · rw [step_payloadEnd hp (by omega), Host.Outcome.next.injEq] at hn
      exact .inr (.inr (.inr (.inr (.inr (.inr ⟨rfl, by omega, hn.symm⟩)))))

end Sys2Proof.Machine
end

