-- ==== Sys2Proof/Laws/Streaming.lean ====
section
/-! SUPPORT. The streaming operations: the Writer's byte loop, forwarding, and the operations on an instance. -/

namespace Sys2Proof.Machine

/-! ## The Writer's byte loop -/

/-- The byte loop forwards every full block and keeps the rest (R201, R203). -/
theorem writeBytes_eq (policy : Config.EncPolicy) {k : Nat} (data buf : List Byte) (hb : buf.length < k) :
    writeBytes policy k buf data =
      ((((blocks k ((buf ++ data).take (k * ((buf ++ data).length / k)))).map (encodeChunk policy)).flatten),
        (buf ++ data).drop (k * ((buf ++ data).length / k))) := by
  induction data generalizing buf with
  | nil => simp [writeBytes, Nat.div_eq_of_lt hb]
  | cons b rest ih =>
    simp only [writeBytes]
    split
    · rename_i hfull
      have hlen : (buf ++ b :: rest).length = rest.length + k := by
        simp only [List.length_append, List.length_cons, List.length_nil] at hfull ⊢; omega
      have hsplit : buf ++ b :: rest = (buf ++ [b]) ++ rest := by simp
      have hk : 0 < k := by omega
      rw [ih [] (by simpa using hk), hlen, Nat.add_div_right _ hk, Nat.mul_succ]
      simp only [List.nil_append]
      rw [hsplit]
      have htake : (buf ++ [b] ++ rest).take (k * (rest.length / k) + k) =
          (buf ++ [b]) ++ rest.take (k * (rest.length / k)) := by
        rw [Nat.add_comm, ← hfull, List.take_append, List.take_of_length_le (by omega), Nat.add_sub_cancel_left]
      have hdrop : (buf ++ [b] ++ rest).drop (k * (rest.length / k) + k) = rest.drop (k * (rest.length / k)) := by
        rw [Nat.add_comm, ← hfull, List.drop_append]
        simp
      rw [htake, hdrop, blocks_append hk _ _ (by rw [hfull]), List.map_append, List.flatten_append]
      have hone : blocks k (buf ++ [b]) = [buf ++ [b]] := by
        rw [blocks_cons hk (by simp), ← hfull, List.take_length, List.drop_length, blocks_nil]
      rw [hone]
      simp
    · rename_i hfull
      have hlt : (buf ++ [b]).length < k := by
        simp only [List.length_append, List.length_cons, List.length_nil] at hfull ⊢; omega
      rw [ih (buf ++ [b]) hlt]
      simp

/-- The byte loop leaves less than a block in the buffer (R203). -/
theorem writeBytes_buf_length (policy : Config.EncPolicy) {k : Nat} (data buf : List Byte) (hb : buf.length < k) :
    (writeBytes policy k buf data).2.length < k := by
  rw [writeBytes_eq policy data buf hb]
  simp only [List.length_drop]
  have := Nat.div_add_mod (buf ++ data).length k
  have := Nat.mod_lt (buf ++ data).length (show 0 < k by omega)
  omega

/-! ## Forwarding -/

section complete

variable (h : Nat) (s : State) (w : WriterInst) (bs : List Byte)

@[simp] theorem forward_sink : (forward w bs).sink = w.sink ++ bs := rfl
@[simp] theorem forward_state : (forward w bs).state = w.state := rfl
@[simp] theorem forward_block : (forward w bs).block = w.block := rfl
@[simp] theorem forward_buf : (forward w bs).buf = w.buf := rfl

@[simp] theorem completeWriter_status : (completeWriter h s w bs).status = .success := rfl
@[simp] theorem completeWriter_result : (completeWriter h s w bs).result = .ok := rfl
@[simp] theorem completeWriter_instances :
    (completeWriter h s w bs).instances = s.instances.set h (.writer (forward w bs)) := by cases bs <;> rfl
@[simp] theorem completeWriter_releasedSinks : (completeWriter h s w bs).releasedSinks = s.releasedSinks := by
  cases bs <;> rfl
@[simp] theorem completeWriter_decoder : (completeWriter h s w bs).decoder = s.decoder := by cases bs <;> rfl
@[simp] theorem completeWriter_inputs : (completeWriter h s w bs).inputs = s.inputs := by cases bs <;> rfl

/-- A Writer operation that succeeds replaces the Writer, and nothing else changes but the result registers and the
encoder's. -/
theorem completeWriter_movesWriter : movesWriter (.next (completeWriter h s w bs)) s h (forward w bs) := by
  cases bs with
  | nil => exact ⟨s.encoder, s.freeCount, rfl⟩
  | cons => exact ⟨_, _, rfl⟩

end complete

/-! ## Operations on an instance -/

theorem writerAt_ok {s : State} {h : Nat} {w : WriterInst} (hw : s.instances[h]? = some (.writer w)) :
    writerAt s h = .ok w := by
  simp [writerAt, hw]

theorem readerAt_ok {s : State} {h : Nat} {r : ReaderInst} (hr : s.instances[h]? = some (.reader r)) :
    readerAt s h = .ok r := by
  simp [readerAt, hr]

theorem onWriter_of {s : State} {h : Nat} {w : WriterInst} (hw : s.instances[h]? = some (.writer w)) (k : WriterInst → State) :
    onWriter s h k = .next (k w) := by
  simp [onWriter, writerAt_ok hw]

theorem onReader_of {s : State} {h : Nat} {r : ReaderInst} (hr : s.instances[h]? = some (.reader r)) (k : ReaderInst → State) :
    onReader s h k = .next (k r) := by
  simp [onReader, readerAt_ok hr]

/-- A Writer operation that answers a next state found a Writer. -/
theorem onWriter_next {s t : State} {h : Nat} {k : WriterInst → State} (hn : onWriter s h k = .next t) :
    ∃ w, s.instances[h]? = some (.writer w) ∧ t = k w := by
  unfold onWriter writerAt at hn
  split at hn
  · rename_i hw
    split at hw
    · rename_i hi
      simp only [Except.ok.injEq] at hw
      subst hw
      simp only [Host.Outcome.next.injEq] at hn
      exact ⟨_, hi, hn.symm⟩
    · exact absurd hw (by simp)
    · exact absurd hw (by simp)
  · exact absurd hn (by simp)

/-- A Reader operation that answers a next state found a Reader. -/
theorem onReader_next {s t : State} {h : Nat} {k : ReaderInst → State} (hn : onReader s h k = .next t) :
    ∃ r, s.instances[h]? = some (.reader r) ∧ t = k r := by
  unfold onReader readerAt at hn
  split at hn
  · rename_i hw
    split at hw
    · rename_i hi
      simp only [Except.ok.injEq] at hw
      subst hw
      simp only [Host.Outcome.next.injEq] at hn
      exact ⟨_, hi, hn.symm⟩
    · exact absurd hw (by simp)
    · exact absurd hw (by simp)
  · exact absurd hn (by simp)

section writer

variable {s : State} {h : Nat} {w : WriterInst}

theorem writeTo_closed (d : List Byte) (hst : w.state = .closed) :
    writeTo h d s w = s.raise { kind := .streamClosed, pos := 0 } := by
  unfold writeTo; rw [hst]

theorem writeTo_opened (d : List Byte) (hst : w.state = .opened) :
    writeTo h d s w = completeWriter h s { w with buf := (writeBytes Config.encPolicy w.block.toNat w.buf d).2 }
      (writeBytes Config.encPolicy w.block.toNat w.buf d).1 := by
  unfold writeTo; rw [hst]

theorem flushWriter_closed (hst : w.state = .closed) :
    flushWriter h s w = s.raise { kind := .streamClosed, pos := 0 } := by
  unfold flushWriter; rw [hst]

theorem flushWriter_opened (hst : w.state = .opened) :
    flushWriter h s w = completeWriter h s { w with buf := [] } (partialChunk Config.encPolicy w.buf) := by
  unfold flushWriter; rw [hst]

theorem closeWriter_closed (hst : w.state = .closed) : closeWriter h s w = s.complete .ok := by
  unfold closeWriter; rw [hst]

theorem closeWriter_opened (hst : w.state = .opened) :
    closeWriter h s w =
      completeWriter h s { w with state := .closed, buf := [] } (partialChunk Config.encPolicy w.buf) := by
  unfold closeWriter; rw [hst]

/-- What a Writer operation may do, once for all three: on a CLOSED Writer raise or succeed and change nothing else;
on an OPEN one forward bytes and replace the Writer by one with the same block size and sink. -/
theorem writerOp_cases {i : Instr} {t : State} (hw : s.instances[h]? = some (.writer w))
    (hi : (∃ d, i = .wWrite h d) ∨ i = .wFlush h ∨ i = .wClose h) (hn : exec i s = .next t) :
    (w.state = .closed ∧ (t = s.raise { kind := .streamClosed, pos := 0 } ∨ t = s.complete .ok)) ∨
    (w.state = .opened ∧ ∃ bs w', t = completeWriter h s w' bs ∧
      w'.block = w.block ∧ w'.sink = w.sink ∧ (w'.state = .closed → w'.buf = []) ∧
      (w.buf.length < w.block.toNat → w'.buf.length < w.block.toNat)) := by
  rcases hi with ⟨d, rfl⟩ | rfl | rfl
  · obtain ⟨w', hw', rfl⟩ := onWriter_next (show onWriter s h (writeTo h d s) = .next t from hn)
    obtain rfl : w' = w := by rw [hw] at hw'; simpa using hw'.symm
    cases hst : w'.state with
    | closed => exact .inl ⟨rfl, .inl (writeTo_closed d hst)⟩
    | opened =>
      refine .inr ⟨rfl, _, _, writeTo_opened d hst, rfl, rfl, fun hc => ?_, fun hb => ?_⟩
      · simp [hst] at hc
      · exact writeBytes_buf_length _ _ _ hb
  · obtain ⟨w', hw', rfl⟩ := onWriter_next (show onWriter s h (flushWriter h s) = .next t from hn)
    obtain rfl : w' = w := by rw [hw] at hw'; simpa using hw'.symm
    cases hst : w'.state with
    | closed => exact .inl ⟨rfl, .inl (flushWriter_closed hst)⟩
    | opened => exact .inr ⟨rfl, _, _, flushWriter_opened hst, rfl, rfl, fun _ => rfl, fun hb => Nat.zero_lt_of_lt hb⟩
  · obtain ⟨w', hw', rfl⟩ := onWriter_next (show onWriter s h (closeWriter h s) = .next t from hn)
    obtain rfl : w' = w := by rw [hw] at hw'; simpa using hw'.symm
    cases hst : w'.state with
    | closed => exact .inl ⟨rfl, .inr (closeWriter_closed hst)⟩
    | opened => exact .inr ⟨rfl, _, _, closeWriter_opened hst, rfl, rfl, fun _ => rfl, fun hb => Nat.zero_lt_of_lt hb⟩

end writer

section reader

variable {s : State} {h k : Nat} {r : ReaderInst}

theorem readFrom_closed (hst : r.state = .closed) :
    readFrom h k s r = s.raise { kind := .streamClosed, pos := 0 } := by
  unfold readFrom; rw [hst]

theorem readFrom_error (hst : r.state = .error) : readFrom h k s r = s.raiseCode r.err 0 := by
  unfold readFrom; rw [hst]

theorem readFrom_eof (hst : r.state = .eof) : readFrom h k s r = s.complete .endSignal := by
  unfold readFrom; rw [hst]

theorem readFrom_opened (hst : r.state = .opened) :
    readFrom h k s r = if k = 0 then s.complete (.bytes [])
      else if r.pos = r.buf.length then readDrained h k s r else serve h k s r := by
  unfold readFrom; rw [hst]

theorem closeReader_closed (hst : r.state = .closed) : closeReader h s r = s.complete .ok := by
  unfold closeReader; rw [hst]

theorem closeReader_other (hst : r.state ≠ .closed) :
    closeReader h s r =
      (s.setInst h (.reader { r with state := .closed, buf := [], pos := 0, err := 0#3 })).complete .ok := by
  unfold closeReader
  cases hs : r.state <;> first | rfl | exact absurd hs hst

/-- What a read may do, once: raise and change nothing else; succeed and change nothing else; serve from the buffer;
enter EOF; or fetch one chunk, which is served from or puts the Reader in ERROR. -/
theorem readOp_cases {t : State} (hr : s.instances[h]? = some (.reader r)) (hn : exec (.rRead h k) s = .next t) :
    (r.state = .closed ∧ t = s.raise { kind := .streamClosed, pos := 0 }) ∨
    (r.state = .error ∧ t = s.raiseCode r.err 0) ∨
    (r.state = .eof ∧ t = s.complete .endSignal) ∨
    (r.state = .opened ∧ k = 0 ∧ t = s.complete (.bytes [])) ∨
    (r.state = .opened ∧ k ≠ 0 ∧ r.pos ≠ r.buf.length ∧ t = serve h k s r) ∨
    (r.state = .opened ∧ k ≠ 0 ∧ r.pos = r.buf.length ∧ r.srcPos = r.src.length ∧
      t = (s.setInst h (.reader { r with state := .eof, buf := [], pos := 0 })).complete .endSignal) ∨
    (r.state = .opened ∧ k ≠ 0 ∧ r.pos = r.buf.length ∧ r.srcPos ≠ r.src.length ∧
      ∃ chunk next, decodeChunk r.src r.srcPos = .ok (chunk, next) ∧
        t = serve h k s.leaveOwnDecoder { r with buf := chunk, pos := 0, srcPos := next }) ∨
    (r.state = .opened ∧ k ≠ 0 ∧ r.pos = r.buf.length ∧ r.srcPos ≠ r.src.length ∧
      ∃ e, decodeChunk r.src r.srcPos = .error e ∧ t = failReader h s.leaveOwnDecoder r e) := by
  obtain ⟨r', hr', rfl⟩ := onReader_next (show onReader s h (readFrom h k s) = .next t from hn)
  obtain rfl : r' = r := by rw [hr] at hr'; simpa using hr'.symm
  cases hst : r'.state with
  | closed => simp [readFrom_closed hst]
  | error => simp [readFrom_error hst]
  | eof => simp [readFrom_eof hst]
  | opened =>
    rw [readFrom_opened hst]
    by_cases hk : k = 0
    · simp [hk]
    · by_cases hp : r'.pos = r'.buf.length
      · by_cases hsrc : r'.srcPos = r'.src.length
        · simp only [if_neg hk, if_pos hp, readDrained, if_pos hsrc]
          simp [hk, hp, hsrc]
        · simp only [if_neg hk, if_pos hp, readDrained, if_neg hsrc]
          cases hc : decodeChunk r'.src r'.srcPos with
          | error e => simp [hk, hp, hsrc]
          | ok q =>
            obtain ⟨chunk, next⟩ := q
            simp only [hst]
            simp [hk, hp, hsrc]
      · simp [hk, hp]

end reader

end Sys2Proof.Machine
end

