-- ==== Sys2Proof/Laws/Legal.lean ====
section
/-! SUPPORT. The shared operations keep a state legal (Safety.lean), one lemma each. -/

namespace Sys2Proof.Machine

theorem State.ok_iff (s : State) :
    s.ok = true ↔ statusOk s.status s.result = true ∧ (∀ i ∈ s.instances, instOk i = true) ∧
      decodeUnitOk s.decoder = true ∧ htWf s.encoder.table = true := by
  simp only [State.ok, Bool.and_eq_true, List.all_eq_true]
  tauto

theorem writerOk_iff {w : WriterInst} :
    writerOk w = true ↔ w.buf.length < w.block.toNat ∧ (w.state = .closed → w.buf = []) := by
  simp only [writerOk, Bool.and_eq_true, decide_eq_true_eq, Bool.or_eq_true, List.isEmpty_iff]
  cases w.state <;> simp

theorem readerOk_iff {r : ReaderInst} :
    readerOk r = true ↔ r.pos ≤ r.buf.length ∧ r.buf.length ≤ 65535 ∧ r.srcPos ≤ r.src.length ∧
      (r.state ≠ .opened → r.buf = []) ∧ (r.state = .error → 1 ≤ r.err.toNat ∧ r.err.toNat ≤ 3) ∧
      (r.state ≠ .error → r.err = 0#3) := by
  have : Config.maxChunk = 65535 := rfl
  simp only [readerOk, Bool.and_eq_true, decide_eq_true_eq, Bool.or_eq_true, List.isEmpty_iff, this]
  cases r.state <;> simp [and_assoc]

theorem ErrorKind.code_range (k : ErrorKind) : 1 ≤ k.code.toNat ∧ k.code.toNat ≤ 6 := by
  cases k <;> decide

/-- A legal state's instances are legal. -/
theorem State.ok_inst {s : State} (hs : s.ok = true) {h : Nat} {i : Inst} (hi : s.instances[h]? = some i) :
    instOk i = true :=
  ((State.ok_iff s).mp hs).2.1 i (List.mem_of_getElem? hi)

theorem State.ok_complete {s : State} {r : Result} (h : s.ok = true) (hr : ∀ c p, r ≠ .error c p) :
    (s.complete r).ok = true := by
  rw [State.ok_iff] at h ⊢
  refine ⟨?_, h.2⟩
  cases r <;> first | rfl | exact absurd rfl (hr _ _)

theorem State.ok_raiseCode {s : State} {c : BitVec 3} {p : Nat} (h : s.ok = true) (h1 : 1 ≤ c.toNat)
    (h6 : c.toNat ≤ 6) : (s.raiseCode c p).ok = true := by
  rw [State.ok_iff] at h ⊢
  exact ⟨by simp [statusOk, h1, h6], h.2⟩

theorem State.ok_raise {s : State} {e : Raise} (h : s.ok = true) : (s.raise e).ok = true :=
  State.ok_raiseCode h e.kind.code_range.1 e.kind.code_range.2

theorem State.ok_leaveDecoder {s : State} (h : s.ok = true) : s.leaveDecoder.ok = true := by
  rw [State.ok_iff] at h ⊢
  exact ⟨h.1, h.2.1, rfl, h.2.2.2⟩

theorem State.ok_leaveOwnDecoder {s : State} (h : s.ok = true) : s.leaveOwnDecoder.ok = true := by
  rcases s.leaveOwnDecoder_cases with ⟨-, hl⟩ | ⟨-, hl⟩ <;> rw [hl]
  · exact State.ok_leaveDecoder h
  · exact h

theorem State.ok_leaveEncoder {s : State} (h : s.ok = true) : s.leaveEncoder.ok = true := by
  rw [State.ok_iff] at h ⊢
  exact ⟨h.1, h.2.1, h.2.2.1, freeEncodeUnit_table_wf _⟩

theorem State.ok_setInst {s : State} {h : Nat} {i : Inst} (hs : s.ok = true) (hi : instOk i = true) :
    (s.setInst h i).ok = true := by
  rw [State.ok_iff] at hs ⊢
  refine ⟨hs.1, fun j hj => ?_, hs.2.2⟩
  rcases List.mem_or_eq_of_mem_set hj with hj | rfl
  · exact hs.2.1 j hj
  · exact hi

theorem State.ok_addInst {s : State} {i : Inst} (hs : s.ok = true) (hi : instOk i = true) : (s.addInst i).ok = true := by
  rw [State.ok_iff] at hs ⊢
  refine ⟨hs.1, fun j hj => ?_, hs.2.2⟩
  rcases List.mem_append.mp hj with hj | hj
  · exact hs.2.1 j hj
  · rw [List.mem_singleton.mp hj]; exact hi

theorem ok_completeWriter {h : Nat} {s : State} {w : WriterInst} {bs : List Byte} (hs : s.ok = true)
    (hw : writerOk w = true) : (completeWriter h s w bs).ok = true := by
  refine State.ok_complete (State.ok_setInst ?_ hw) (by simp)
  cases bs with
  | nil => exact hs
  | cons => exact State.ok_leaveEncoder hs

theorem ok_serve {h k : Nat} {s : State} {r : ReaderInst} (hs : s.ok = true) (hr : readerOk r = true) :
    (serve h k s r).ok = true := by
  refine State.ok_complete (State.ok_setInst hs ?_) (by simp)
  rw [readerOk_iff] at hr
  show readerOk _ = true
  rw [readerOk_iff]
  exact ⟨by dsimp only; omega, hr.2⟩

/-- A command decodes to an operation, never to a byte-coded form. -/
theorem decodeCommand_operation {code : Byte} {a : Operands} {i : Instr} (h : decodeCommand code a = .ok i) :
    isOperation i = true := by
  unfold decodeCommand at h
  repeat' split at h
  all_goals (first | (cases h; rfl) | (simp at h))

end Sys2Proof.Machine
end

