-- ==== Sys2Proof/Laws/PerInstr.lean ====
section
/-! SUPPORT. Statements about every instruction as syntax, one lemma per constructor. -/

/-! ## EncodedSpace: the encoding of an instruction stands in the space of its kind, and has its size (R70) -/

/-- The encoding stands in the instruction's own space (R70): a header of 5 or 7 bytes that begins with the marker, a
token of 2 or 3 bytes or one more than its run, or a command code of R81. -/
def Sys2Proof.Laws.EncodedSpace.Statement (i : Sys2Proof.Instr) : Prop :=
  match i with
  | .lit bytes => ∃ bs, Sys2Proof.encode i = .token bs ∧ bs.length = 1 + bytes.length
  | .refS _ _ => ∃ bs, Sys2Proof.encode i = .token bs ∧ bs.length = 2
  | .refL _ _ => ∃ bs, Sys2Proof.encode i = .token bs ∧ bs.length = 3
  | .hdrRaw _ => ∃ bs, Sys2Proof.encode i = .header bs ∧ bs.length = 5 ∧ bs.take 3 = [0x5A#8, 0x56#8, 0x00#8]
  | .hdrComp _ _ => ∃ bs, Sys2Proof.encode i = .header bs ∧ bs.length = 7 ∧ bs.take 3 = [0x5A#8, 0x56#8, 0x01#8]
  | .encode _ => ∃ a, Sys2Proof.encode i = .command 0x01#8 a
  | .decode _ => ∃ a, Sys2Proof.encode i = .command 0x02#8 a
  | .wOpen _ _ => ∃ a, Sys2Proof.encode i = .command 0x10#8 a
  | .wWrite _ _ => ∃ a, Sys2Proof.encode i = .command 0x11#8 a
  | .wFlush _ => ∃ a, Sys2Proof.encode i = .command 0x12#8 a
  | .wClose _ => ∃ a, Sys2Proof.encode i = .command 0x13#8 a
  | .rOpen _ => ∃ a, Sys2Proof.encode i = .command 0x20#8 a
  | .rRead _ _ => ∃ a, Sys2Proof.encode i = .command 0x21#8 a
  | .rClose _ => ∃ a, Sys2Proof.encode i = .command 0x22#8 a

theorem Sys2Proof.Laws.EncodedSpace.lit (bytes : List Sys2Proof.Byte) :
    Sys2Proof.Laws.EncodedSpace.Statement (.lit bytes) :=
  ⟨_, rfl, Sys2Proof.encodeToken_length _⟩

theorem Sys2Proof.Laws.EncodedSpace.refS (l : BitVec 3) (o : BitVec 13) :
    Sys2Proof.Laws.EncodedSpace.Statement (.refS l o) := ⟨_, rfl, rfl⟩

theorem Sys2Proof.Laws.EncodedSpace.refL (e : Sys2Proof.Byte) (o : BitVec 13) :
    Sys2Proof.Laws.EncodedSpace.Statement (.refL e o) := ⟨_, rfl, rfl⟩

theorem Sys2Proof.Laws.EncodedSpace.hdrRaw (n : BitVec 16) :
    Sys2Proof.Laws.EncodedSpace.Statement (.hdrRaw n) := ⟨_, rfl, rfl, rfl⟩

theorem Sys2Proof.Laws.EncodedSpace.hdrComp (n m : BitVec 16) :
    Sys2Proof.Laws.EncodedSpace.Statement (.hdrComp n m) := ⟨_, rfl, rfl, rfl⟩

theorem Sys2Proof.Laws.EncodedSpace.encode (input : List Sys2Proof.Byte) :
    Sys2Proof.Laws.EncodedSpace.Statement (.encode input) := ⟨_, rfl⟩

theorem Sys2Proof.Laws.EncodedSpace.decode (input : List Sys2Proof.Byte) :
    Sys2Proof.Laws.EncodedSpace.Statement (.decode input) := ⟨_, rfl⟩

theorem Sys2Proof.Laws.EncodedSpace.wOpen (sink : List Byte) (blockSize : Nat) :
    Sys2Proof.Laws.EncodedSpace.Statement (.wOpen sink blockSize) := ⟨_, rfl⟩

theorem Sys2Proof.Laws.EncodedSpace.wWrite (handle : Nat) (data : List Sys2Proof.Byte) :
    Sys2Proof.Laws.EncodedSpace.Statement (.wWrite handle data) := ⟨_, rfl⟩

theorem Sys2Proof.Laws.EncodedSpace.wFlush (handle : Nat) :
    Sys2Proof.Laws.EncodedSpace.Statement (.wFlush handle) := ⟨_, rfl⟩

theorem Sys2Proof.Laws.EncodedSpace.wClose (handle : Nat) :
    Sys2Proof.Laws.EncodedSpace.Statement (.wClose handle) := ⟨_, rfl⟩

theorem Sys2Proof.Laws.EncodedSpace.rOpen (source : List Sys2Proof.Byte) :
    Sys2Proof.Laws.EncodedSpace.Statement (.rOpen source) := ⟨_, rfl⟩

theorem Sys2Proof.Laws.EncodedSpace.rRead (handle capacity : Nat) :
    Sys2Proof.Laws.EncodedSpace.Statement (.rRead handle capacity) := ⟨_, rfl⟩

theorem Sys2Proof.Laws.EncodedSpace.rClose (handle : Nat) :
    Sys2Proof.Laws.EncodedSpace.Statement (.rClose handle) := ⟨_, rfl⟩
end

