-- ==== Sys2Proof/Laws/RoundTrip.lean ====
section
/-! SUPPORT. The specification of EncodeChunk, which ENCODE and the Writer share: its chunk decodes to its slice. -/

namespace Sys2Proof.Machine

/-- A header that is well formed parses at the front of its bytes and payload. -/
theorem parseHeader_headerBytes {h : HeaderForm} {payload : List Byte} (hwf : h.instr.wf = true)
    (hlen : h.payloadLen ≤ payload.length) : parseHeader (headerBytes h ++ payload) 0 = .ok h := by
  rw [parseHeader_ok_iff]
  refine ⟨by rw [List.drop_zero]; exact decodeHeader_headerBytes _ _, headerCheck_of_wf hwf ?_⟩
  rw [List.length_append, headerBytes_length]
  omega

/-- The chunk of a slice of 1 to 65535 bytes decodes to the slice, whichever finder ran (R143, R156). -/
theorem decodeChunk_encodeChunk (policy : Config.EncPolicy) {S : List Byte} (h1 : 1 ≤ S.length) (h2 : S.length ≤ 65535) :
    decodeChunk (encodeChunk policy S) 0 = .ok (S, (encodeChunk policy S).length) := by
  have hn := lengthField_toNat h2
  rcases encodeChunk_cases policy h1 h2 with ⟨hlt, hwf, he⟩ | ⟨-, hwf, he⟩ <;> rw [he]
  · have hm := lengthField_toNat (show (pack (tokenize policy S)).length ≤ 65535 by omega)
    have hp := parseHeader_headerBytes hwf (payload := pack (tokenize policy S))
      (by simp only [HeaderForm.payloadLen, hm]; omega)
    have htoks := tokensAt_pack (tokenize policy S)
      (headerBytes (.comp (BitVec.ofNat 16 S.length) (BitVec.ofNat 16 (pack (tokenize policy S)).length))) 0
      (replays_tokenize policy S) (Nat.zero_le _)
    rw [headerBytes_length, List.take_zero] at htoks
    unfold decodeChunk
    rw [hp]
    simp only [chunkOutput, decodeTokens_eq, hn, hm, HeaderForm.payloadLen, Nat.zero_add, htoks]
    simp
  · have hp := parseHeader_headerBytes hwf (payload := S) (by simp only [HeaderForm.payloadLen, hn]; omega)
    have hs := slice_append_right (headerBytes (.raw (BitVec.ofNat 16 S.length))) S 0 S.length
    rw [headerBytes_length, Nat.add_zero] at hs
    unfold decodeChunk
    rw [hp]
    simp only [chunkOutput, hn, HeaderForm.payloadLen, Nat.zero_add, hs, slice_eq]
    simp

end Sys2Proof.Machine
end

