-- ==== Sys2Proof/Machine/Assembler.lean ====
section
/-! DEFINITION. The assembler notation for token streams and chunks (30_encoding.md R82), as abstract syntax: what a
written program is as bytes. -/

namespace Sys2Proof.Machine

/-- A token as written (R82). -/
inductive AsmToken where
  /-- `LIT b1, ..., bn` -/
  | lit (bytes : List Byte)
  /-- `REF off, len` -/
  | ref (off len : Nat)
  /-- the pseudo-instruction `LITS "s"` -/
  | lits (s : List Byte)
  deriving DecidableEq, Repr

/-- A chunk as written (R82). -/
inductive AsmChunk where
  /-- `RAW n: b1, ..., bn` -/
  | raw (n : BitVec 16) (bytes : List Byte)
  /-- `COMP n, m: <tokens>` -/
  | comp (n m : BitVec 16) (toks : List AsmToken)
  deriving DecidableEq, Repr

/-- The tokens a written token stands for: `LITS` expands to runs of 32 bytes and one of the rest (R82, R150). -/
def AsmToken.expand : AsmToken → List Tok
  | .lit bytes => [.run bytes]
  | .ref off len => [.ref off len]
  | .lits s => flushLiterals s

/-- The bytes of a written chunk: header, then payload. -/
def AsmChunk.assemble : AsmChunk → List Byte
  | .raw n bytes => headerBytes (.raw n) ++ bytes
  | .comp n m toks => headerBytes (.comp n m) ++ pack (toks.map AsmToken.expand).flatten

/-- The bytes of a written program. -/
def assemble (chunks : List AsmChunk) : List Byte := (chunks.map AsmChunk.assemble).flatten

end Sys2Proof.Machine
end

