-- ==== Sys2Proof/Tests/Slice0.lean ====
section
/-! SUPPORT. Tests. Expected values come from spec/95_test_vectors.md (the vector named in each docstring), from the
layouts of spec/30_encoding.md, or from hand calculation by the rule named. -/

namespace Sys2Proof.Tests

open Sys2Proof Sys2Proof.Machine

/-! ## Helpers -/

/-- Bytes from numbers. -/
def bytes (ns : List Nat) : List Byte := ns.map (BitVec.ofNat 8)

/-- STATUS and the result after an outcome; nothing for a stop. -/
def ended (o : Host.Outcome State Fault Refusal) : Option (Status × Result) :=
  match o with
  | .next t => some (t.status, t.result)
  | .fault _ => none
  | .refused _ => none

/-- The bytes in the sink of the Writer at a handle after an outcome. -/
def sinkAfter (o : Host.Outcome State Fault Refusal) (h : Nat) : Option (List Byte) :=
  match o with
  | .next t => sinkOf t h
  | .fault _ => none
  | .refused _ => none

/-- The instances after an outcome. -/
def instancesAfter (o : Host.Outcome State Fault Refusal) : Option (List Inst) :=
  match o with
  | .next t => some t.instances
  | .fault _ => none
  | .refused _ => none

/-- The decode unit after an outcome. -/
def decoderAfter (o : Host.Outcome State Fault Refusal) : Option DecodeUnit :=
  match o with
  | .next t => some t.decoder
  | .fault _ => none
  | .refused _ => none

/-- The refusal an outcome is. -/
def refusalOf (o : Host.Outcome State Fault Refusal) : Option Refusal :=
  match o with
  | .next _ => none
  | .fault _ => none
  | .refused r => some r

/-- A block whose caller has issued one command. -/
def issued (code : Byte) (args : Operands) : State := { State.reset with inputs := [.command code args] }

/-- A block whose DECODE has reached the header at `cp`. -/
def atHeader (inp : List Nat) (cp : Nat) : State :=
  { State.reset with decoder := { DecodeUnit.reset with phase := .header, inp := bytes inp, cp := cp } }

/-- A block in a token stream: the payload is all of `payload`, with a window and an originalLength. -/
def inTokens (payload : List Nat) (tp : Nat) (window : List Nat) (orig : BitVec 16) : State :=
  { State.reset with decoder :=
      { DecodeUnit.reset with
        phase := .tokens, inp := bytes payload, tp := tp, pe := payload.length, orig := orig, window := bytes window } }

/-- A Writer. -/
def aWriter (state : WriterState) (block : BitVec 16) (buf sink : List Nat) : WriterInst :=
  { state := state, block := block, buf := bytes buf, sink := bytes sink }

/-- A Reader. -/
def aReader (state : ReaderState) (buf : List Nat) (pos srcPos : Nat) (err : BitVec 3) (src : List Nat) : ReaderInst :=
  { state := state, buf := bytes buf, pos := pos, srcPos := srcPos, err := err, src := bytes src }

/-- A block with these instances. -/
def holding (instances : List Inst) : State := { State.reset with instances := instances }

/-! ## WellFormed refuses ill-formed terms -/

theorem test_wf_empty_literal : (Instr.lit []).wf = false := by decide
theorem test_wf_long_literal : (Instr.lit (List.replicate 33 0#8)).wf = false := by decide
theorem test_wf_longest_literal : (Instr.lit (List.replicate 32 0#8)).wf = true := by decide
theorem test_wf_short_length_0 : (Instr.refS 0#3 5#13).wf = false := by decide
theorem test_wf_short_length_7 : (Instr.refS 7#3 5#13).wf = false := by decide
theorem test_wf_raw_length_0 : (Instr.hdrRaw 0#16).wf = false := by decide
theorem test_wf_comp_original_0 : (Instr.hdrComp 0#16 0#16).wf = false := by decide
theorem test_wf_comp_compressed_0 : (Instr.hdrComp 3#16 0#16).wf = false := by decide
theorem test_wf_comp_longer : (Instr.hdrComp 3#16 4#16).wf = false := by decide
theorem test_wf_comp_equal : (Instr.hdrComp 5#16 5#16).wf = true := by decide

/-! ## Decoding words written out from the layouts of R71 to R76 and R81 -/

/-- R74: `000 00010`, then three bytes (V-T2). -/
theorem test_decode_lit : decode (.token [0b00000010#8, 0x61#8, 0x62#8, 0x63#8]) = .ok (.lit (bytes [0x61, 0x62, 0x63])) := by
  decide
/-- R75: `110 11111`, `11111111` is `REF 8192, 8` (V-T7). -/
theorem test_decode_refS : decode (.token [0b11011111#8, 0b11111111#8]) = .ok (.refS 6#3 8191#13) := by decide
/-- R75: `001 00000`, `00000000` is `REF 1, 3` (V-T4). -/
theorem test_decode_refS_shortest : decode (.token [0b00100000#8, 0#8]) = .ok (.refS 1#3 0#13) := by decide
/-- R76: `111 00001`, `00011010`, `00000111` is `REF 264, 35` (V-T11): the extension byte comes before the low offset. -/
theorem test_decode_refL : decode (.token [0b11100001#8, 0b00011010#8, 0b00000111#8]) = .ok (.refL 26#8 263#13) := by
  decide
/-- R71: `01011010 01010110 00000000`, then 300 big-endian. -/
theorem test_decode_hdrRaw :
    decode (.header [0b01011010#8, 0b01010110#8, 0#8, 0b00000001#8, 0b00101100#8]) = .ok (.hdrRaw 300#16) := by decide
/-- R72: `01011010 01010110 00000001`, then originalLength 300 and compressedLength 8 (V-E10). -/
theorem test_decode_hdrComp :
    decode (.header [0b01011010#8, 0b01010110#8, 1#8, 0b00000001#8, 0b00101100#8, 0#8, 0b00001000#8]) =
      .ok (.hdrComp 300#16 8#16) := by decide
theorem test_decode_encode : decode (.command 0x01#8 { bytes := [7#8] }) = .ok (.encode [7#8]) := by decide
theorem test_decode_decode : decode (.command 0x02#8 { bytes := [7#8] }) = .ok (.decode [7#8]) := by decide
theorem test_decode_wOpen : decode (.command 0x10#8 { sink := [7#8], number := 4 }) = .ok (.wOpen [7#8] 4) := by decide
theorem test_decode_wWrite : decode (.command 0x11#8 { handle := 3, bytes := [7#8] }) = .ok (.wWrite 3 [7#8]) := by decide
theorem test_decode_wFlush : decode (.command 0x12#8 { handle := 3 }) = .ok (.wFlush 3) := by decide
theorem test_decode_wClose : decode (.command 0x13#8 { handle := 3 }) = .ok (.wClose 3) := by decide
theorem test_decode_rOpen : decode (.command 0x20#8 { bytes := [7#8] }) = .ok (.rOpen [7#8]) := by decide
theorem test_decode_rRead : decode (.command 0x21#8 { handle := 3, number := 4 }) = .ok (.rRead 3 4) := by decide
theorem test_decode_rClose : decode (.command 0x22#8 { handle := 3 }) = .ok (.rClose 3) := by decide

/-! ## Refused words, by name -/

theorem test_reject_lone_byte : decode (.header [0x5A#8]) = .error .headerNoMagic := by decide
theorem test_reject_magic : decode (.header (bytes [0x5A, 0x57, 0, 0, 3])) = .error .badMagic := by decide
theorem test_reject_no_type : decode (.header (bytes [0x5A, 0x56])) = .error .headerNoType := by decide
theorem test_reject_type : decode (.header (bytes [0x5A, 0x56, 2, 0, 3])) = .error .badType := by decide
theorem test_reject_cut_header : decode (.header (bytes [0x5A, 0x56, 1, 0, 3, 0])) = .error .headerCut := by decide
theorem test_reject_cut_token : decode (.token (bytes [0x02, 0x61, 0x62])) = .error .tokenCut := by decide
theorem test_reject_command : decode (.command 0x14#8 {}) = .error .reservedCommand := by decide

/-! ## Table words: bit 0 is the least significant bit of the first byte -/

/-- `REF_L`: first byte E0, then zeros. -/
theorem test_table_refL : decodeTableWord 24 0xE0 = some (.refL 0#8 0#13) := by decide
/-- `REF_S` with length field 1 and offset field 2: bytes 20 02. -/
theorem test_table_refS : decodeTableWord 16 0x0220 = some (.refS 1#3 2#13) := by decide
/-- `LIT` of one zero byte. -/
theorem test_table_lit : decodeTableWord 16 0 = some (.lit [0#8]) := by decide
/-- The table writes the fixed bytes of a header as the number 0x5A5601. -/
theorem test_table_hdrComp : decodeTableWord 56 0x5A5601 = some (.hdrComp 0#16 0#16) := by decide
theorem test_table_hdrRaw : decodeTableWord 40 0x5A5600 = some (.hdrRaw 0#16) := by decide
theorem test_table_rRead : decodeTableWord 8 0x21 = some (.rRead 0 0) := by decide

/-- The placed word is what the next step runs: `REF 1, 9` first in a chunk has no window to read (R183). -/
theorem test_placed_refL : ended (step (State.reset.withFetchWord 24 0xE0)) = some (.failure 3#3 0, .error 3#3 0) := by
  decide
/-- A placed `LIT` of one byte runs. -/
theorem test_placed_lit : (decoderAfter (step (State.reset.withFetchWord 16 0x4100))).map (·.window) = some [0x41#8] := by
  decide
/-- A placed command runs: `R_OPEN` of an empty source returns the first handle. -/
theorem test_placed_rOpen : ended (step (State.reset.withFetchWord 8 0x20)) = some (.success, .handle 0) := by decide

/-! ## One step per instruction -/

/-- R180: a literal run of 2 joins a window of 1. -/
theorem test_lit_runs :
    decoderAfter (exec (.lit (bytes [0x62, 0x63])) (inTokens [1, 0x62, 0x63] 0 [0x61] 9#16)) =
      some { (inTokens [1, 0x62, 0x63] 3 [0x61, 0x62, 0x63] 9#16).decoder with tp := 3 } := by decide
/-- R184: a literal run that passes originalLength is MalformedChunk at `tp`. -/
theorem test_lit_overruns :
    ended (exec (.lit (bytes [0x62, 0x63])) (inTokens [9, 1, 0x62, 0x63] 1 [0x61] 2#16)) =
      some (.failure 1#3 1, .error 1#3 1) := by decide
/-- R181, R186: `REF 2, 5` over `ab` repeats with period 2. -/
theorem test_refS_overlaps :
    (decoderAfter (exec (.refS 3#3 1#13) (inTokens [0x60, 1] 0 [0x61, 0x62] 7#16))).map (·.window) =
      some (bytes [0x61, 0x62, 0x61, 0x62, 0x61, 0x62, 0x61]) := by decide
/-- V-X12: offset 2 with one byte produced. -/
theorem test_refS_offset : ended (exec (.refS 1#3 1#13) (inTokens [0x20, 1] 0 [0x61] 4#16)) =
    some (.failure 3#3 0, .error 3#3 0) := by decide
/-- V-S2: `REF 1, 9` over `a` gives ten `a`. -/
theorem test_refL_overlaps :
    (decoderAfter (exec (.refL 0#8 0#13) (inTokens [0xE0, 0, 0] 0 [0x61] 10#16))).map (·.window) =
      some (List.replicate 10 0x61#8) := by decide
/-- V-S2, last case: `REF 1, 10` passes originalLength 10. -/
theorem test_refL_overruns : ended (exec (.refL 1#8 0#13) (inTokens [0xE0, 1, 0] 0 [0x61] 10#16)) =
    some (.failure 1#3 0, .error 1#3 0) := by decide
/-- V-D3, first chunk: the payload is output and `cp` moves to 7. -/
theorem test_hdrRaw_runs :
    (decoderAfter (exec (.hdrRaw 2#16) (atHeader [0x5A, 0x56, 0, 0, 2, 0x68, 0x69, 0x5A] 0))).map
      (fun d => (d.out, d.cp)) = some (bytes [0x68, 0x69], 7) := by decide
/-- V-X10: a payload byte is missing. -/
theorem test_hdrRaw_cut : ended (exec (.hdrRaw 3#16) (atHeader [0x5A, 0x56, 0, 0, 3, 0x61, 0x62] 0)) =
    some (.failure 2#3 0, .error 2#3 0) := by decide
/-- V-D4: compressedLength equal to originalLength is accepted. -/
theorem test_hdrComp_runs :
    (decoderAfter (exec (.hdrComp 5#16 5#16) (atHeader [0x5A, 0x56, 1, 0, 5, 0, 5, 1, 0x61, 0x61, 0x20, 0] 0))).map
      (fun d => (d.phase, d.tp, d.pe, d.orig, d.window)) = some (.tokens, 7, 12, 5#16, []) := by decide
/-- V-X9: compressedLength above originalLength. -/
theorem test_hdrComp_longer :
    ended (exec (.hdrComp 3#16 4#16) (atHeader [0x5A, 0x56, 1, 0, 3, 0, 4, 2, 0x61, 0x62, 0x63] 0)) =
      some (.failure 1#3 0, .error 1#3 0) := by decide
/-- V-E21: five `a` encode COMPRESSED. -/
theorem test_encode_compressed : ended (exec (.encode (List.replicate 5 0x61#8)) .reset) =
    some (.success, .bytes (bytes [0x5A, 0x56, 1, 0, 5, 0, 4, 0, 0x61, 0x40, 0])) := by decide
/-- V-E18: an equal size gives RAW. -/
theorem test_encode_raw : ended (exec (.encode (bytes [0x61, 0x77, 0x63, 0x61, 0x77, 0x63])) .reset) =
    some (.success, .bytes (bytes [0x5A, 0x56, 0, 0, 6, 0x61, 0x77, 0x63, 0x61, 0x77, 0x63])) := by decide
/-- V-D8: `a×10` as `LIT "a"`, `REF 1, 4`, `REF 5, 5`. -/
theorem test_decode_result : ended (exec (.decode (bytes [0x5A, 0x56, 1, 0, 10, 0, 6, 0, 0x61, 0x40, 0, 0x60, 4])) .reset) =
    some (.success, .bytes (List.replicate 10 0x61#8)) := by decide
/-- V-X24: the window does not reach into the chunk before. R243: a DECODE that is in progress is left alone. -/
theorem test_decode_window :
    let s := inTokens [0, 0x62] 0 [0x61] 9#16
    let o := exec (.decode (bytes [0x5A, 0x56, 0, 0, 3, 0x61, 0x62, 0x63, 0x5A, 0x56, 1, 0, 3, 0, 2, 0x20, 0])) s
    ended o = some (.failure 3#3 15, .error 3#3 15) ∧ decoderAfter o = some s.decoder := by decide
/-- V-W6: block size 65536. -/
theorem test_wOpen_size : ended (exec (.wOpen [] 65536) .reset) = some (.failure 5#3 0, .error 5#3 0) := by decide
/-- R200: the sink is as it was handed over. -/
theorem test_wOpen_opens : instancesAfter (exec (.wOpen [7#8] 4) .reset) = some [.writer (aWriter .opened 4#16 [] [7])] := by
  decide
/-- V-W7: `"hello"` through blocks of 4 forwards one chunk ... -/
theorem test_wWrite_forwards :
    sinkAfter (exec (.wWrite 0 (bytes [0x68, 0x65, 0x6C, 0x6C, 0x6F])) (holding [.writer (aWriter .opened 4#16 [] [7])])) 0 =
      some (bytes [7, 0x5A, 0x56, 0, 0, 4, 0x68, 0x65, 0x6C, 0x6C]) := by decide
/-- ... and keeps `"o"`. -/
theorem test_wWrite_keeps :
    instancesAfter (exec (.wWrite 0 (bytes [0x68, 0x65, 0x6C, 0x6C, 0x6F])) (holding [.writer (aWriter .opened 4#16 [] [])])) =
      some [.writer (aWriter .opened 4#16 [0x6F] [0x5A, 0x56, 0, 0, 4, 0x68, 0x65, 0x6C, 0x6C])] := by decide
/-- P3, command 3. -/
theorem test_wFlush_forwards :
    sinkAfter (exec (.wFlush 0) (holding [.writer (aWriter .opened 4#16 [0x6F] [])])) 0 =
      some (bytes [0x5A, 0x56, 0, 0, 1, 0x6F]) := by decide
/-- R204: the Writer stays OPEN, its buffer empty. -/
theorem test_wFlush_stays_open :
    instancesAfter (exec (.wFlush 0) (holding [.writer (aWriter .opened 4#16 [0x6F] [])])) =
      some [.writer (aWriter .opened 4#16 [] [0x5A, 0x56, 0, 0, 1, 0x6F])] := by decide
/-- P3, command 5. -/
theorem test_wClose_closes :
    instancesAfter (exec (.wClose 0) (holding [.writer (aWriter .opened 4#16 [0x21] [])])) =
      some [.writer (aWriter .closed 4#16 [] [0x5A, 0x56, 0, 0, 1, 0x21])] := by decide
/-- P3, command 7: closing a CLOSED Writer does nothing. -/
theorem test_wClose_again :
    sinkAfter (exec (.wClose 0) (holding [.writer (aWriter .closed 4#16 [] [7])])) 0 = some [7#8] := by decide
/-- R210. -/
theorem test_rOpen_opens : instancesAfter (exec (.rOpen (bytes [0x5A])) .reset) =
    some [.reader (aReader .opened [] 0 0 0#3 [0x5A])] := by decide
/-- P3, command 9: one chunk is fetched and three bytes are served. -/
theorem test_rRead_fetches :
    instancesAfter (exec (.rRead 0 3)
        (holding [.reader (aReader .opened [] 0 0 0#3 [0x5A, 0x56, 0, 0, 4, 0x68, 0x65, 0x6C, 0x6C, 0x5A])])) =
      some [.reader (aReader .opened [0x68, 0x65, 0x6C, 0x6C] 3 9 0#3 [0x5A, 0x56, 0, 0, 4, 0x68, 0x65, 0x6C, 0x6C, 0x5A])] := by
  decide
/-- V-R4: the error is sticky and its position is then 0. -/
theorem test_rRead_sticky : ended (exec (.rRead 0 1) (holding [.reader (aReader .error [] 0 7 1#3 [0x5A, 0x56, 7])])) =
    some (.failure 1#3 0, .error 1#3 0) := by decide
/-- R219: closing a Reader in ERROR. -/
theorem test_rClose_from_error :
    instancesAfter (exec (.rClose 0) (holding [.reader (aReader .error [] 0 7 1#3 [])])) =
      some [.reader (aReader .closed [] 0 7 0#3 [])] := by decide

/-! ## writeHeader, the hash and the assembler -/

/-- The examples of R100 and R101, and the calls they refuse. -/
theorem test_writeHeader :
    writeHeader (.raw 3#16) = some (bytes [0x5A, 0x56, 0, 0, 3]) ∧
      writeHeader (.comp 10#16 5#16) = some (bytes [0x5A, 0x56, 1, 0, 0x0A, 0, 5]) ∧ writeHeader (.raw 0#16) = none ∧
      writeHeader (.comp 3#16 0#16) = none ∧ writeHeader (.comp 3#16 4#16) = none := by decide

/-- V-H2 and V-H10. -/
theorem test_hash : hash3 0x61#8 0x62#8 0x63#8 = 8710 ∧ hash3 0x64#8 0x62#8 0x75#8 = 1349 := by decide
/-- P1 as written in the notation of R82. -/
theorem test_assemble :
    assemble [.comp 9#16 6#16 [.lit (bytes [0x61, 0x62, 0x63]), .ref 3 6], .raw 2#16 (bytes [0x78, 0x79])] =
      bytes [0x5A, 0x56, 1, 0, 9, 0, 6, 2, 0x61, 0x62, 0x63, 0x80, 2, 0x5A, 0x56, 0, 0, 2, 0x78, 0x79] := by decide

/-- R82: `LITS` of 33 bytes is a run of 32 and a run of 1. -/
theorem test_lits : (AsmToken.lits (List.replicate 33 7#8)).expand = [.run (List.replicate 32 7#8), .run [7#8]] := by decide

/-! ## Every statement's hypotheses are met: a witness for each, and one per clause where it has several

The states are at a boundary of the clause: the last byte of a payload, an offset equal to the window, the least and
greatest length a form spells. -/

theorem witness_EveryStepKeepsLegalState :
    (inTokens [0, 0x61] 0 [0x62] 2#16).ok = true ∧ ∃ t, step (inTokens [0, 0x61] 0 [0x62] 2#16) = .next t :=
  ⟨by decide, _, rfl⟩

theorem witness_ResetInputDestroysInstances :
    let s : State := { holding [.writer (aWriter .opened 4#16 [1] [])] with inputs := [.reset, .reset] }
    s.decoder.phase = .idle ∧ s.inputs = .reset :: [.reset] := by decide

theorem witness_StepRunsTheDecodedInstruction_header :
    let s := atHeader [0x5A, 0x56, 0, 0, 1] 0
    s.decoder.phase = .header ∧ s.decoder.cp < s.decoder.inp.length ∧
      decode (.header (s.decoder.inp.drop s.decoder.cp)) = .ok (.hdrRaw 1#16) := by decide

theorem witness_StepRunsTheDecodedInstruction_token :
    let s := inTokens [9, 0x20, 0] 1 [0x61] 4#16
    s.decoder.phase = .tokens ∧ s.decoder.tp < s.decoder.pe ∧
      decode (.token ((s.decoder.inp.take s.decoder.pe).drop s.decoder.tp)) = .ok (.refS 1#3 0#13) := by decide

theorem witness_StepRunsTheDecodedInstruction_command :
    let s := issued 0x12#8 { handle := 7 }
    s.decoder.phase = .idle ∧ s.inputs = .command 0x12#8 { handle := 7 } :: [] ∧
      decode (.command 0x12#8 { handle := 7 }) = .ok (.wFlush 7) := by decide

theorem witness_IdleBlockWaits : State.reset.decoder.phase = .idle ∧ State.reset.inputs = [] := by decide

/-- Both ends of each reserved range of R81. -/
theorem witness_ReservedCommandCodeIsIllegalCommand :
    ∀ code ∈ [0x00#8, 0x03#8, 0x0F#8, 0x14#8, 0x1F#8, 0x23#8, 0xFF#8],
      (issued code {}).decoder.phase = .idle ∧ (issued code {}).inputs = .command code {} :: [] ∧
        code.toNat ∉ [0x01, 0x02, 0x10, 0x11, 0x12, 0x13, 0x20, 0x21, 0x22] := by decide

theorem witness_EveryOperationWritesStatus :
    let s := holding [.reader (aReader .error [] 0 7 3#3 [0x5A, 0x56, 7, 0, 0, 0, 0])]
    isOperation (.rRead 0 1) = true ∧ s.ok = true ∧ ∃ t, exec (.rRead 0 1) s = .next t :=
  ⟨by decide, by decide, _, rfl⟩

theorem witness_ClosedIsTerminal_writer :
    let s := { holding [.writer (aWriter .closed 4#16 [] [])] with inputs := [.command 0x11#8 { bytes := [7#8] }] }
    nextAction s ≠ .reset ∧ (∃ t, step s = .next t) ∧ s.instances[0]? = some (.writer (aWriter .closed 4#16 [] [])) :=
  ⟨by decide, ⟨_, rfl⟩, rfl⟩

theorem witness_ClosedIsTerminal_reader :
    let s := { holding [.reader (aReader .closed [] 0 0 0#3 [])] with inputs := [.command 0x21#8 { number := 1 }] }
    nextAction s ≠ .reset ∧ (∃ t, step s = .next t) ∧ s.instances[0]? = some (.reader (aReader .closed [] 0 0 0#3 [])) :=
  ⟨by decide, ⟨_, rfl⟩, rfl⟩

theorem witness_SinkBytesAreNeverWithdrawn :
    let w := aWriter .opened 4#16 [7] [1]
    let s := { holding [.writer w] with inputs := [.command 0x13#8 {}] }
    let r := { holding [.writer w] with inputs := [.reset] }
    (nextAction s ≠ .reset ∧ s.instances[0]? = some (.writer w) ∧ ∃ t, step s = .next t) ∧
      nextAction r = .reset ∧ ∃ t, step r = .next t :=
  ⟨⟨by decide, rfl, _, rfl⟩, rfl, _, rfl⟩

theorem witness_UnknownAndWrongHandlesAreRefused :
    let s := holding [.reader (aReader .opened [] 0 0 0#3 []), .writer (aWriter .opened 1#16 [] [])]
    s.instances[2]? = none ∧ onHandle (.wFlush 2) = some 2 ∧
      s.instances[0]? = some (.reader (aReader .opened [] 0 0 0#3 [])) ∧
      s.instances[1]? = some (.writer (aWriter .opened 1#16 [] [])) := by decide

theorem witness_DifferentInstancesCommute :
    let s := holding [.writer (aWriter .opened 4#16 [7] []), .writer (aWriter .opened 4#16 [8] [])]
    (0 : Nat) ≠ 1 ∧ onHandle (.wClose 0) = some 0 ∧ onHandle (.wFlush 1) = some 1 ∧
      (∃ a, exec (.wClose 0) s = .next a) ∧ ∃ b, exec (.wFlush 1) s = .next b :=
  ⟨by decide, by decide, by decide, ⟨_, rfl⟩, _, rfl⟩

theorem witness_DecodeOfEncodeIsTheInstruction :
    (Instr.lit (List.replicate 32 0xFF#8)).wf = true ∧ (Instr.refS 6#3 8191#13).wf = true ∧
      (Instr.refL 255#8 8191#13).wf = true ∧ (Instr.hdrRaw 0xFFFF#16).wf = true ∧
      (Instr.hdrComp 0xFFFF#16 0xFFFF#16).wf = true ∧ (TokenForm.refS 1#3 0#13).instr.wf = true := by decide

theorem witness_EncodeOfDecodedTokenIsItsBytes :
    decodeToken (bytes [0x1F] ++ List.replicate 33 7#8) = .ok (.lit (List.replicate 32 7#8)) := by decide

theorem witness_EveryTokenHasOneEncoding_run : 1 ≤ (List.replicate 32 7#8).length ∧ (List.replicate 32 7#8).length ≤ 32 := by
  decide

/-- Lengths 8 and 9 are the last of `REF_S` and the first of `REF_L`. -/
theorem witness_EveryTokenHasOneEncoding_ref :
    ∀ len ∈ [3, 8, 9, 264], 1 ≤ 8192 ∧ 8192 ≤ 8192 ∧ 3 ≤ len ∧ len ≤ 264 := by decide

theorem witness_ControlByteSelectsFormAndLength_lit :
    (0x1F#8 : Byte).toNat / 32 = 0 ∧ (List.replicate 31 7#8).length < (0x1F#8 : Byte).toNat % 32 + 1 ∧
      (0x1F#8 : Byte).toNat % 32 + 1 ≤ (List.replicate 32 7#8).length := by decide

theorem witness_ControlByteSelectsFormAndLength_refS :
    ∀ ctrl ∈ [0x20#8, 0xDF#8], 1 ≤ (ctrl : Byte).toNat / 32 ∧ ctrl.toNat / 32 ≤ 6 := by decide

theorem witness_ControlByteSelectsFormAndLength_refL :
    ∀ ctrl ∈ [0xE0#8, 0xFF#8], (ctrl : Byte).toNat / 32 = 7 := by decide

theorem witness_ParseHeaderChecksInOrder : 2 < (bytes [9, 9, 0x5A]).length := by decide

theorem witness_RawHeaderOutputsItsPayload_runs :
    let d := (atHeader [0x5A, 0x56, 0, 0, 1, 0x61] 0).decoder
    d.phase = .header ∧ 5 ≤ d.inp.length - d.cp ∧ 1#16 ≠ 0#16 ∧ (1#16).toNat ≤ d.inp.length - d.cp - 5 := by decide

theorem witness_RawHeaderOutputsItsPayload_zero :
    let d := (atHeader [0x5A, 0x56, 0, 0, 0] 0).decoder
    d.phase = .header ∧ 5 ≤ d.inp.length - d.cp := by decide

theorem witness_RawHeaderOutputsItsPayload_cut :
    let d := (atHeader [0x5A, 0x56, 0, 0, 1] 0).decoder
    d.phase = .header ∧ 1#16 ≠ 0#16 ∧ d.inp.length - d.cp - 5 < (1#16).toNat := by decide

theorem witness_CompressedHeaderStartsTokenStream_runs :
    let d := (atHeader [0x5A, 0x56, 1, 0, 2, 0, 2, 0, 0x61] 0).decoder
    d.phase = .header ∧ 7 ≤ d.inp.length - d.cp ∧ 2#16 ≠ 0#16 ∧ (2#16).toNat ≤ (2#16).toNat ∧
      (2#16).toNat ≤ d.inp.length - d.cp - 7 := by decide

theorem witness_CompressedHeaderStartsTokenStream_lengths :
    let d := (atHeader [0x5A, 0x56, 1, 0, 2, 0, 3] 0).decoder
    d.phase = .header ∧ 7 ≤ d.inp.length - d.cp ∧ (2#16).toNat < (3#16).toNat := by decide

theorem witness_CompressedHeaderStartsTokenStream_cut :
    let d := (atHeader [0x5A, 0x56, 1, 0, 2, 0, 2, 0] 0).decoder
    d.phase = .header ∧ 2#16 ≠ 0#16 ∧ (2#16).toNat ≤ (2#16).toNat ∧ d.inp.length - d.cp - 7 < (2#16).toNat := by decide

theorem witness_CopyRepeatsWithPeriodOffset :
    1 ≤ 2 ∧ 2 ≤ (bytes [0x61, 0x62]).length ∧ (2 : Nat) ≤ 2 := by decide

theorem witness_TokensComplete_lit :
    let d := (inTokens [0, 0x61] 0 [0x62] 2#16).decoder
    d.phase = .tokens ∧ d.tp + (1 + [0x61#8].length) ≤ d.pe ∧ d.window.length + [0x61#8].length ≤ d.orig.toNat := by
  decide

/-- The offset equals the window, the payload ends with the token, and the output fills the chunk. -/
theorem witness_TokensComplete_refS :
    let d := (inTokens [0x20, 1] 0 [0x61, 0x62] 5#16).decoder
    d.phase = .tokens ∧ d.tp + 2 ≤ d.pe ∧ (1#13).toNat + 1 ≤ d.window.length ∧
      d.window.length + ((1#3).toNat + 2) ≤ d.orig.toNat := by decide

theorem witness_TokensComplete_refL :
    let d := (inTokens [0xE0, 255, 1] 0 [0x61, 0x62] 266#16).decoder
    d.phase = .tokens ∧ d.tp + 3 ≤ d.pe ∧ (1#13).toNat + 1 ≤ d.window.length ∧
      d.window.length + ((255#8).toNat + 9) ≤ d.orig.toNat := by decide

theorem witness_TokensFailInOrder_cut :
    let d := (inTokens [0xE0, 0] 0 [0x61] 99#16).decoder
    d.phase = .tokens ∧ d.pe < d.tp + (TokenForm.refL 0#8 0#13).size := by decide

theorem witness_TokensFailInOrder_offset :
    let d := (inTokens [0x20, 1] 0 [0x61] 99#16).decoder
    d.phase = .tokens ∧ tokOf (.refS 1#3 1#13) = .ref 2 3 ∧ d.tp + (TokenForm.refS 1#3 1#13).size ≤ d.pe ∧
      d.window.length < 2 := by decide

theorem witness_TokensFailInOrder_refOutput :
    let d := (inTokens [0x20, 0] 0 [0x61] 3#16).decoder
    d.phase = .tokens ∧ tokOf (.refS 1#3 0#13) = .ref 1 3 ∧ d.tp + (TokenForm.refS 1#3 0#13).size ≤ d.pe ∧
      1 ≤ d.window.length ∧ d.orig.toNat < d.window.length + 3 := by decide

theorem witness_TokensFailInOrder_litOutput :
    let d := (inTokens [0, 0x62] 0 [0x61] 1#16).decoder
    d.phase = .tokens ∧ tokOf (.lit [0x62#8]) = .run [0x62#8] ∧ d.tp + (TokenForm.lit [0x62#8]).size ≤ d.pe ∧
      d.orig.toNat < d.window.length + [0x62#8].length := by decide

/-- A run of 32, cut by one byte, past originalLength by one byte, and just fitting. -/
theorem witness_StepAtLiteralControlByte :
    let cut := (inTokens (0x1F :: List.replicate 31 7) 0 [] 99#16).decoder
    let past := (inTokens (0x1F :: List.replicate 32 7) 0 [] 31#16).decoder
    let fits := (inTokens (0x1F :: List.replicate 32 7) 0 [] 32#16).decoder
    (∀ d ∈ [cut, past, fits], d.phase = .tokens ∧ d.tp < d.pe ∧ d.pe ≤ d.inp.length ∧
      (d.inp.getD d.tp 0#8).toNat / 32 = 0 ∧ (d.inp.getD d.tp 0#8).toNat % 32 + 1 = 32) ∧
    cut.pe < cut.tp + 1 + 32 ∧
    (past.tp + 1 + 32 ≤ past.pe ∧ past.orig.toNat < past.window.length + 32) ∧
    (fits.tp + 1 + 32 ≤ fits.pe ∧ fits.window.length + 32 ≤ fits.orig.toNat) := by decide

/-- `REF 2, 8`: cut, with a window of 1, past originalLength by one byte, and just fitting. -/
theorem witness_StepAtShortBackreference :
    let cut := (inTokens [0xC0] 0 [0x61, 0x62] 10#16).decoder
    let far := (inTokens [0xC0, 1] 0 [0x61] 10#16).decoder
    let past := (inTokens [0xC0, 1] 0 [0x61, 0x62] 9#16).decoder
    let fits := (inTokens [0xC0, 1] 0 [0x61, 0x62] 10#16).decoder
    (∀ d ∈ [cut, far, past, fits], d.phase = .tokens ∧ d.tp < d.pe ∧ d.pe ≤ d.inp.length ∧
      (d.inp.getD d.tp 0#8).toNat / 32 = 6) ∧
    cut.pe < cut.tp + 2 ∧
    (far.tp + 2 ≤ far.pe ∧ far.window.length < 2) ∧
    (past.tp + 2 ≤ past.pe ∧ 2 ≤ past.window.length ∧ past.orig.toNat < past.window.length + 8) ∧
    (fits.tp + 2 ≤ fits.pe ∧ 2 ≤ fits.window.length ∧ fits.window.length + 8 ≤ fits.orig.toNat) := by decide

/-- `REF 2, 9`: cut, with a window of 1, past originalLength by one byte, and just fitting. -/
theorem witness_StepAtLongBackreference :
    let cut := (inTokens [0xE0, 0] 0 [0x61, 0x62] 11#16).decoder
    let far := (inTokens [0xE0, 0, 1] 0 [0x61] 11#16).decoder
    let past := (inTokens [0xE0, 0, 1] 0 [0x61, 0x62] 10#16).decoder
    let fits := (inTokens [0xE0, 0, 1] 0 [0x61, 0x62] 11#16).decoder
    (∀ d ∈ [cut, far, past, fits], d.phase = .tokens ∧ d.tp < d.pe ∧ d.pe ≤ d.inp.length ∧
      (d.inp.getD d.tp 0#8).toNat / 32 = 7) ∧
    cut.pe < cut.tp + 3 ∧
    (far.tp + 3 ≤ far.pe ∧ far.window.length < 2) ∧
    (past.tp + 3 ≤ past.pe ∧ 2 ≤ past.window.length ∧ past.orig.toNat < past.window.length + 9) ∧
    (fits.tp + 3 ≤ fits.pe ∧ 2 ≤ fits.window.length ∧ fits.window.length + 9 ≤ fits.orig.toNat) := by decide

theorem witness_PayloadEndChecksOutputLength :
    let short := (inTokens [0, 0x61] 2 [0x61] 2#16).decoder
    let full := (inTokens [0, 0x61] 2 [0x61] 1#16).decoder
    (short.phase = .tokens ∧ short.tp = short.pe ∧ short.window.length ≠ short.orig.toNat) ∧
    (full.phase = .tokens ∧ full.tp = full.pe ∧ full.window.length = full.orig.toNat) := by decide

theorem witness_FormsOutOfContextAreRefused :
    State.reset.decoder.phase ≠ .tokens ∧ State.reset.decoder.phase ≠ .header ∧
      (atHeader [] 0).decoder.phase ≠ .tokens ∧ (inTokens [] 0 [] 1#16).decoder.phase ≠ .header := by decide

theorem witness_DecodeReturnsBytesOrFirstError :
    (atHeader [] 0).decoder.phase ≠ .idle ∧ decodeAll (bytes [0x5A, 0x56, 0, 0, 1, 0x21]) = .ok [0x21#8] ∧
      decodeAll (bytes [0x5A, 0x56, 0, 0, 1]) = .error { kind := .truncatedInput, pos := 0 } := by decide

theorem witness_DecodeGoesChunkByChunk :
    decodeChunk (bytes [0x5A]) 0 = .error { kind := .truncatedInput, pos := 0 } ∧
      decodeChunk (bytes [0x5A, 0x56, 0, 0, 1, 0x21, 0x5A]) 0 = .ok ([0x21#8], 6) ∧
      decodeAll ((bytes [0x5A, 0x56, 0, 0, 1, 0x21, 0x5A]).drop 6) = .error { kind := .truncatedInput, pos := 0 } ∧
      decodeAll ((bytes [0x5A, 0x56, 0, 0, 1, 0x21]).drop 6) = .ok [] := by decide

theorem witness_DecodeOfConcatenation :
    decodeAll (bytes [0x5A, 0x56, 0, 0, 1, 0x21]) = .ok [0x21#8] ∧ decodeAll [] = .ok [] ∧
      decodeAll (bytes [0x5A, 0x57]) = .error { kind := .malformedChunk, pos := 0 } := by decide

theorem witness_SteppingFormsReachesDecode :
    ∃ t, exec (.decode (bytes [0x5A, 0x56, 1, 0, 4, 0, 4, 0, 0x61, 0x20, 0])) .reset = .next t := ⟨_, rfl⟩

theorem witness_LookupPrecedesInsert : htWf [(0, 65532), (16383, 0)] = true := by decide

/-- `aaab`, `p = 1`, `c = 0`: a mismatch after no byte, and `aaaa`: agreement to the end of the slice. -/
theorem witness_MeasureIsTheLongestAgreement :
    let S := bytes [0x61, 0x61, 0x61, 0x61]
    let D := bytes [0x61, 0x61, 0x61, 0x62]
    (0 < 1 ∧ 1 + 3 ≤ S.length ∧ 1 - 0 ≤ 8192 ∧ ∀ i, i < 3 → S.getD (0 + i) 0#8 = S.getD (1 + i) 0#8) ∧
    (1 + 3 ≤ D.length ∧ ∃ i, i < 3 ∧ D.getD (0 + i) 0#8 ≠ D.getD (1 + i) 0#8) ∧ 8192 < 8193 - 0 :=
  ⟨by decide, ⟨by decide, 2, by decide⟩, by decide⟩

/-- V-M2: `aaaa` is `LIT "a"`, `REF 1, 3`. -/
theorem witness_EveryMatchIsLegal :
    tokenize .reference (List.replicate 4 0x61#8) = [.run [0x61#8]] ++ .ref 1 3 :: [] := by decide

theorem witness_LiteralRunsAreSplitFrontFirst :
    Tok.run [0x61#8] ∈ tokenize .reference (List.replicate 4 0x61#8) := by decide

/-- The header lengths of R100 and R101 at both ends of their ranges, and next to them. -/
theorem witness_HeaderBytesAreBigEndian :
    (1 ≤ (1#16).toNat ∧ 1 ≤ (65535#16).toNat ∧ (65535#16).toNat ≤ (65535#16).toNat) ∧ (0#16).toNat = 0 ∧
      (3#16).toNat < (4#16).toNat := by decide

/-- `aaaa`, the scan written out: position 0 stays pending, position 1 matches 3 bytes at offset 1 and ends the
slice. -/
theorem witness_TokenizeScansGreedily :
    Scans .reference (List.replicate 4 0x61#8) htEmpty 0 0 [.run [0x61#8], .ref 1 3] :=
  .pending _ (htSet htEmpty (hash3 0x61#8 0x61#8 0x61#8) 0) _ _ _ (by decide) (by decide)
    (.accepted _ (htSet htEmpty (hash3 0x61#8 0x61#8 0x61#8) 1) _ _ 1 3 [] (by decide) (by decide)
      (.tail _ _ _ (by decide)))

/-- V-E21 shrinks by one byte; V-E4 is of equal size. -/
theorem witness_CompressedExactlyWhenItShrinks :
    (pack (tokenize .reference (List.replicate 5 0x61#8))).length < (List.replicate 5 0x61#8).length ∧
      (List.replicate 4 0x61#8).length ≤ (pack (tokenize .reference (List.replicate 4 0x61#8))).length := by decide

theorem witness_DecodeOfEncodeIsTheInput : 1 ≤ [0x61#8].length ∧ [0x61#8].length ≤ 65535 := by decide

/-- Both ends of the legal range, and the sizes next to them. -/
theorem witness_WriterOpens : (1 ≤ 1 ∧ 65535 ≤ 65535) ∧ 0 < 1 ∧ 65535 < 65536 := by decide

/-- A buffer one byte short of a block. -/
theorem witness_WriteForwardsFullBlocks :
    let w := aWriter .opened 4#16 [1, 2, 3] []
    (holding [.writer w]).instances[0]? = some (.writer w) ∧ w.state = .opened ∧ w.buf.length < w.block.toNat := by
  decide

theorem witness_FlushForwardsPartialBlock :
    let w := aWriter .opened 4#16 [1] []
    let e := aWriter .opened 4#16 [] []
    (holding [.writer w, .writer e]).instances[0]? = some (.writer w) ∧ w.state = .opened ∧ w.buf ≠ [] ∧
      (holding [.writer w, .writer e]).instances[1]? = some (.writer e) ∧ e.state = .opened ∧ e.buf = [] := by decide

theorem witness_CloseForwardsAndReleases :
    let w := aWriter .opened 4#16 [1] []
    let e := aWriter .opened 4#16 [] []
    let c := aWriter .closed 4#16 [] []
    let s := holding [.writer w, .writer e, .writer c]
    s.instances[0]? = some (.writer w) ∧ w.state = .opened ∧ w.buf ≠ [] ∧ s.instances[1]? = some (.writer e) ∧
      e.state = .opened ∧ e.buf = [] ∧ s.instances[2]? = some (.writer c) ∧ c.state = .closed := by decide

theorem witness_ClosedWriterRaisesStreamClosed :
    let w := aWriter .closed 4#16 [] []
    (holding [.writer w]).instances[0]? = some (.writer w) ∧ w.state = .closed := by decide

theorem witness_StreamingEqualsBlock : 1 ≤ 65535 ∧ 65535 ≤ 65535 := by decide

theorem witness_ReadServesWithoutFetching :
    let r (state : ReaderState) (buf : List Nat) (err : BitVec 3) := aReader state buf 0 0 err []
    let s := holding [.reader (r .closed [] 0#3), .reader (r .error [] 3#3), .reader (r .eof [] 0#3),
      .reader (r .opened [] 0#3), .reader (r .opened [7] 0#3)]
    s.instances[0]? = some (.reader (r .closed [] 0#3)) ∧ s.instances[1]? = some (.reader (r .error [] 3#3)) ∧
      s.instances[2]? = some (.reader (r .eof [] 0#3)) ∧
      (s.instances[3]? = some (.reader (r .opened [] 0#3)) ∧ 1 ≤ 1 ∧ (r .opened [] 0#3).pos = (r .opened [] 0#3).buf.length ∧
        (r .opened [] 0#3).srcPos = (r .opened [] 0#3).src.length) ∧
      (s.instances[4]? = some (.reader (r .opened [7] 0#3)) ∧ (r .opened [7] 0#3).pos < (r .opened [7] 0#3).buf.length) := by
  decide

theorem witness_ReadFetchesOneChunk :
    let good := aReader .opened [] 0 0 0#3 [0x5A, 0x56, 0, 0, 1, 0x21]
    let bad := aReader .opened [] 0 0 0#3 [0x5A]
    let s := holding [.reader good, .reader bad]
    (s.instances[0]? = some (.reader good) ∧ good.state = .opened ∧ 1 ≤ 1 ∧ good.pos = good.buf.length ∧
      good.srcPos < good.src.length ∧ decodeChunk good.src good.srcPos = .ok ([0x21#8], 6)) ∧
    (s.instances[1]? = some (.reader bad) ∧ bad.state = .opened ∧ bad.pos = bad.buf.length ∧
      bad.srcPos < bad.src.length ∧ decodeChunk bad.src bad.srcPos = .error { kind := .truncatedInput, pos := 0 }) := by
  decide

theorem witness_ReaderCloses :
    let e := aReader .error [] 0 0 2#3 [1]
    let c := aReader .closed [] 0 0 0#3 [1]
    (holding [.reader e, .reader c]).instances[0]? = some (.reader e) ∧ e.state ≠ .closed ∧
      (holding [.reader e, .reader c]).instances[1]? = some (.reader c) ∧ c.state = .closed := by decide

theorem witness_ReaderEqualsDecode :
    (∀ k ∈ [1, 5], 1 ≤ k) ∧ decodeAll (bytes [0x5A, 0x56, 0, 0, 1, 0x21]) = .ok [0x21#8] ∧
      decodeAll (bytes [0x5A, 0x56, 0, 0, 1, 0x21, 0x5A]) = .error { kind := .truncatedInput, pos := 6 } := by decide

end Sys2Proof.Tests
end

/-! # Proofs: the state (10_state.md)

The legal-state invariant, STATUS, what a step may do to the Writers and Readers, and the scan of Tokenize. -/

namespace Sys2Proof.Machine

/-! ## What an operation does, where the model's laws do not say it yet -/

/-- A Writer operation that answers a next state found a Writer at its handle. -/
theorem writerOp_found {i : Instr} {s t : State} {h : Nat}
    (hi : (∃ d, i = .wWrite h d) ∨ i = .wFlush h ∨ i = .wClose h) (hn : exec i s = .next t) :
    ∃ w, s.instances[h]? = some (.writer w) := by
  rcases hi with ⟨d, rfl⟩ | rfl | rfl
  · obtain ⟨w, hw, -⟩ := onWriter_next (show onWriter s h (writeTo h d s) = .next t from hn)
    exact ⟨w, hw⟩
  · obtain ⟨w, hw, -⟩ := onWriter_next (show onWriter s h (flushWriter h s) = .next t from hn)
    exact ⟨w, hw⟩
  · obtain ⟨w, hw, -⟩ := onWriter_next (show onWriter s h (closeWriter h s) = .next t from hn)
    exact ⟨w, hw⟩

/-- A read that answers a next state found a Reader at its handle. -/
theorem readOp_found {s t : State} {h k : Nat} (hn : exec (.rRead h k) s = .next t) :
    ∃ r, s.instances[h]? = some (.reader r) := by
  obtain ⟨r, hr, -⟩ := onReader_next (show onReader s h (readFrom h k s) = .next t from hn)
  exact ⟨r, hr⟩

/-- What R_CLOSE may do, once (R219). -/
theorem closeReaderOp_cases {s t : State} {h : Nat} (hn : exec (.rClose h) s = .next t) :
    ∃ r, s.instances[h]? = some (.reader r) ∧
      ((r.state = .closed ∧ t = s.complete .ok) ∨
        (r.state ≠ .closed ∧
          t = (s.setInst h (.reader { r with state := .closed, buf := [], pos := 0, err := 0#3 })).complete .ok)) := by
  obtain ⟨r, hr, rfl⟩ := onReader_next (show onReader s h (closeReader h s) = .next t from hn)
  refine ⟨r, hr, ?_⟩
  by_cases hst : r.state = .closed
  · exact .inl ⟨hst, closeReader_closed hst⟩
  · exact .inr ⟨hst, closeReader_other hst⟩

/-- What W_OPEN may do, once (R200). -/
theorem writerOpen_cases {s t : State} {sink : List Byte} {n : Nat} (hn : exec (.wOpen sink n) s = .next t) :
    t = s.raise { kind := .invalidBlockSize, pos := 0 } ∨
      (1 ≤ n ∧ n ≤ 65535 ∧ t = (s.addInst (.writer
        { state := .opened, block := BitVec.ofNat 16 n, buf := [], sink := sink })).complete
          (.handle s.instances.length)) := by
  replace hn : execWOpen sink n s = .next t := hn
  unfold execWOpen at hn
  split at hn
  · exact .inl (Host.Outcome.next.inj hn).symm
  · exact .inr ⟨by omega, by omega, (Host.Outcome.next.inj hn).symm⟩

/-- What R_OPEN does (R210). -/
theorem readerOpen_next {s t : State} {src : List Byte} (hn : exec (.rOpen src) s = .next t) :
    t = (s.addInst (.reader
      { state := .opened, buf := [], pos := 0, srcPos := 0, err := 0#3, src := src })).complete
        (.handle s.instances.length) :=
  (Host.Outcome.next.inj hn).symm

/-- What ENCODE does (R140). -/
theorem encode_next {s t : State} {input : List Byte} (hn : exec (.encode input) s = .next t) :
    t = s.leaveEncoder.complete (.bytes (encodeAll Config.encPolicy input)) :=
  (Host.Outcome.next.inj hn).symm

/-- What a token may do, once (R178): end the DECODE, or pass its checks and move `tp` and the window. -/
theorem execToken_cases {f : TokenForm} {s t : State} (hn : execToken f s = .next t) :
    s.decoder.phase = .tokens ∧
      ((∃ e, t = decodeFails s e) ∨
        (s.decoder.tp + f.size ≤ s.decoder.pe ∧
          s.decoder.window.length + (tokOf f).count ≤ s.decoder.orig.toNat ∧
          t = { s with decoder :=
            { s.decoder with tp := s.decoder.tp + f.size, window := tokenEmit (tokOf f) s.decoder.window } })) := by
  cases hp : s.decoder.phase with
  | idle => simp [execToken, hp] at hn
  | header => simp [execToken, hp] at hn
  | tokens =>
    refine ⟨rfl, ?_⟩
    cases hc : tokenCheck (tokOf f) f.size s.decoder.tp s.decoder.pe s.decoder.window.length s.decoder.orig.toNat with
    | some k =>
      rw [execToken_error hp hc] at hn
      exact .inl ⟨_, (Host.Outcome.next.inj hn).symm⟩
    | none =>
      rw [execToken_ok hp hc] at hn
      obtain ⟨hpe, horig, -⟩ := tokenCheck_none_iff.mp hc
      exact .inr ⟨hpe, horig, (Host.Outcome.next.inj hn).symm⟩

/-- What the end of a payload may do, once (R185): end the DECODE, or output a window of originalLength bytes. -/
theorem finishPayload_cases (s : State) :
    (∃ e, finishPayload s = decodeFails s e) ∨
      (s.decoder.window.length = s.decoder.orig.toNat ∧
        finishPayload s = { s with decoder :=
          { s.decoder with phase := .header, cp := s.decoder.pe, out := s.decoder.out ++ s.decoder.window } }) := by
  by_cases hlen : s.decoder.window.length = s.decoder.orig.toNat
  · exact .inr ⟨hlen, by simp [finishPayload, endTokens, hlen]⟩
  · exact .inl ⟨{ kind := .malformedChunk, pos := s.decoder.tp }, by simp [finishPayload, endTokens, hlen]⟩

@[simp] theorem decodeFails_instances (s : State) (e : Raise) : (decodeFails s e).instances = s.instances := rfl

@[simp] theorem finishInput_instances (s : State) : (finishInput s).instances = s.instances := rfl

@[simp] theorem finishPayload_instances (s : State) : (finishPayload s).instances = s.instances := by
  rcases finishPayload_cases s with ⟨e, h⟩ | ⟨-, h⟩ <;> rw [h]
  exact decodeFails_instances s e

theorem execToken_instances {f : TokenForm} {s t : State} (hn : execToken f s = .next t) :
    t.instances = s.instances := by
  obtain ⟨-, ⟨e, rfl⟩ | ⟨-, -, rfl⟩⟩ := execToken_cases hn
  · exact decodeFails_instances s e
  · rfl

@[simp] theorem serve_instances (h k : Nat) (s : State) (r : ReaderInst) :
    (serve h k s r).instances =
      s.instances.set h (.reader { r with pos := r.pos + min k (r.buf.length - r.pos) }) := rfl

@[simp] theorem failReader_instances (h : Nat) (s : State) (r : ReaderInst) (e : Raise) :
    (failReader h s r e).instances =
      s.instances.set h (.reader { r with state := .error, err := e.kind.code, buf := [], pos := 0 }) := rfl

/-! ## Every step keeps a state legal -/

theorem decodeUnitOk_header {d : DecodeUnit} (hp : d.phase = .header) :
    decodeUnitOk d = true ↔ d.cp ≤ d.inp.length := by
  simp [decodeUnitOk, hp]

theorem decodeUnitOk_tokens {d : DecodeUnit} (hp : d.phase = .tokens) :
    decodeUnitOk d = true ↔ d.tp ≤ d.pe ∧ d.pe ≤ d.inp.length ∧ d.window.length ≤ d.orig.toNat := by
  simp [decodeUnitOk, hp, and_assoc]

theorem State.ok_decoder {s : State} (hs : s.ok = true) : decodeUnitOk s.decoder = true :=
  ((State.ok_iff s).mp hs).2.2.1

theorem State.ok_setDecoder {s : State} {d : DecodeUnit} (hs : s.ok = true) (hd : decodeUnitOk d = true) :
    State.ok { s with decoder := d } = true := by
  obtain ⟨hstatus, hinsts, -, htable⟩ := (State.ok_iff s).mp hs
  exact (State.ok_iff _).mpr ⟨hstatus, hinsts, hd, htable⟩

theorem State.ok_afterReset (s : State) : s.afterReset.ok = true :=
  (State.ok_iff _).mpr ⟨rfl, by simp, rfl, freeEncodeUnit_table_wf _⟩

theorem State.ok_reset : State.reset.ok = true :=
  (State.ok_iff _).mpr ⟨rfl, by simp, rfl, htEmpty_wf⟩

theorem ok_decodeFails {s : State} (e : Raise) (hs : s.ok = true) : (decodeFails s e).ok = true :=
  State.ok_raise (State.ok_leaveDecoder hs)

theorem ok_finishInput {s : State} (hs : s.ok = true) : (finishInput s).ok = true :=
  State.ok_complete (State.ok_leaveDecoder hs) (by simp)

/-- The payload's end is inside the input, so the chunk loop goes on inside it. -/
theorem ok_finishPayload {s : State} (hs : s.ok = true) (hp : s.decoder.phase = .tokens) :
    (finishPayload s).ok = true := by
  rcases finishPayload_cases s with ⟨e, h⟩ | ⟨-, h⟩ <;> rw [h]
  · exact ok_decodeFails e hs
  · obtain ⟨-, hpe, -⟩ := (decodeUnitOk_tokens hp).mp (State.ok_decoder hs)
    exact State.ok_setDecoder hs ((decodeUnitOk_header rfl).mpr hpe)

/-- A token that passed its checks has left `tp` inside the payload and the window within originalLength. -/
theorem ok_execToken {f : TokenForm} {s t : State} (hs : s.ok = true) (hn : execToken f s = .next t) :
    t.ok = true := by
  obtain ⟨hp, ⟨e, rfl⟩ | ⟨htp, hwindow, rfl⟩⟩ := execToken_cases hn
  · exact ok_decodeFails e hs
  · obtain ⟨-, hpe, -⟩ := (decodeUnitOk_tokens hp).mp (State.ok_decoder hs)
    refine State.ok_setDecoder hs ((decodeUnitOk_tokens (by exact hp)).mpr ⟨htp, hpe, ?_⟩)
    rw [tokenEmit_length]
    exact hwindow

/-- A header that parsed has its whole payload in the input. -/
theorem enterChunk_ok {h : HeaderForm} {d : DecodeUnit} (hp : d.phase = .header)
    (hparse : parseHeader d.inp d.cp = .ok h) : decodeUnitOk (enterChunk h d) = true := by
  obtain ⟨hfits, hpos, -, -⟩ := headerCheck_none (parseHeader_ok_iff.mp hparse).2
  cases h with
  | raw n =>
    simp only [HeaderForm.size, HeaderForm.payloadLen] at hfits hpos
    exact (decodeUnitOk_header (by exact hp)).mpr (show d.cp + 5 + n.toNat ≤ d.inp.length by omega)
  | comp n m =>
    simp only [HeaderForm.size, HeaderForm.payloadLen] at hfits hpos
    exact (decodeUnitOk_tokens rfl).mpr
      ⟨Nat.le_add_right _ _, show d.cp + 7 + m.toNat ≤ d.inp.length by omega, Nat.zero_le _⟩

theorem ok_writerOpen {s t : State} {sink : List Byte} {n : Nat} (hs : s.ok = true)
    (hn : exec (.wOpen sink n) s = .next t) : t.ok = true := by
  obtain rfl | ⟨h1, h2, rfl⟩ := writerOpen_cases hn
  · exact State.ok_raise hs
  · refine State.ok_complete (State.ok_addInst hs (writerOk_iff.mpr ⟨?_, fun _ => rfl⟩)) (by simp)
    rw [lengthField_toNat h2]
    exact h1

/-- A Writer operation keeps fewer bytes than a block in the buffer, and none in a Writer it closes (R203, R205). -/
theorem ok_writerOp {i : Instr} {s t : State} {h : Nat} (hs : s.ok = true)
    (hi : (∃ d, i = .wWrite h d) ∨ i = .wFlush h ∨ i = .wClose h) (hn : exec i s = .next t) : t.ok = true := by
  obtain ⟨w, hw⟩ := writerOp_found hi hn
  obtain ⟨hbuf, -⟩ := writerOk_iff.mp (State.ok_inst hs hw)
  obtain ⟨-, rfl | rfl⟩ | ⟨-, bs, w', rfl, hblock, -, hclosed, hbuf'⟩ := writerOp_cases hw hi hn
  · exact State.ok_raise hs
  · exact State.ok_complete hs (by simp)
  · exact ok_completeWriter hs (writerOk_iff.mpr ⟨hblock ▸ hbuf' hbuf, hclosed⟩)

/-- A read leaves a legal Reader in each of its eight cases (R211 to R218). -/
theorem ok_readOp {s t : State} {h k : Nat} (hs : s.ok = true) (hn : exec (.rRead h k) s = .next t) :
    t.ok = true := by
  obtain ⟨r, hr⟩ := readOp_found hn
  have hrOk : readerOk r = true := State.ok_inst hs hr
  obtain ⟨-, -, hsrc, -, herr, hnoErr⟩ := readerOk_iff.mp hrOk
  rcases readOp_cases hr hn with ⟨-, rfl⟩ | ⟨hst, rfl⟩ | ⟨-, rfl⟩ | ⟨-, -, rfl⟩ | ⟨-, -, -, rfl⟩ |
    ⟨hst, -, -, -, rfl⟩ | ⟨hst, -, -, -, chunk, next, hc, rfl⟩ | ⟨-, -, -, -, e, hc, rfl⟩
  · exact State.ok_raise hs
  · -- ERROR raises `R_ERR` again
    obtain ⟨h1, h3⟩ := herr hst
    exact State.ok_raiseCode hs h1 (by omega)
  · exact State.ok_complete hs (by simp)
  · exact State.ok_complete hs (by simp)
  · exact ok_serve hs hrOk
  · -- the source is at its end: EOF
    refine State.ok_complete (State.ok_setInst hs (readerOk_iff.mpr ?_)) (by simp)
    simp [hsrc, hnoErr (by simp [hst])]
  · -- a fetched chunk lies in the source and has at most 65535 bytes
    obtain ⟨-, -, -, -, -, hnext, -, hlen⟩ := decodeChunk_ok hc
    refine ok_serve (State.ok_leaveOwnDecoder hs) (readerOk_iff.mpr ?_)
    simp [hlen, hnext, hst, hnoErr (by simp [hst])]
  · -- a fetch fails with kind 1, 2 or 3 only
    refine State.ok_raise (State.ok_setInst (State.ok_leaveOwnDecoder hs) (readerOk_iff.mpr ?_))
    simpa [hsrc] using decodeChunk_error_kind hc

theorem ok_closeReaderOp {s t : State} {h : Nat} (hs : s.ok = true) (hn : exec (.rClose h) s = .next t) :
    t.ok = true := by
  obtain ⟨r, hr, ⟨-, rfl⟩ | ⟨-, rfl⟩⟩ := closeReaderOp_cases hn
  · exact State.ok_complete hs (by simp)
  · obtain ⟨-, -, hsrc, -⟩ := readerOk_iff.mp (State.ok_inst hs hr)
    refine State.ok_complete (State.ok_setInst hs (readerOk_iff.mpr ?_)) (by simp)
    simp [hsrc]

/-- Every operation of R12 keeps a state legal. -/
theorem ok_operation {i : Instr} {s t : State} (hop : isOperation i = true) (hs : s.ok = true)
    (hn : exec i s = .next t) : t.ok = true := by
  cases i with
  | lit | refS | refL | hdrRaw | hdrComp => simp [isOperation] at hop
  | encode input =>
    rw [encode_next hn]
    exact State.ok_complete (State.ok_leaveEncoder hs) (by simp)
  | decode input =>
    obtain ⟨out, -, rfl⟩ | ⟨e, -, rfl⟩ := execDecode_cases hn
    · exact State.ok_complete (State.ok_leaveOwnDecoder hs) (by simp)
    · exact State.ok_raise (State.ok_leaveOwnDecoder hs)
  | wOpen sink n => exact ok_writerOpen hs hn
  | wWrite h data => exact ok_writerOp hs (.inl ⟨data, rfl⟩) hn
  | wFlush h => exact ok_writerOp hs (.inr (.inl rfl)) hn
  | wClose h => exact ok_writerOp hs (.inr (.inr rfl)) hn
  | rOpen src =>
    rw [readerOpen_next hn]
    exact State.ok_complete (State.ok_addInst hs rfl) (by simp)
  | rRead h k => exact ok_readOp hs hn
  | rClose h => exact ok_closeReaderOp hs hn

/-- Settles O3: each unit that may act in a step keeps the state legal. -/
theorem everyStepKeepsLegalState : Obligations.EveryStepKeepsLegalState := by
  intro s t hs hn
  rcases step_cases hn with ⟨-, -, rfl⟩ | ⟨rest, -, -, rfl⟩ | ⟨code, args, rest, -, -, hcommand⟩ |
    ⟨hp, -, hheader⟩ | ⟨-, -, rfl⟩ | ⟨-, -, htoken⟩ | ⟨hp, -, rfl⟩
  · exact hs
  · exact State.ok_afterReset _
  · have hrest : State.ok { s with inputs := rest } = true := hs
    obtain ⟨i, hi, hexec⟩ | rfl := hcommand
    · exact ok_operation (decodeCommand_operation hi) hrest hexec
    · exact State.ok_raise hrest
  · obtain ⟨hd, hparse, rfl⟩ | ⟨e, -, rfl⟩ := hheader
    · exact State.ok_setDecoder hs (enterChunk_ok hp hparse)
    · exact ok_decodeFails e hs
  · exact ok_finishInput hs
  · obtain ⟨f, -, hexec⟩ | rfl := htoken
    · exact ok_execToken hs hexec
    · exact ok_decodeFails _ hs
  · exact ok_finishPayload hs hp

/-- Settles O2: the invariant of O3 holds at reset. -/
theorem resetStateIsLegal : Obligations.ResetStateIsLegal := State.ok_reset

/-- Settles O1, register by register. -/
theorem resetClearsStatusAndInstances : Obligations.ResetClearsStatusAndInstances :=
  ⟨State.reset_instances, rfl, rfl, State.reset_result, State.reset_releasedSinks, State.reset_inputs, rfl⟩

/-! ## STATUS at the end of an operation -/

/-- What it means that STATUS agrees with the result (R23, R24). -/
theorem statusOk_cases {st : Status} {r : Result} (h : statusOk st r = true) :
    (st = .success ∧ ∀ c p, r ≠ .error c p) ∨
      ∃ c p, st = .failure c p ∧ r = .error c p ∧ 1 ≤ c.toNat ∧ c.toNat ≤ 6 := by
  cases r with
  | error c p =>
    simp only [statusOk, Bool.and_eq_true, decide_eq_true_eq] at h
    obtain ⟨hst, h1, h6⟩ := h
    exact .inr ⟨c, p, hst, rfl, h1, h6⟩
  | none | ok | bytes | endSignal | handle =>
    exact .inl ⟨of_decide_eq_true h, by simp⟩

/-- Settles O8: an operation keeps a state legal, and in a legal state STATUS agrees with the result. -/
theorem everyOperationWritesStatus : Obligations.EveryOperationWritesStatus := by
  intro i s t hop hs hn
  obtain ⟨hstatus, -⟩ := (State.ok_iff t).mp (ok_operation hop hs hn)
  exact statusOk_cases hstatus

/-! ## What a step may make of a Writer or Reader -/

/-- What a step that is no reset may make of a Writer or Reader (R25, R26, R215): a Writer keeps its block size and a Reader
its source, a source position does not fall, and CLOSED is terminal. -/
def Inst.becomes : Inst → Inst → Prop
  | .writer w, .writer w' => w'.block = w.block ∧ (w.state = .closed → w' = w)
  | .reader r, .reader r' => r'.src = r.src ∧ r.srcPos ≤ r'.srcPos ∧ (r.state = .closed → r' = r)
  | .writer _, .reader _ => False
  | .reader _, .writer _ => False

theorem Inst.becomes_refl (i : Inst) : i.becomes i := by
  cases i with
  | writer w => exact ⟨rfl, fun _ => rfl⟩
  | reader r => exact ⟨rfl, le_rfl, fun _ => rfl⟩

/-- Every entry of one table stands at its handle in the other, as something it may become. -/
def instancesBecome (a b : List Inst) : Prop :=
  ∀ (h : Nat) (i : Inst), a[h]? = some i → ∃ j, b[h]? = some j ∧ i.becomes j

theorem instancesBecome_refl (a : List Inst) : instancesBecome a a :=
  fun _ i hi => ⟨i, hi, i.becomes_refl⟩

theorem instancesBecome_append (a b : List Inst) : instancesBecome a (a ++ b) := by
  intro h i hi
  have hlt : h < a.length := (List.getElem?_eq_some_iff.mp hi).1
  exact ⟨i, by rw [List.getElem?_append_left hlt, hi], i.becomes_refl⟩

/-- Replacing one entry by one it may become. -/
theorem instancesBecome_set {a : List Inst} {h : Nat} {i j : Inst} (hi : a[h]? = some i) (hij : i.becomes j) :
    instancesBecome a (a.set h j) := by
  intro g i' hi'
  by_cases hg : h = g
  · subst hg
    obtain rfl : i = i' := Option.some.inj (hi.symm.trans hi')
    exact ⟨j, List.getElem?_set_self (List.getElem?_eq_some_iff.mp hi).1, hij⟩
  · exact ⟨i', by rw [List.getElem?_set_ne hg, hi'], i'.becomes_refl⟩

theorem writerOp_becomes {i : Instr} {s t : State} {h : Nat}
    (hi : (∃ d, i = .wWrite h d) ∨ i = .wFlush h ∨ i = .wClose h) (hn : exec i s = .next t) :
    instancesBecome s.instances t.instances := by
  obtain ⟨w, hw⟩ := writerOp_found hi hn
  obtain ⟨-, rfl | rfl⟩ | ⟨hst, bs, w', rfl, hblock, -⟩ := writerOp_cases hw hi hn
  · exact instancesBecome_refl _
  · exact instancesBecome_refl _
  · rw [completeWriter_instances]
    exact instancesBecome_set hw ⟨hblock, by simp [hst]⟩

/-- A read changes nothing, or makes of an OPEN Reader one with the same source, no less far in it. -/
theorem readOp_instances {s t : State} {h k : Nat} {r : ReaderInst} (hr : s.instances[h]? = some (.reader r))
    (hn : exec (.rRead h k) s = .next t) :
    t.instances = s.instances ∨ (r.state = .opened ∧ ∃ r', t.instances = s.instances.set h (.reader r') ∧
      r'.src = r.src ∧ r.srcPos ≤ r'.srcPos) := by
  rcases readOp_cases hr hn with ⟨-, rfl⟩ | ⟨-, rfl⟩ | ⟨-, rfl⟩ | ⟨-, -, rfl⟩ | ⟨hst, -, -, rfl⟩ |
    ⟨hst, -, -, -, rfl⟩ | ⟨hst, -, -, -, chunk, next, hc, rfl⟩ | ⟨hst, -, -, -, e, -, rfl⟩
  · exact .inl rfl
  · exact .inl rfl
  · exact .inl rfl
  · exact .inl rfl
  · exact .inr ⟨hst, _, rfl, rfl, le_rfl⟩
  · exact .inr ⟨hst, _, rfl, rfl, le_rfl⟩
  · obtain ⟨-, -, -, -, hlt, -⟩ := decodeChunk_ok hc
    rw [serve_instances, State.leaveOwnDecoder_instances]
    exact .inr ⟨hst, _, rfl, rfl, hlt.le⟩
  · rw [failReader_instances, State.leaveOwnDecoder_instances]
    exact .inr ⟨hst, _, rfl, rfl, le_rfl⟩

theorem readOp_becomes {s t : State} {h k : Nat} (hn : exec (.rRead h k) s = .next t) :
    instancesBecome s.instances t.instances := by
  obtain ⟨r, hr⟩ := readOp_found hn
  obtain heq | ⟨hst, r', heq, hsrc, hpos⟩ := readOp_instances hr hn <;> rw [heq]
  · exact instancesBecome_refl _
  · exact instancesBecome_set hr ⟨hsrc, hpos, by simp [hst]⟩

theorem closeReaderOp_becomes {s t : State} {h : Nat} (hn : exec (.rClose h) s = .next t) :
    instancesBecome s.instances t.instances := by
  obtain ⟨r, hr, ⟨-, rfl⟩ | ⟨hst, rfl⟩⟩ := closeReaderOp_cases hn
  · exact instancesBecome_refl _
  · exact instancesBecome_set hr ⟨rfl, le_rfl, fun hc => absurd hc hst⟩

/-- Every operation of R12 makes of a Writer or Reader only what R25, R26 and R215 allow. -/
theorem operation_becomes {i : Instr} {s t : State} (hop : isOperation i = true) (hn : exec i s = .next t) :
    instancesBecome s.instances t.instances := by
  cases i with
  | lit | refS | refL | hdrRaw | hdrComp => simp [isOperation] at hop
  | encode input =>
    rw [encode_next hn]
    exact instancesBecome_refl _
  | decode input =>
    obtain ⟨out, -, rfl⟩ | ⟨e, -, rfl⟩ := execDecode_cases hn
    · simpa using instancesBecome_refl _
    · simpa using instancesBecome_refl _
  | wOpen sink n =>
    obtain rfl | ⟨-, -, rfl⟩ := writerOpen_cases hn
    · exact instancesBecome_refl _
    · exact instancesBecome_append _ _
  | wWrite h data => exact writerOp_becomes (.inl ⟨data, rfl⟩) hn
  | wFlush h => exact writerOp_becomes (.inr (.inl rfl)) hn
  | wClose h => exact writerOp_becomes (.inr (.inr rfl)) hn
  | rOpen src =>
    rw [readerOpen_next hn]
    exact instancesBecome_append _ _
  | rRead h k => exact readOp_becomes hn
  | rClose h => exact closeReaderOp_becomes hn

/-- Only an operation or a reset changes the instances: the decode unit has none. -/
theorem step_becomes {s t : State} (hreset : nextAction s ≠ .reset) (hn : step s = .next t) :
    instancesBecome s.instances t.instances := by
  suffices t.instances = s.instances ∨ ∃ i rest, isOperation i = true ∧ exec i { s with inputs := rest } = .next t by
    obtain heq | ⟨i, rest, hop, hexec⟩ := this
    · rw [heq]; exact instancesBecome_refl _
    · exact operation_becomes (s := { s with inputs := rest }) hop hexec
  rcases step_cases hn with ⟨-, -, rfl⟩ | ⟨rest, hp, hi, -⟩ | ⟨code, args, rest, -, -, hcommand⟩ |
    ⟨-, -, hheader⟩ | ⟨-, -, rfl⟩ | ⟨-, -, htoken⟩ | ⟨-, -, rfl⟩
  · exact .inl rfl
  · exact absurd (by simp [nextAction, hp, hi]) hreset
  · obtain ⟨i, hi, hexec⟩ | rfl := hcommand
    · exact .inr ⟨i, rest, decodeCommand_operation hi, hexec⟩
    · exact .inl rfl
  · obtain ⟨hd, -, rfl⟩ | ⟨e, -, rfl⟩ := hheader
    · exact .inl rfl
    · exact .inl (decodeFails_instances s e)
  · exact .inl (finishInput_instances s)
  · obtain ⟨f, -, hexec⟩ | rfl := htoken
    · exact .inl (execToken_instances hexec)
    · exact .inl (decodeFails_instances s _)
  · exact .inl (finishPayload_instances s)

/-- Settles O9: what an entry of the table becomes in a step, read off for a Writer and for a Reader. -/
theorem closedIsTerminal : Obligations.ClosedIsTerminal := by
  intro s t h hreset hn
  refine ⟨fun w hw => ?_, fun r hr => ?_⟩
  · obtain ⟨j, hj, hb⟩ := step_becomes hreset hn h _ hw
    cases j with
    | writer w' => exact ⟨w', hj, hb⟩
    | reader r' => exact hb.elim
  · obtain ⟨j, hj, hb⟩ := step_becomes hreset hn h _ hr
    cases j with
    | writer w' => exact hb.elim
    | reader r' => exact ⟨r', hj, hb⟩

/-! ## Forms outside their context -/

theorem execToken_refused {f : TokenForm} {s : State} (hp : s.decoder.phase ≠ .tokens) :
    execToken f s = .refused .formOutOfContext := by
  unfold execToken
  cases h : s.decoder.phase with
  | idle | header => rfl
  | tokens => exact absurd h hp

theorem execHeader_refused {h : HeaderForm} {s : State} (hp : s.decoder.phase ≠ .header) :
    execHeader h s = .refused .formOutOfContext := by
  unfold execHeader
  cases h : s.decoder.phase with
  | idle | tokens => rfl
  | header => exact absurd h hp

/-- Settles O29: a token needs a token stream and a header a DECODE that has reached one. -/
theorem formsOutOfContextAreRefused : Obligations.FormsOutOfContextAreRefused := by
  intro s f h
  rw [exec_tokenForm, exec_headerForm]
  exact ⟨execToken_refused, execHeader_refused⟩

/-! ## The scan of Tokenize -/

theorem slice_to_end (S : List Byte) (i : Nat) : slice S i S.length = S.drop i := by
  simp [slice]

/-- The loop of Tokenize emits the tokens of a scan, when its bound is at least the bytes left: the scan moves on by at
least one byte, since a match has at least 3 (R129). -/
theorem scans_tokenizeFrom (policy : Config.EncPolicy) {S : List Byte} {f : Nat} {ht : List (Nat × Nat)} {p : Nat}
    (litStart : Nat) (hb : HtBelow ht p) (hf : S.length ≤ p + f) :
    Scans policy S ht p litStart (tokenizeFrom policy S f ht p litStart) := by
  induction f generalizing ht p litStart with
  | zero =>
    rw [tokenizeFrom, slice_to_end]
    exact .tail _ _ _ (by omega)
  | succ f ih =>
    rw [tokenizeFrom]
    split
    next hp =>
      split
      next ht' hm =>
        exact .pending _ _ _ _ _ hp hm (ih litStart (find_ok hb hp hm).1 (by omega))
      next off len ht' hm =>
        obtain ⟨hb', hok⟩ := find_ok hb hp hm
        obtain ⟨-, -, hlen, -⟩ := hok off len rfl
        exact .accepted _ _ _ _ _ _ _ hp hm (ih (p + len) (hb'.mono (by omega)) (by omega))
    next hp =>
      rw [slice_to_end]
      exact .tail _ _ _ (Nat.not_le.mp hp)

/-- A scan emits one token sequence: at each position the finder gives one answer. -/
theorem scans_unique {policy : Config.EncPolicy} {S : List Byte} {ht : List (Nat × Nat)} {p litStart : Nat}
    {a b : List Tok} (ha : Scans policy S ht p litStart a) (hb : Scans policy S ht p litStart b) : a = b := by
  induction ha generalizing b with
  | tail =>
    cases hb with
    | tail => rfl
    | pending | accepted => omega
  | pending _ _ _ _ _ _ hm _ ih =>
    cases hb with
    | tail => omega
    | pending _ _ _ _ _ _ hm' rest =>
      obtain ⟨-, rfl⟩ := Prod.mk.inj (hm.symm.trans hm')
      exact ih rest
    | accepted _ _ _ _ _ _ _ _ hm' => simp [hm] at hm'
  | accepted _ _ _ _ _ _ _ _ hm _ ih =>
    cases hb with
    | tail => omega
    | pending _ _ _ _ _ _ hm' => simp [hm] at hm'
    | accepted _ _ _ _ _ _ _ _ hm' rest =>
      simp only [hm, Prod.mk.injEq, Option.some.injEq] at hm'
      obtain ⟨⟨rfl, rfl⟩, rfl⟩ := hm'
      rw [ih rest]

/-- Settles O56: Tokenize emits the tokens of the scan from position 0 with `HT` all EMPTY, and no other scan starts
there. -/
theorem tokenizeScansGreedily : Obligations.TokenizeScansGreedily := by
  refine ⟨htGet_empty, fun _ _ _ => rfl, fun policy S toks => ?_⟩
  have hscan : Scans policy S htEmpty 0 0 (tokenize policy S) :=
    scans_tokenizeFrom policy 0 (htBelow_empty 0) (Nat.zero_add _).ge
  constructor
  · exact fun h => scans_unique h hscan
  · rintro rfl
    exact hscan

end Sys2Proof.Machine

/-! # Proofs: memory (20_memory.md)

The bytes of a chunk header, what an operation does to the Writer or Reader it names and to no other, and what
every step leaves in the sinks. -/

namespace Sys2Proof.Machine

/-! ## The bytes of a chunk header -/

theorem headerBytes_raw_toNat (n : BitVec 16) :
    (headerBytes (.raw n)).map BitVec.toNat = [0x5A, 0x56, 0, n.toNat / 256, n.toNat % 256] := by
  rw [headerBytes, List.map_append, be16_toNat]
  rfl

theorem headerBytes_comp_toNat (n m : BitVec 16) :
    (headerBytes (.comp n m)).map BitVec.toNat =
      [0x5A, 0x56, 1, n.toNat / 256, n.toNat % 256, m.toNat / 256, m.toNat % 256] := by
  rw [headerBytes, List.map_append, List.map_append, be16_toNat, be16_toNat]
  rfl

/-- Settles O18: `writeHeader` gives the bytes of a well-formed header and refuses every other. -/
theorem headerBytesAreBigEndian : Obligations.HeaderBytesAreBigEndian := by
  intro n m
  refine ⟨fun hn => ?_, fun hn => ?_, fun hn hm hmn => ?_, fun h => ?_⟩
  · exact ⟨_, writeHeader_of_wf (hdrRaw_wf_iff.mpr hn), headerBytes_raw_toNat n⟩
  · refine writeHeader_of_not_wf (Bool.eq_false_iff.mpr fun hwf => ?_)
    have := hdrRaw_wf_iff.mp hwf
    omega
  · exact ⟨_, writeHeader_of_wf (hdrComp_wf_iff.mpr ⟨hn, hm, hmn⟩), headerBytes_comp_toNat n m⟩
  · refine writeHeader_of_not_wf (Bool.eq_false_iff.mpr fun hwf => ?_)
    have := hdrComp_wf_iff.mp hwf
    omega

/-! ## An operation on a handle depends on what stands there alone (R59) -/

/-- What an operation may make of the Writer or Reader it names, as to its sink (R56): a Writer stays a Writer,
and its sink begins with what it held. -/
def Inst.forwardsTo : Inst → Inst → Prop
  | .writer w, y => ∃ w', y = .writer w' ∧ w.sink <+: w'.sink
  | .reader _, _ => True

theorem Inst.forwardsTo_refl (x : Inst) : x.forwardsTo x := by
  cases x with
  | writer w => exact ⟨w, rfl, List.prefix_rfl⟩
  | reader r => trivial

/-- From `s` to `t`, an operation has replaced the entry at `h` by `y`, released no sink, and returned `r` with STATUS
`st`. -/
structure Replaces (h : Nat) (y : Inst) (r : Result) (st : Status) (s t : State) : Prop where
  instances : t.instances = s.instances.set h y
  releasedSinks : t.releasedSinks = s.releasedSinks
  result : t.result = r
  status : t.status = st

/-- In every state that holds `x` at `h`, `k` makes the same of it, changes no other entry, and returns the same. -/
def ActsOn (h : Nat) (x : Inst) (k : State → State) : Prop :=
  ∃ y r st, x.forwardsTo y ∧ ∀ s : State, s.instances[h]? = some x → Replaces h y r st s (k s)

section ends

variable {h : Nat} {x : Inst}

theorem instances_eq_set {s : State} (hx : s.instances[h]? = some x) : s.instances = s.instances.set h x := by
  obtain ⟨hlt, rfl⟩ := List.getElem?_eq_some_iff.mp hx
  exact (List.set_getElem_self hlt).symm

theorem actsOn_complete (r : Result) : ActsOn h x (State.complete · r) :=
  ⟨x, r, .success, x.forwardsTo_refl, fun _ hs => ⟨instances_eq_set hs, rfl, rfl, rfl⟩⟩

theorem actsOn_raiseCode (c : BitVec 3) (p : Nat) : ActsOn h x (State.raiseCode · c p) :=
  ⟨x, .error c p, .failure c p, x.forwardsTo_refl, fun _ hs => ⟨instances_eq_set hs, rfl, rfl, rfl⟩⟩

theorem actsOn_raise (e : Raise) : ActsOn h x (State.raise · e) := actsOn_raiseCode e.kind.code e.pos

theorem actsOn_setReader (r r' : ReaderInst) (res : Result) :
    ActsOn h (.reader r) fun s => (s.setInst h (.reader r')).complete res :=
  ⟨.reader r', res, .success, trivial, fun _ _ => ⟨rfl, rfl, rfl, rfl⟩⟩

theorem actsOn_completeWriter {w w' : WriterInst} (hsink : w'.sink = w.sink) (bs : List Byte) :
    ActsOn h (.writer w) fun s => completeWriter h s w' bs :=
  ⟨.writer (forward w' bs), .ok, .success, ⟨_, rfl, by simp [hsink]⟩, fun s _ =>
    ⟨completeWriter_instances h s w' bs, completeWriter_releasedSinks h s w' bs, rfl, rfl⟩⟩

/-- A fetch runs a decoder of its own first, which touches no Writer or Reader. -/
theorem ActsOn.leaveOwnDecoder {k : State → State} (hk : ActsOn h x k) : ActsOn h x fun s => k s.leaveOwnDecoder := by
  obtain ⟨y, r, st, hy, hends⟩ := hk
  refine ⟨y, r, st, hy, fun s hs => ?_⟩
  obtain ⟨hinsts, hreleased, hresult, hstatus⟩ := hends s.leaveOwnDecoder (by simpa using hs)
  exact ⟨by simpa using hinsts, by simpa using hreleased, hresult, hstatus⟩

theorem actsOn_serve (k : Nat) (r r' : ReaderInst) : ActsOn h (.reader r) fun s => serve h k s r' :=
  actsOn_setReader r _ _

theorem actsOn_failReader (r : ReaderInst) (e : Raise) : ActsOn h (.reader r) fun s => failReader h s r e :=
  ⟨_, .error e.kind.code e.pos, .failure e.kind.code e.pos, trivial, fun _ _ => ⟨rfl, rfl, rfl, rfl⟩⟩

end ends

theorem actsOn_writeTo (h : Nat) (d : List Byte) (w : WriterInst) : ActsOn h (.writer w) fun s => writeTo h d s w := by
  cases hst : w.state with
  | closed => simp only [writeTo_closed d hst]; exact actsOn_raise _
  | opened => simp only [writeTo_opened d hst]; exact actsOn_completeWriter (by rfl) _

theorem actsOn_flushWriter (h : Nat) (w : WriterInst) : ActsOn h (.writer w) fun s => flushWriter h s w := by
  cases hst : w.state with
  | closed => simp only [flushWriter_closed hst]; exact actsOn_raise _
  | opened => simp only [flushWriter_opened hst]; exact actsOn_completeWriter (by rfl) _

theorem actsOn_closeWriter (h : Nat) (w : WriterInst) : ActsOn h (.writer w) fun s => closeWriter h s w := by
  cases hst : w.state with
  | closed => simp only [closeWriter_closed hst]; exact actsOn_complete _
  | opened => simp only [closeWriter_opened hst]; exact actsOn_completeWriter (by rfl) _

theorem actsOn_readDrained (h k : Nat) (r : ReaderInst) : ActsOn h (.reader r) fun s => readDrained h k s r := by
  unfold readDrained
  split
  · exact actsOn_setReader r _ _
  · split
    · exact (actsOn_failReader r _).leaveOwnDecoder
    · exact (actsOn_serve k r _).leaveOwnDecoder

theorem actsOn_readFrom (h k : Nat) (r : ReaderInst) : ActsOn h (.reader r) fun s => readFrom h k s r := by
  cases hst : r.state with
  | closed => simp only [readFrom_closed hst]; exact actsOn_raise _
  | error => simp only [readFrom_error hst]; exact actsOn_raiseCode _ _
  | eof => simp only [readFrom_eof hst]; exact actsOn_complete _
  | opened =>
    simp only [readFrom_opened hst]
    split
    · exact actsOn_complete _
    · split
      · exact actsOn_readDrained h k r
      · exact actsOn_serve k r r

theorem actsOn_closeReader (h : Nat) (r : ReaderInst) : ActsOn h (.reader r) fun s => closeReader h s r := by
  by_cases hst : r.state = .closed
  · simp only [closeReader_closed hst]; exact actsOn_complete _
  · simp only [closeReader_other hst]; exact actsOn_setReader r _ _

/-- `op` finds some `x` at `h` in `s`, and in every state that holds `x` there it acts on `x` in one way. -/
def ActsLocally (h : Nat) (op : State → Host.Outcome State Fault Refusal) (s : State) : Prop :=
  ∃ x k, s.instances[h]? = some x ∧ ActsOn h x k ∧ ∀ u : State, u.instances[h]? = some x → op u = .next (k u)

theorem onWriter_actsLocally {h : Nat} {f : State → WriterInst → State} {s a : State}
    (hf : ∀ w, ActsOn h (.writer w) fun u => f u w) (hn : onWriter s h (f s) = .next a) :
    ActsLocally h (fun u => onWriter u h (f u)) s := by
  obtain ⟨w, hw, -⟩ := onWriter_next hn
  exact ⟨.writer w, _, hw, hf w, fun u hu => onWriter_of hu (f u)⟩

theorem onReader_actsLocally {h : Nat} {f : State → ReaderInst → State} {s a : State}
    (hf : ∀ r, ActsOn h (.reader r) fun u => f u r) (hn : onReader s h (f s) = .next a) :
    ActsLocally h (fun u => onReader u h (f u)) s := by
  obtain ⟨r, hr, -⟩ := onReader_next hn
  exact ⟨.reader r, _, hr, hf r, fun u hu => onReader_of hu (f u)⟩

/-- An operation on a handle that answers a next state found its Writer or Reader, and acts on it alone. -/
theorem instanceOp_actsLocally {i : Instr} {h : Nat} {s a : State} (hi : onHandle i = some h)
    (hn : exec i s = .next a) : ActsLocally h (exec i) s := by
  cases i with
  | lit | refS | refL | hdrRaw | hdrComp | encode | decode | wOpen | rOpen => simp [onHandle] at hi
  | wWrite g d => obtain rfl := Option.some.inj hi; exact onWriter_actsLocally (actsOn_writeTo g d) hn
  | wFlush g => obtain rfl := Option.some.inj hi; exact onWriter_actsLocally (actsOn_flushWriter g) hn
  | wClose g => obtain rfl := Option.some.inj hi; exact onWriter_actsLocally (actsOn_closeWriter g) hn
  | rRead g k => obtain rfl := Option.some.inj hi; exact onReader_actsLocally (actsOn_readFrom g k) hn
  | rClose g => obtain rfl := Option.some.inj hi; exact onReader_actsLocally (actsOn_closeReader g) hn

/-- What an operation on a handle does, once (R59): it makes a `y` of the `x` that stands there, and it makes the same
`y`, and returns the same, in every other state that holds `x` there. -/
theorem instanceOp_replaces {i : Instr} {h : Nat} {s a : State} (hi : onHandle i = some h)
    (hn : exec i s = .next a) :
    ∃ x y, s.instances[h]? = some x ∧ x.forwardsTo y ∧ Replaces h y a.result a.status s a ∧
      ∀ u : State, u.instances[h]? = some x → ∃ v, exec i u = .next v ∧ Replaces h y a.result a.status u v := by
  obtain ⟨x, k, hx, ⟨y, r, st, hxy, hreplaces⟩, hexec⟩ := instanceOp_actsLocally hi hn
  obtain rfl : a = k s := Host.Outcome.next.inj (hn.symm.trans (hexec s hx))
  have hsa := hreplaces s hx
  rw [hsa.result, hsa.status]
  exact ⟨x, y, hx, hxy, hsa, fun u hu => ⟨k u, hexec u hu, hreplaces u hu⟩⟩

theorem Replaces.getElem?_ne {h g : Nat} {y : Inst} {r : Result} {st : Status} {s t : State}
    (hst : Replaces h y r st s t) (hne : h ≠ g) : t.instances[g]? = s.instances[g]? := by
  rw [hst.instances, List.getElem?_set_ne hne]

/-- Settles O12: each operation finds its entry of the table as it was before the other, so it does what it
does alone, and replacing two different entries commutes. -/
theorem differentInstancesCommute : Obligations.DifferentInstancesCommute := by
  intro s a b i j h g hhg hi hj hia hjb
  obtain ⟨x, y, hx, -, hsa, hiOf⟩ := instanceOp_replaces hi hia
  obtain ⟨x', y', hx', -, hsb, hjOf⟩ := instanceOp_replaces hj hjb
  refine ⟨fun k hk => hsa.getElem?_ne hk.symm, ?_⟩
  obtain ⟨c, hjc, hac⟩ := hjOf a ((hsa.getElem?_ne hhg).trans hx')
  obtain ⟨d, hid, hbd⟩ := hiOf b ((hsb.getElem?_ne hhg.symm).trans hx)
  have hinsts : c.instances = d.instances := by
    rw [hac.instances, hbd.instances, hsa.instances, hsb.instances, List.set_comm _ _ hhg]
  exact ⟨c, d, hjc, hid, hinsts, hac.releasedSinks.trans hsa.releasedSinks, hbd.releasedSinks.trans hsb.releasedSinks,
    hac.result, hac.status, hbd.result, hbd.status⟩

/-! ## What a step may do to the sinks (R56) -/

/-- What a step that is no reset may do to the Writers and Readers: nothing, add one, or replace one. -/
inductive InstancesChange (a b : List Inst) : Prop where
  | same (heq : b = a)
  | added (i : Inst) (heq : b = a ++ [i])
  | replaced (h : Nat) (x y : Inst) (hx : a[h]? = some x) (hxy : x.forwardsTo y) (heq : b = a.set h y)

/-- The Writer that stands at a handle afterwards, with what its sink held before in front. -/
theorem InstancesChange.writer {a b : List Inst} (hab : InstancesChange a b) {g : Nat} {w : WriterInst}
    (hw : a[g]? = some (.writer w)) : ∃ w', b[g]? = some (.writer w') ∧ w.sink <+: w'.sink := by
  have hlt : g < a.length := (List.getElem?_eq_some_iff.mp hw).1
  cases hab with
  | same heq => exact ⟨w, by rw [heq, hw], List.prefix_rfl⟩
  | added i heq => exact ⟨w, by rw [heq, List.getElem?_append_left hlt, hw], List.prefix_rfl⟩
  | replaced h x y hx hxy heq =>
    by_cases hg : h = g
    · subst hg
      obtain rfl : x = .writer w := Option.some.inj (hx.symm.trans hw)
      obtain ⟨w', rfl, hsink⟩ := hxy
      exact ⟨w', by rw [heq, List.getElem?_set_self hlt], hsink⟩
    · exact ⟨w, by rw [heq, List.getElem?_set_ne hg, hw], List.prefix_rfl⟩

@[simp] theorem decodeFails_releasedSinks (s : State) (e : Raise) :
    (decodeFails s e).releasedSinks = s.releasedSinks := rfl

@[simp] theorem finishPayload_releasedSinks (s : State) : (finishPayload s).releasedSinks = s.releasedSinks := by
  rcases finishPayload_cases s with ⟨e, h⟩ | ⟨-, h⟩ <;> rw [h]
  exact decodeFails_releasedSinks s e

theorem execToken_releasedSinks {f : TokenForm} {s t : State} (hn : execToken f s = .next t) :
    t.releasedSinks = s.releasedSinks := by
  obtain ⟨-, ⟨e, rfl⟩ | ⟨-, -, rfl⟩⟩ := execToken_cases hn
  · exact decodeFails_releasedSinks s e
  · rfl

/-- Every operation of R12 releases no sink, and adds or replaces at most one entry of the table. -/
theorem operation_instancesChange {i : Instr} {s t : State} (hop : isOperation i = true) (hn : exec i s = .next t) :
    t.releasedSinks = s.releasedSinks ∧ InstancesChange s.instances t.instances := by
  cases hi : onHandle i with
  | some h =>
    obtain ⟨x, y, hx, hxy, hst, -⟩ := instanceOp_replaces hi hn
    exact ⟨hst.releasedSinks, .replaced h x y hx hxy hst.instances⟩
  | none =>
    cases i with
    | lit | refS | refL | hdrRaw | hdrComp => simp [isOperation] at hop
    | wWrite | wFlush | wClose | rRead | rClose => simp [onHandle] at hi
    | encode input =>
      rw [encode_next hn]
      exact ⟨rfl, .same rfl⟩
    | decode input =>
      obtain ⟨out, -, rfl⟩ | ⟨e, -, rfl⟩ := execDecode_cases hn
      · exact ⟨by simp, .same (by simp)⟩
      · exact ⟨by simp, .same (by simp)⟩
    | wOpen sink n =>
      obtain rfl | ⟨-, -, rfl⟩ := writerOpen_cases hn
      · exact ⟨rfl, .same rfl⟩
      · exact ⟨rfl, .added _ rfl⟩
    | rOpen src =>
      rw [readerOpen_next hn]
      exact ⟨rfl, .added _ rfl⟩

/-- A step that is no reset releases no sink, and adds or replaces at most one entry of the table: the decode unit
changes none. -/
theorem step_instancesChange {s t : State} (hreset : nextAction s ≠ .reset) (hn : step s = .next t) :
    t.releasedSinks = s.releasedSinks ∧ InstancesChange s.instances t.instances := by
  rcases step_cases hn with ⟨-, -, rfl⟩ | ⟨rest, hp, hi, -⟩ | ⟨code, args, rest, -, -, hcommand⟩ |
    ⟨-, -, hheader⟩ | ⟨-, -, rfl⟩ | ⟨-, -, htoken⟩ | ⟨-, -, rfl⟩
  · exact ⟨rfl, .same rfl⟩
  · exact absurd (by simp [nextAction, hp, hi]) hreset
  · obtain ⟨i, hi, hexec⟩ | rfl := hcommand
    · exact operation_instancesChange (s := { s with inputs := rest }) (decodeCommand_operation hi) hexec
    · exact ⟨rfl, .same rfl⟩
  · obtain ⟨hd, -, rfl⟩ | ⟨e, -, rfl⟩ := hheader
    · exact ⟨rfl, .same rfl⟩
    · exact ⟨rfl, .same rfl⟩
  · exact ⟨rfl, .same rfl⟩
  · obtain ⟨f, -, hexec⟩ | rfl := htoken
    · exact ⟨execToken_releasedSinks hexec, .same (execToken_instances hexec)⟩
    · exact ⟨rfl, .same rfl⟩
  · exact ⟨finishPayload_releasedSinks s, .same (finishPayload_instances s)⟩

@[simp] theorem consume_instances (s : State) : (consume s).instances = s.instances := by
  unfold consume
  split <;> rfl

@[simp] theorem consume_releasedSinks (s : State) : (consume s).releasedSinks = s.releasedSinks := by
  unfold consume
  split <;> rfl

/-- A step that resets the block releases the sinks as they stand. -/
theorem step_reset_releasedSinks {s t : State} (hreset : nextAction s = .reset) (hn : step s = .next t) :
    t.releasedSinks = s.releasedSinks ++ s.instances.filterMap Inst.sink := by
  rw [step, hreset, Host.Outcome.next.injEq] at hn
  rw [← hn, State.afterReset_releasedSinks, consume_releasedSinks, consume_instances]

/-- Settles O10: a step keeps every Writer's sink in front of what it forwards, and a reset releases the sinks as they
stand. -/
theorem sinkBytesAreNeverWithdrawn : Obligations.SinkBytesAreNeverWithdrawn := by
  intro s t hn
  refine ⟨fun hreset => ?_, fun hreset => step_reset_releasedSinks hreset hn⟩
  obtain ⟨hreleased, hchange⟩ := step_instancesChange hreset hn
  refine ⟨hreleased, fun h w hw => ?_⟩
  obtain ⟨w', hw', bs, hbs⟩ := hchange.writer hw
  exact ⟨w', bs, hw', hbs.symm⟩

end Sys2Proof.Machine

/-! # Proofs: encoding (30_encoding.md)

The encodings read back, a decoded token is its bytes, a form and what it says determine each other, and what a
control byte and a reserved command code decode to. -/

namespace Sys2Proof.Machine

/-! ## Decoding what was encoded -/

theorem decode_encode_tokenForm {f : TokenForm} (h : f.instr.wf = true) : decode (encode f.instr) = .ok f.instr := by
  have hread : decodeToken (encodeToken f) = .ok f := by
    simpa using decodeToken_encodeToken f [] h
  have henc : encode f.instr = .token (encodeToken f) := by cases f <;> rfl
  rw [henc, decode, hread]
  rfl

theorem decode_encode_headerForm (h : HeaderForm) : decode (encode h.instr) = .ok h.instr := by
  have hread : decodeHeader (headerBytes h) = .ok h := by
    simpa using decodeHeader_headerBytes h []
  have henc : encode h.instr = .header (headerBytes h) := by cases h <;> rfl
  rw [henc, decode, hread]
  rfl

/-- A command code and the operands it reads name one operation (R81). -/
theorem decode_encode_operation {i : Instr} (h : isOperation i = true) : decode (encode i) = .ok i := by
  cases i with
  | lit | refS | refL | hdrRaw | hdrComp => simp [isOperation] at h
  | encode | decode | wOpen | wWrite | wFlush | wClose | rOpen | rRead | rClose => rfl

theorem decode_encode {i : Instr} (h : i.wf = true) : decode (encode i) = .ok i := by
  cases i with
  | lit bytes => exact decode_encode_tokenForm (f := .lit bytes) h
  | refS l o => exact decode_encode_tokenForm (f := .refS l o) h
  | refL e o => exact decode_encode_tokenForm (f := .refL e o) h
  | hdrRaw n => exact decode_encode_headerForm (.raw n)
  | hdrComp n m => exact decode_encode_headerForm (.comp n m)
  | encode | decode | wOpen | wWrite | wFlush | wClose | rOpen | rRead | rClose =>
    exact decode_encode_operation rfl

/-- Settles O13, space by space of R70: what follows a token or a header is not read. -/
theorem decodeOfEncodeIsTheInstruction : Obligations.DecodeOfEncodeIsTheInstruction :=
  ⟨fun _ => decode_encode, decodeToken_encodeToken, decodeHeader_headerBytes⟩

/-- Settles O14, by what a successful token decode says of the bytes it read. -/
theorem encodeOfDecodedTokenIsItsBytes : Obligations.EncodeOfDecodedTokenIsItsBytes := by
  intro bytes f h
  obtain ⟨hwf, hsize, henc⟩ := decodeToken_ok h
  exact ⟨hwf, henc, hsize⟩

/-! ## A form and what it says determine each other (R78) -/

theorem fieldOffset_injective : Function.Injective fieldOffset :=
  fun _ _ h => BitVec.eq_of_toNat_eq (Nat.succ.inj h)

theorem shortLength_injective : Function.Injective shortLength :=
  fun _ _ h => BitVec.eq_of_toNat_eq (Nat.add_right_cancel h)

theorem longLength_injective : Function.Injective longLength :=
  fun _ _ h => BitVec.eq_of_toNat_eq (Nat.add_right_cancel h)

/-- A short length is at most 8 and a long one at least 9: the field value 7 spells `REF_L`. -/
theorem shortLength_lt_longLength {l : BitVec 3} (hl : refSLegal l = true) (e : Byte) :
    shortLength l < longLength e := by
  obtain ⟨-, h7⟩ := refSLegal_iff.mp hl
  have h7' : l.toNat ≠ 7 := fun h => h7 (BitVec.eq_of_toNat_eq h)
  have := l.isLt
  unfold shortLength longLength
  omega

/-- Two well-formed forms that say the same are the same form. -/
theorem tokOf_inj_of_wf {f g : TokenForm} (hf : f.instr.wf = true) (hg : g.instr.wf = true) (h : tokOf f = tokOf g) :
    f = g := by
  cases f with
  | lit bytes =>
    cases g with
    | lit bytes' => rw [Tok.run.inj h]
    | refS | refL => cases h
  | refS l o =>
    cases g with
    | lit => cases h
    | refS l' o' =>
      obtain ⟨hoff, hlen⟩ := Tok.ref.inj h
      rw [fieldOffset_injective hoff, shortLength_injective hlen]
    | refL e' o' => exact absurd (Tok.ref.inj h).2 (shortLength_lt_longLength hf e').ne
  | refL e o =>
    cases g with
    | lit => cases h
    | refS l' o' => exact absurd (Tok.ref.inj h).2 (shortLength_lt_longLength hg e).ne'
    | refL e' o' =>
      obtain ⟨hoff, hlen⟩ := Tok.ref.inj h
      rw [fieldOffset_injective hoff, longLength_injective hlen]

/-- Settles O15: the form R77 assembles says the token, and no other well-formed form says the same. -/
theorem everyTokenHasOneEncoding : Obligations.EveryTokenHasOneEncoding := by
  intro t ht
  obtain ⟨hwf, hsays⟩ := formOf_ok ht
  exact ⟨hwf, hsays, fun f hf hft => tokOf_inj_of_wf hf hwf (hft.trans hsays.symm)⟩

/-! ## What a control byte decodes to (R73 to R76), and when its token is cut (R179) -/

section controlByte

variable {ctrl : Byte} {rest : List Byte}

theorem decodeToken_lit_cut (hform : ctrl.toNat / 32 = 0) (hlen : rest.length < ctrl.toNat % 32 + 1) :
    decodeToken (ctrl :: rest) = .error .tokenCut := by
  rw [decodeToken_cons, if_pos hform, if_pos hlen]

theorem decodeToken_lit_ok (hform : ctrl.toNat / 32 = 0) (hlen : ctrl.toNat % 32 + 1 ≤ rest.length) :
    decodeToken (ctrl :: rest) = .ok (.lit (rest.take (ctrl.toNat % 32 + 1))) := by
  rw [decodeToken_cons, if_pos hform, if_neg hlen.not_gt]

theorem decodeToken_refS_cut (h1 : 1 ≤ ctrl.toNat / 32) (h6 : ctrl.toNat / 32 ≤ 6) :
    decodeToken [ctrl] = .error .tokenCut := by
  rw [decodeToken_cons, if_neg (by omega), if_neg (by omega)]

theorem decodeToken_refS_ok (h1 : 1 ≤ ctrl.toNat / 32) (h6 : ctrl.toNat / 32 ≤ 6) (lo : Byte) :
    decodeToken (ctrl :: lo :: rest) = .ok (.refS (formBits ctrl) (offsetField ctrl lo)) := by
  rw [decodeToken_cons, if_neg (by omega), if_neg (by omega)]

theorem decodeToken_refL_cut (hform : ctrl.toNat / 32 = 7) (hlen : rest.length < 2) :
    decodeToken (ctrl :: rest) = .error .tokenCut := by
  rw [decodeToken_cons, if_neg (by omega), if_pos hform]
  match rest with
  | [] | [_] => rfl
  | _ :: _ :: _ => simp at hlen

theorem decodeToken_refL_ok (hform : ctrl.toNat / 32 = 7) (e lo : Byte) :
    decodeToken (ctrl :: e :: lo :: rest) = .ok (.refL e (offsetField ctrl lo)) := by
  rw [decodeToken_cons, if_neg (by omega), if_pos hform]

theorem fieldOffset_offsetField (ctrl lo : Byte) :
    fieldOffset (offsetField ctrl lo) = ctrl.toNat % 32 * 256 + lo.toNat + 1 := by
  rw [fieldOffset, offsetField_toNat]

theorem shortLength_formBits (ctrl : Byte) : shortLength (formBits ctrl) = ctrl.toNat / 32 + 2 := by
  rw [shortLength, formBits_toNat]

end controlByte

/-- Settles O16, by the three forms that bits 7:5 select. -/
theorem controlByteSelectsFormAndLength : Obligations.ControlByteSelectsFormAndLength := by
  intro ctrl rest
  refine ⟨fun hform => ⟨decodeToken_lit_cut hform, decodeToken_lit_ok hform⟩, fun h1 h6 => ⟨?_, ?_⟩,
    fun hform => ⟨decodeToken_refL_cut hform, ?_⟩⟩
  · rintro rfl
    exact decodeToken_refS_cut h1 h6
  · rintro lo more rfl
    refine ⟨_, _, decodeToken_refS_ok h1 h6 lo, ?_⟩
    rw [tokOf, fieldOffset_offsetField, shortLength_formBits]
  · rintro e lo more rfl
    refine ⟨_, decodeToken_refL_ok hform e lo, ?_⟩
    rw [tokOf, fieldOffset_offsetField, longLength]

/-! ## Reserved command codes (R81) -/

theorem decodeCommand_reserved {code : Byte} (a : Operands)
    (h : code.toNat ∉ [0x01, 0x02, 0x10, 0x11, 0x12, 0x13, 0x20, 0x21, 0x22]) :
    decodeCommand code a = .error .reservedCommand := by
  simp only [List.mem_cons, List.not_mem_nil, or_false, not_or] at h
  simp [decodeCommand, ← BitVec.toNat_inj, h]

/-- With the decode unit idle, a command that names no operation raises IllegalCommand, whatever its operands. -/
theorem step_reservedCommand {s : State} {code : Byte} {args : Operands} {rest : List HostInput}
    (hp : s.decoder.phase = .idle) (hi : s.inputs = .command code args :: rest)
    (hd : decodeCommand code args = .error .reservedCommand) :
    step s = .next (State.raise { s with inputs := rest } { kind := .illegalCommand, pos := 0 }) := by
  simp [step, nextAction, consume, decode, rejected, rejectKind, hp, hi, hd]

/-- Settles O7: IllegalCommand has code 6, and its position is 0. -/
theorem reservedCommandCodeIsIllegalCommand : Obligations.ReservedCommandCodeIsIllegalCommand :=
  fun _ _ args _ hp hi hcode => step_reservedCommand hp hi (decodeCommand_reserved args hcode)

/-! ## Sample words -/

/-- Settles O17: each word is decoded as it stands. -/
theorem sampleWordsDecode : Obligations.SampleWordsDecode := by
  unfold Obligations.SampleWordsDecode
  decide

end Sys2Proof.Machine

/-! # Proofs: the chunk format (40_chunk_format.md)

The checks of `parseHeader` read off the header's bytes, and DECODE as the chunk at the front followed by the DECODE of
the bytes after it. -/

namespace Sys2Proof.Machine

/-! ## The checks of parseHeader, in order (R103) -/

/-- The big-endian 16-bit field whose first byte is at index `i`, as a number (R50). -/
def fieldAt (bytes : List Byte) (i : Nat) : Nat := (bytes.getD i 0#8).toNat * 256 + (bytes.getD (i + 1) 0#8).toNat

theorem fieldAt_lt (bytes : List Byte) (i : Nat) : fieldAt bytes i < 2 ^ 16 := by
  have hhi := (bytes.getD i 0#8).isLt
  have hlo := (bytes.getD (i + 1) 0#8).isLt
  unfold fieldAt
  omega

theorem fieldAt_drop (bytes : List Byte) (pos i : Nat) : fieldAt (bytes.drop pos) i = fieldAt bytes (pos + i) := by
  simp [fieldAt, List.getD_eq_getElem?_getD, Nat.add_assoc]

theorem ofNat_fieldAt (bytes : List Byte) (i : Nat) :
    BitVec.ofNat 16 (fieldAt bytes i) = u16be (bytes.getD i 0#8) (bytes.getD (i + 1) 0#8) := by
  rw [fieldAt, ← u16be_toNat, BitVec.ofNat_toNat, BitVec.setWidth_eq]

/-- Steps 5 to 8 for a RAW header with the number `n` in its length field. -/
theorem headerCheck_raw_ofNat {n : Nat} (hn : n < 2 ^ 16) (rem : Nat) :
    headerCheck (.raw (BitVec.ofNat 16 n)) rem =
      if rem < 5 then some .truncatedInput else if n = 0 then some .malformedChunk
      else if rem - 5 < n then some .truncatedInput else none := by
  rw [headerCheck_raw]
  simp only [← BitVec.toNat_inj, BitVec.toNat_ofNat, Nat.mod_eq_of_lt hn, Nat.zero_mod]

/-- Steps 5 to 8 for a COMPRESSED header with the numbers `n` and `m` in its length fields. -/
theorem headerCheck_comp_ofNat {n m : Nat} (hn : n < 2 ^ 16) (hm : m < 2 ^ 16) (rem : Nat) :
    headerCheck (.comp (BitVec.ofNat 16 n) (BitVec.ofNat 16 m)) rem =
      if rem < 7 then some .truncatedInput else if n = 0 then some .malformedChunk
      else if m = 0 ∨ n < m then some .malformedChunk
      else if rem - 7 < m then some .truncatedInput else none := by
  rw [headerCheck_comp]
  simp only [← BitVec.toNat_inj, BitVec.toNat_ofNat, Nat.mod_eq_of_lt hn, Nat.mod_eq_of_lt hm, Nat.zero_mod]

/-- With marker and type RAW there, a header decodes exactly when its two length bytes are there too. -/
theorem decodeHeader_raw (fields : List Byte) :
    decodeHeader (Config.magic0 :: Config.magic1 :: Config.typeRaw :: fields) =
      if fields.length + 3 < 5 then .error .headerCut else .ok (.raw (BitVec.ofNat 16 (fieldAt fields 0))) := by
  match fields with
  | [] | [_] => rfl
  | n1 :: n0 :: _ => rw [ofNat_fieldAt]; rfl

/-- With marker and type COMPRESSED there, a header decodes exactly when its four length bytes are there too. -/
theorem decodeHeader_comp (fields : List Byte) :
    decodeHeader (Config.magic0 :: Config.magic1 :: Config.typeComp :: fields) =
      if fields.length + 3 < 7 then .error .headerCut
      else .ok (.comp (BitVec.ofNat 16 (fieldAt fields 0)) (BitVec.ofNat 16 (fieldAt fields 2))) := by
  match fields with
  | [] | [_] | [_, _] | [_, _, _] => rfl
  | n1 :: n0 :: c1 :: c0 :: _ => rw [ofNat_fieldAt, ofNat_fieldAt]; rfl

/-- Steps 1 to 5 of `parseHeader`, in order. -/
theorem decodeHeader_eq (bytes : List Byte) :
    decodeHeader bytes =
      if bytes.length < 2 then .error .headerNoMagic
      else if (bytes.getD 0 0#8).toNat ≠ 0x5A ∨ (bytes.getD 1 0#8).toNat ≠ 0x56 then .error .badMagic
      else if bytes.length < 3 then .error .headerNoType
      else if (bytes.getD 2 0#8).toNat = 0 then
        if bytes.length < 5 then .error .headerCut else .ok (.raw (BitVec.ofNat 16 (fieldAt bytes 3)))
      else if (bytes.getD 2 0#8).toNat = 1 then
        if bytes.length < 7 then .error .headerCut
        else .ok (.comp (BitVec.ofNat 16 (fieldAt bytes 3)) (BitVec.ofNat 16 (fieldAt bytes 5)))
      else .error .badType := by
  match bytes with
  | [] | [_] => rfl
  | m0 :: m1 :: rest =>
    have hmagic : (m0.toNat ≠ 0x5A ∨ m1.toNat ≠ 0x56) ↔ ¬ (m0 = Config.magic0 ∧ m1 = Config.magic1) := by
      rw [not_and_or, ← BitVec.toNat_inj, ← BitVec.toNat_inj]; rfl
    rw [if_neg (by simp)]
    simp only [List.getD_cons_zero, List.getD_cons_succ, hmagic]
    by_cases h : m0 = Config.magic0 ∧ m1 = Config.magic1
    · obtain ⟨rfl, rfl⟩ := h
      rw [if_neg (by simp)]
      match rest with
      | [] => rfl
      | ty :: fields =>
        rw [if_neg (by simp), List.getD_cons_zero]
        by_cases hraw : ty = Config.typeRaw
        · subst hraw
          rw [if_pos (by decide)]
          exact decodeHeader_raw fields
        · by_cases hcomp : ty = Config.typeComp
          · subst hcomp
            rw [if_neg (by decide), if_pos (by decide)]
            exact decodeHeader_comp fields
          · have h0 : ty.toNat ≠ 0 := fun h => hraw (BitVec.eq_of_toNat_eq h)
            have h1 : ty.toNat ≠ 1 := fun h => hcomp (BitVec.eq_of_toNat_eq h)
            simp [decodeHeader, hraw, hcomp, h0, h1]
    · rw [if_pos h]
      exact if_neg h

/-- A rejected header is raised at the header's position. -/
theorem parseHeader_of_reject {B : List Byte} {pos : Nat} {r : Reject}
    (hd : decodeHeader (B.drop pos) = .error r) : parseHeader B pos = .error { kind := rejectKind r, pos := pos } := by
  rw [parseHeader, hd]

/-- Steps 6 and 8 for a RAW header whose five bytes are there. -/
theorem parseHeader_of_raw {B : List Byte} {pos n : Nat} (hn : n < 2 ^ 16) (h5 : ¬ B.length - pos < 5)
    (hd : decodeHeader (B.drop pos) = .ok (.raw (BitVec.ofNat 16 n))) :
    parseHeader B pos =
      if n = 0 then .error { kind := .malformedChunk, pos := pos }
      else if B.length - pos - 5 < n then .error { kind := .truncatedInput, pos := pos }
      else .ok (.raw (BitVec.ofNat 16 n)) := by
  simp only [parseHeader, hd, headerCheck_raw_ofNat hn, if_neg h5]
  split_ifs <;> rfl

/-- Steps 6 to 8 for a COMPRESSED header whose seven bytes are there. -/
theorem parseHeader_of_comp {B : List Byte} {pos n m : Nat} (hn : n < 2 ^ 16) (hm : m < 2 ^ 16)
    (h7 : ¬ B.length - pos < 7)
    (hd : decodeHeader (B.drop pos) = .ok (.comp (BitVec.ofNat 16 n) (BitVec.ofNat 16 m))) :
    parseHeader B pos =
      if n = 0 then .error { kind := .malformedChunk, pos := pos }
      else if m = 0 ∨ n < m then .error { kind := .malformedChunk, pos := pos }
      else if B.length - pos - 7 < m then .error { kind := .truncatedInput, pos := pos }
      else .ok (.comp (BitVec.ofNat 16 n) (BitVec.ofNat 16 m)) := by
  simp only [parseHeader, hd, headerCheck_comp_ofNat hn hm, if_neg h7]
  split_ifs <;> rfl

/-- Settles O19: steps 1 to 5 are those of `decodeHeader`, and a form it answers is checked for its lengths. -/
theorem parseHeaderChecksInOrder : Obligations.ParseHeaderChecksInOrder := by
  intro B pos _ rem at' n m
  have hrem : (B.drop pos).length = rem := List.length_drop
  have hat : ∀ i, ((B.drop pos).getD i 0#8).toNat = at' i := by
    simp [at', List.getD_eq_getElem?_getD]
  have hn : fieldAt (B.drop pos) 3 = n := fieldAt_drop B pos 3
  have hm : fieldAt (B.drop pos) 5 = m := fieldAt_drop B pos 5
  have hn16 : n < 2 ^ 16 := hn ▸ fieldAt_lt _ _
  have hm16 : m < 2 ^ 16 := hm ▸ fieldAt_lt _ _
  have hd := decodeHeader_eq (B.drop pos)
  simp only [hrem, hat, hn, hm] at hd
  by_cases h2 : rem < 2
  · rw [if_pos h2] at hd ⊢
    exact parseHeader_of_reject hd
  rw [if_neg h2] at hd ⊢
  by_cases hmagic : at' 0 ≠ 0x5A ∨ at' 1 ≠ 0x56
  · rw [if_pos hmagic] at hd ⊢
    exact parseHeader_of_reject hd
  rw [if_neg hmagic] at hd ⊢
  by_cases h3 : rem < 3
  · rw [if_pos h3] at hd ⊢
    exact parseHeader_of_reject hd
  rw [if_neg h3] at hd ⊢
  by_cases hraw : at' 2 = 0
  · rw [if_pos hraw] at hd ⊢
    by_cases h5 : rem < 5
    · rw [if_pos h5] at hd ⊢
      exact parseHeader_of_reject hd
    · rw [if_neg h5] at hd ⊢
      exact parseHeader_of_raw hn16 h5 hd
  rw [if_neg hraw] at hd ⊢
  by_cases hcomp : at' 2 = 1
  · rw [if_pos hcomp] at hd ⊢
    by_cases h7 : rem < 7
    · rw [if_pos h7] at hd ⊢
      exact parseHeader_of_reject hd
    · rw [if_neg h7] at hd ⊢
      exact parseHeader_of_comp hn16 hm16 h7 hd
  · rw [if_neg hcomp] at hd ⊢
    exact parseHeader_of_reject hd

/-! ## DECODE, chunk by chunk -/

/-- An error of the chunk at the front is the error of DECODE (R171). -/
theorem decodeAll_of_front_error {inp : List Byte} {e : Raise} (hne : inp ≠ [])
    (h : decodeChunk inp 0 = .error e) : decodeAll inp = .error e := by
  rw [decodeAll_eq, decodeRest_step (List.length_pos_iff.mpr hne), h]

/-- After a chunk that decodes, DECODE goes on with the bytes behind it (R170, R172). -/
theorem decodeAll_of_front_ok {inp chunk : List Byte} {next : Nat} (h : decodeChunk inp 0 = .ok (chunk, next)) :
    decodeAll inp = prependOk chunk (shiftError next (decodeAll (inp.drop next))) := by
  obtain ⟨-, -, -, -, hpos, hle, -⟩ := decodeChunk_ok h
  rw [decodeAll_eq, decodeRest_step (by omega), h]
  exact congrArg (prependOk chunk) (decodeRest_eq_decodeAll hle)

/-- Settles O31: the chunk loop, taken once from the input's start. -/
theorem decodeGoesChunkByChunk : Obligations.DecodeGoesChunkByChunk := by
  refine ⟨rfl, fun inp hne => ⟨fun _ => decodeAll_of_front_error hne, fun chunk next hchunk => ?_⟩⟩
  obtain ⟨-, -, -, -, hpos, hle, -⟩ := decodeChunk_ok hchunk
  refine ⟨hpos, hle, fun out hout => ?_, fun e herr => ?_⟩
  · rw [decodeAll_of_front_ok hchunk, hout]; rfl
  · rw [decodeAll_of_front_ok hchunk, herr]; rfl

/-- After a valid buffer DECODE goes on with what follows, whose error positions count from its end (R109). -/
theorem decodeAll_append {a x : List Byte} (h : decodeAll a = .ok x) (b : List Byte) :
    decodeAll (a ++ b) = prependOk x (shiftError a.length (decodeAll b)) := by
  rw [decodeAll_eq, decodeRest_append_left b (Nat.zero_le _) h]
  exact congrArg (prependOk x) (decodeRest_append_right a b 0)

/-- Settles O32: both cases read off what DECODE makes of a concatenation. -/
theorem decodeOfConcatenation : Obligations.DecodeOfConcatenation := by
  intro a b x ha
  refine ⟨fun y hy => ?_, fun e he => ?_⟩
  · rw [decodeAll_append ha, hy]; rfl
  · rw [decodeAll_append ha, he]; rfl

end Sys2Proof.Machine

/-! # Proofs: the match finder (41_match_finder.md)

The hash and its bucket, which candidates are NoMatch, the length of a match, and the matches among the tokens of a
slice. -/

namespace Sys2Proof.Machine

/-! ## The hash table's bucket of a position (R121 to R124) -/

/-- `hash3` in plain arithmetic: the shift right by `32 - HASH_BITS` is a division by `2 ^ 18`. -/
theorem hash3_eq_div (b0 b1 b2 : Byte) :
    hash3 b0 b1 b2 = (b0.toNat * 65536 + b1.toNat * 256 + b2.toNat) * 2654435761 % 4294967296 / 262144 :=
  Nat.shiftRight_eq_div_pow _ _

/-- Settles O34: a number below `2 ^ 32` divided by `2 ^ 18` is below `2 ^ 14`. -/
theorem hashIsATableIndex : Obligations.HashIsATableIndex := by
  intro b0 b1 b2
  refine ⟨hash3_eq_div b0 b1 b2, ?_⟩
  rw [hash3_eq_div]
  exact Nat.div_lt_of_lt_mul (Nat.mod_lt _ (by decide))

/-- Settles O35: the table `MatchAt` leaves is the old one with `p` put in its bucket. -/
theorem lookupPrecedesInsert : Obligations.LookupPrecedesInsert := by
  intro ht S p hwf
  obtain ⟨hrises, -⟩ := htWf_iff.mp hwf
  have hread (i : Nat) : htGet (matchAt ht S p).2 i = if i = hashAt S p then some p else htGet ht i :=
    htGet_set hrises (hashAt S p) i p
  exact ⟨rfl, by rw [hread, if_pos rfl], fun i hi => by rw [hread, if_neg hi]⟩

/-! ## The measure of a candidate (R125) -/

@[simp] theorem measureAt_empty (S : List Byte) (p : Nat) : measureAt S p none = none := rfl

theorem measureAt_of_far {S : List Byte} {p c : Nat} (h : 8192 < p - c) : measureAt S p (some c) = none :=
  if_pos h

theorem measureAt_of_collision {S : List Byte} {p c : Nat} (h : slice S c (c + 3) ≠ slice S p (p + 3)) :
    measureAt S p (some c) = none := by
  simp [measureAt, h]

theorem measureAt_of_agree {S : List Byte} {p c : Nat} (hnear : p - c ≤ 8192)
    (h : slice S c (c + 3) = slice S p (p + 3)) :
    measureAt S p (some c) =
      some (p - c, 3 + agreeing (min 264 (S.length - p) - 3) (S.drop (c + 3)) (S.drop (p + 3))) :=
  (if_neg (Nat.not_lt.mpr hnear)).trans (if_neg (not_not.mpr h))

/-- The first three bytes of a candidate and of the scan position agree when they agree one by one. -/
theorem firstBytes_agree_iff {S : List Byte} {p c : Nat} (hc : c < p) (hp : p + 3 ≤ S.length) :
    slice S c (c + 3) = slice S p (p + 3) ↔ ∀ i, i < 3 → S.getD (c + i) 0#8 = S.getD (p + i) 0#8 :=
  slice_eq_slice_iff (by omega) hp

/-- Within the slice, a tail's bytes are the slice's own, read with a default. -/
theorem getElem?_drop_eq_getD {S : List Byte} {i j : Nat} (h : i + j < S.length) :
    (S.drop i)[j]? = some (S.getD (i + j) 0#8) := by
  rw [List.getElem?_drop, List.getD_eq_getElem?_getD, List.getElem?_eq_getElem h, Option.getD_some]

/-- A match cannot be made longer: where its length is neither 264 nor up to the end of the slice, the next bytes
differ. -/
theorem measureAt_longest {S : List Byte} {p c off len : Nat} (hc : c < p)
    (hm : measureAt S p (some c) = some (off, len)) (hmax : len < 264) (hend : p + len < S.length) :
    S.getD (c + len) 0#8 ≠ S.getD (p + len) 0#8 := by
  have hnear : p - c ≤ 8192 := by
    by_contra hfar
    simp [measureAt_of_far (Nat.not_le.mp hfar)] at hm
  have hfirst : slice S c (c + 3) = slice S p (p + 3) := by
    by_contra hdiff
    simp [measureAt_of_collision hdiff] at hm
  rw [measureAt_of_agree hnear hfirst, Option.some.injEq, Prod.mk.injEq] at hm
  obtain ⟨-, rfl⟩ := hm
  have hdiff := agreeing_max (min 264 (S.length - p) - 3) (S.drop (c + 3)) (S.drop (p + 3)) (by omega)
    (by rw [List.length_drop]; omega) (by rw [List.length_drop]; omega)
  rw [getElem?_drop_eq_getD (by omega), getElem?_drop_eq_getD (by omega), Nat.add_assoc, Nat.add_assoc] at hdiff
  exact fun heq => hdiff (congrArg some heq)

/-- Settles O36: EMPTY, too far, a collision, or else a legal match that cannot be made longer. -/
theorem measureIsTheLongestAgreement : Obligations.MeasureIsTheLongestAgreement := by
  intro S p c hc hp
  refine ⟨measureAt_empty S p, measureAt_of_far, fun ⟨i, hi, hdiff⟩ => ?_, fun hnear hfirst => ?_⟩
  · exact measureAt_of_collision fun heq => hdiff ((firstBytes_agree_iff hc hp).mp heq i hi)
  · have hm := measureAt_of_agree hnear ((firstBytes_agree_iff hc hp).mpr hfirst)
    obtain ⟨-, -, hmin, hmax, hend, -, hbytes⟩ := measureAt_ok hc hp hm
    rw [Nat.sub_sub_self hc.le] at hbytes
    exact ⟨_, hm, hmin, hmax, hend, hbytes, measureAt_longest hc hm⟩

/-! ## The matches among the tokens of a slice (R129) -/

/-- A backreference among tokens that replay a slice is legal at the position the tokens before it reach. -/
theorem Replays.matchOk {S : List Byte} {q off len : Nat} {before after : List Tok}
    (h : Replays S q (before ++ .ref off len :: after)) : MatchOk S (q + (before.map Tok.count).sum) off len := by
  induction before generalizing q with
  | nil =>
    obtain ⟨hok, -⟩ := h
    exact hok
  | cons t before ih =>
    have hrest : Replays S (q + t.count) (before ++ .ref off len :: after) := by
      cases t with
      | run s =>
        obtain ⟨-, -, -, -, hrest⟩ := h
        exact hrest
      | ref off' len' =>
        obtain ⟨-, hrest⟩ := h
        exact hrest
    rw [List.map_cons, List.sum_cons, ← Nat.add_assoc]
    exact ih hrest

/-- Settles O37: the tokens of a slice replay it from position 0, under either policy. -/
theorem everyMatchIsLegal : Obligations.EveryMatchIsLegal := by
  intro policy S before after off len htoks
  have hreplays := replays_tokenize policy S
  rw [htoks] at hreplays
  have hok := hreplays.matchOk
  rwa [Nat.zero_add] at hok

end Sys2Proof.Machine

/-! # Proofs: the token encoder and ENCODE (42_encoder.md)

The tokens of a slice, the chunk of a slice, the chunks of an input, and what DECODE makes of them. -/

namespace Sys2Proof.Machine

/-! ## The tokens of a slice (R149, R150, R156(d)) -/

/-- Behind its first token, a replay goes on where that token's bytes end. -/
theorem Replays.tail {S : List Byte} {q : Nat} {t : Tok} {rest : List Tok} (h : Replays S q (t :: rest)) :
    Replays S (q + t.count) rest := by
  cases t with
  | run s =>
    obtain ⟨-, -, -, -, hrest⟩ := h
    exact hrest
  | ref off len =>
    obtain ⟨-, hrest⟩ := h
    exact hrest

/-- Tokens that replay a slice from `q` produce exactly the bytes behind `q`. -/
theorem Replays.count_sum {S : List Byte} {q : Nat} {toks : List Tok} (h : Replays S q toks) :
    q + (toks.map Tok.count).sum = S.length := by
  induction toks generalizing q with
  | nil => exact h
  | cons t rest ih =>
    rw [List.map_cons, List.sum_cons, ← Nat.add_assoc]
    exact ih h.tail

/-- A literal run among tokens that replay a slice has 1 to 32 bytes. -/
theorem Replays.run_length {S bytes : List Byte} {q : Nat} {toks : List Tok} (h : Replays S q toks)
    (hmem : Tok.run bytes ∈ toks) : 1 ≤ bytes.length ∧ bytes.length ≤ 32 := by
  induction toks generalizing q with
  | nil => exact absurd hmem List.not_mem_nil
  | cons t rest ih =>
    rcases List.mem_cons.mp hmem with rfl | hmem
    · obtain ⟨h1, h32, -⟩ := h
      exact ⟨h1, h32⟩
    · exact ih h.tail hmem

/-- `k` pending literals are `floor(k/32)` runs of 32 and, when 32 does not divide `k`, one run of the rest: of the
`ceil(k/32)` blocks only the last can be short. -/
theorem flushLiterals_eq (s : List Byte) :
    flushLiterals s =
      (List.range (s.length / 32)).map (fun j => Tok.run ((s.drop (32 * j)).take 32)) ++
        (if s.length % 32 = 0 then [] else [Tok.run (s.drop (32 * (s.length / 32)))]) := by
  have hblocks : flushLiterals s =
      (List.range ((s.length + 31) / 32)).map fun j => Tok.run ((s.drop (32 * j)).take 32) := by
    rw [flushLiterals, blocks_eq_map_range (by decide), List.map_map]
    rfl
  rw [hblocks]
  split_ifs with hmod
  · rw [show (s.length + 31) / 32 = s.length / 32 by omega, List.append_nil]
  · have hlast : (s.drop (32 * (s.length / 32))).take 32 = s.drop (32 * (s.length / 32)) :=
      List.take_of_length_le (by rw [List.length_drop]; omega)
    rw [show (s.length + 31) / 32 = s.length / 32 + 1 by omega, List.range_succ, List.map_append, List.map_singleton,
      hlast]

/-! ## The chunks of an input (R140, R141, R155) -/

@[simp] theorem encodeAll_nil (policy : Config.EncPolicy) : encodeAll policy [] = [] := rfl

/-- The chunk of the first 65535 bytes, then the encoding of the rest. -/
theorem encodeAll_cons (policy : Config.EncPolicy) {B : List Byte} (hB : B ≠ []) :
    encodeAll policy B = encodeChunk policy (B.take 65535) ++ encodeAll policy (B.drop 65535) := by
  rw [encodeAll, blocks_cons (by decide) hB]
  rfl

/-- The first chunk of an input that is not empty has a slice of 1 to 65535 bytes. -/
theorem firstSlice_length {B : List Byte} (hB : B ≠ []) :
    1 ≤ (B.take 65535).length ∧ (B.take 65535).length ≤ 65535 := by
  have := List.length_pos_iff.mpr hB
  rw [List.length_take]
  omega

/-! ## DECODE undoes ENCODE (R143, R156, R174) -/

/-- The packed tokens of a slice, as a payload of their own, decode to the slice. -/
theorem decodeTokens_pack_tokenize (policy : Config.EncPolicy) (S : List Byte) :
    decodeTokens (pack (tokenize policy S)) 0 (pack (tokenize policy S)).length S.length = .ok S := by
  have htoks := tokensAt_pack (tokenize policy S) [] 0 (replays_tokenize policy S) (Nat.zero_le _)
  rwa [List.nil_append, List.length_nil, Nat.zero_add, List.take_zero] at htoks

/-- DECODE of the chunk of a slice of 1 to 65535 bytes is the slice. -/
theorem decodeAll_encodeChunk (policy : Config.EncPolicy) {S : List Byte} (h1 : 1 ≤ S.length)
    (h2 : S.length ≤ 65535) : decodeAll (encodeChunk policy S) = .ok S := by
  rw [decodeAll_of_front_ok (decodeChunk_encodeChunk policy h1 h2), List.drop_length]
  exact congrArg Except.ok (List.append_nil S)

/-- DECODE of the encoding of an input is the input, whichever finder ran. -/
theorem decodeAll_encodeAll (policy : Config.EncPolicy) (B : List Byte) : decodeAll (encodeAll policy B) = .ok B := by
  induction B using blocks_induction (k := 65535) (by decide) with
  | nil => rfl
  | cons B hB ih =>
    obtain ⟨h1, h2⟩ := firstSlice_length hB
    rw [encodeAll_cons policy hB, decodeAll_append (decodeAll_encodeChunk policy h1 h2), ih]
    exact congrArg Except.ok (List.take_append_drop 65535 B)

/-- Settles O43: the two kinds of chunk of a slice, and the chunk by chunk round trip of an input. -/
theorem decodeOfEncodeIsTheInput : Obligations.DecodeOfEncodeIsTheInput := by
  refine fun policy => ⟨fun S h1 h2 => ?_, decodeAll_encodeAll policy⟩
  rcases encodeChunk_cases policy h1 h2 with ⟨hshorter, hwf, hchunk⟩ | ⟨-, hwf, hchunk⟩
  · exact .inr ⟨_, _, hshorter, writeHeader_of_wf hwf, hchunk, decodeTokens_pack_tokenize policy S⟩
  · exact .inl ⟨_, writeHeader_of_wf hwf, hchunk⟩

/-! ## Tokens, chunks and sizes -/

/-- Settles O38: the tokens of a slice replay it from position 0, and so count its bytes. -/
theorem tokensCoverTheSlice : Obligations.TokensCoverTheSlice := by
  intro policy S
  have hsum := (replays_tokenize policy S).count_sum
  rwa [Nat.zero_add] at hsum

/-- Settles O39: the blocks of the pending literals, and the runs among tokens that replay a slice. -/
theorem literalRunsAreSplitFrontFirst : Obligations.LiteralRunsAreSplitFrontFirst :=
  ⟨flushLiterals_eq, fun policy S _ hmem => (replays_tokenize policy S).run_length hmem⟩

/-- Settles O41: the chunks are those of the input's blocks of 65535 bytes. -/
theorem inputSplitsIntoMaxSizeChunks : Obligations.InputSplitsIntoMaxSizeChunks := by
  intro policy B
  rw [encodeAll, blocks_eq_map_range (by decide), List.map_map]
  rfl

/-- Settles O42: each chunk adds at most 6 bytes to its slice, and there is one chunk per 65535 bytes begun. -/
theorem encodingExpandsByAtMostSixPerChunk : Obligations.EncodingExpandsByAtMostSixPerChunk := by
  intro policy B
  induction B using blocks_induction (k := 65535) (by decide) with
  | nil => simp
  | cons B hB ih =>
    have hpos := List.length_pos_iff.mpr hB
    have hchunk := encodeChunk_length policy (B.take 65535)
    rw [List.length_take] at hchunk
    rw [List.length_drop] at ih
    rw [encodeAll_cons policy hB, List.length_append]
    omega

/-- Settles O40: `writeHeader` accepts the lengths of either kind of chunk, and the two lengths choose the kind. -/
theorem compressedExactlyWhenItShrinks : Obligations.CompressedExactlyWhenItShrinks := by
  intro policy S h1 h2 payload
  rcases encodeChunk_cases policy h1 h2 with ⟨hshorter, hwf, hchunk⟩ | ⟨hlonger, hwf, hchunk⟩
  · exact ⟨fun _ => ⟨_, writeHeader_of_wf hwf, hchunk⟩, fun hlonger => absurd hshorter (Nat.not_lt.mpr hlonger)⟩
  · exact ⟨fun hshorter => absurd hshorter (Nat.not_lt.mpr hlonger), fun _ => ⟨_, writeHeader_of_wf hwf, hchunk⟩⟩

/-! ## ENCODE as an operation (R140, R261) -/

/-- A DECODE of a valid buffer returns its bytes from every state. -/
theorem exec_decode_of_ok {inp out : List Byte} (h : decodeAll inp = .ok out) (s : State) :
    exec (.decode inp) s = .next (s.leaveOwnDecoder.complete (.bytes out)) := by
  show execDecode inp s = _
  rw [execDecode, h]

/-- Settles O44: ENCODE's next state is its definition, and DECODE of its result is a DECODE of a valid buffer. -/
theorem encodeCompletesAndDecodesBack : Obligations.EncodeCompletesAndDecodesBack := by
  refine ⟨rfl, fun B s => ⟨⟨freeEncodeUnit s.freeCount, s.freeCount + 1, rfl⟩, ?_⟩⟩
  exact ⟨_, exec_decode_of_ok (decodeAll_encodeAll Config.encPolicy B) s, rfl, rfl⟩

end Sys2Proof.Machine

/-! # Proofs: the chunk decoder (43_decoder.md)

The copy engine, one token, one header and the payload's end, each with the error it raises, then the steps that run
them, DECODE as an operation, and the stepped decode unit as a refinement of it. -/

namespace Sys2Proof.Machine

/-! ## The copy engine (R186) -/

/-- The last byte of a copy is read from the window that the bytes before it have grown. -/
theorem copyBytes_succ (off len : Nat) (w : List Byte) :
    copyBytes off (len + 1) w = copyBytes off len w ++ [winRead (copyBytes off len w) off] := by
  induction len generalizing w with
  | zero => rfl
  | succ len ih => exact ih (w ++ [winRead w off])

/-- `len` bytes that repeat the last `off` bytes of a window, the first of them first. -/
def periodic (w : List Byte) (off len : Nat) : List Byte :=
  (List.range len).map fun i => w.getD (w.length - off + i % off) 0#8

@[simp] theorem periodic_length (w : List Byte) (off len : Nat) : (periodic w off len).length = len := by
  simp [periodic]

theorem periodic_succ (w : List Byte) (off len : Nat) :
    periodic w off (len + 1) = periodic w off len ++ [w.getD (w.length - off + len % off) 0#8] := by
  simp [periodic, List.range_succ]

theorem periodic_getElem? {w : List Byte} {off len i : Nat} (hi : i < len) :
    (periodic w off len)[i]? = some (w.getD (w.length - off + i % off) 0#8) := by
  simp [periodic, hi]

/-- `off` bytes back from the end of a periodic extension stands the byte that continues it: in the window itself
while fewer than `off` bytes have been added, and one period earlier in the extension after that. -/
theorem winRead_append_periodic {w : List Byte} {off : Nat} (h1 : 1 ≤ off) (hoff : off ≤ w.length) (len : Nat) :
    winRead (w ++ periodic w off len) off = w.getD (w.length - off + len % off) 0#8 := by
  rw [winRead, List.length_append, periodic_length]
  by_cases hlen : len < off
  · rw [List.getD_append _ _ _ _ (by omega), Nat.mod_eq_of_lt hlen]
    congr 1
    omega
  · rw [List.getD_append_right _ _ _ _ (by omega), List.getD_eq_getElem?_getD, periodic_getElem? (by omega),
      Option.getD_some, show w.length + len - off - w.length = len - off by omega, ← Nat.mod_eq_sub_mod (by omega)]

theorem copyBytes_eq_periodic {w : List Byte} {off : Nat} (h1 : 1 ≤ off) (hoff : off ≤ w.length) (len : Nat) :
    copyBytes off len w = w ++ periodic w off len := by
  induction len with
  | zero => simp [copyBytes, periodic]
  | succ len ih =>
    rw [copyBytes_succ, ih, winRead_append_periodic h1 hoff, periodic_succ, List.append_assoc]

/-- Within one period nothing repeats, so the extension is a piece of the window. -/
theorem periodic_of_le {w : List Byte} {off len : Nat} (hoff : off ≤ w.length) (hlen : len ≤ off) :
    periodic w off len = (w.drop (w.length - off)).take len := by
  apply List.ext_getElem (by simp; omega)
  intro i hi _
  rw [periodic_length] at hi
  simp [periodic, Nat.mod_eq_of_lt (show i < off by omega), show w.length - off + i < w.length by omega]

/-- Settles O22, by induction on the length: each byte is read one period back. -/
theorem copyRepeatsWithPeriodOffset : Obligations.CopyRepeatsWithPeriodOffset := by
  intro W0 off len h1 hoff
  refine ⟨copyBytes_eq_periodic h1 hoff len, fun hlen => ?_⟩
  rw [copyBytes_eq_periodic h1 hoff, periodic_of_le hoff hlen]

/-! ## How a form fails (R178, R187) -/

theorem endsInError_decodeFails (s : State) (e : Raise) :
    endsInError (.next (decodeFails s e)) s e.kind.code e.pos :=
  ⟨_, _, freeDecodeUnit_phase s.freeCount, rfl⟩

theorem tokenCheck_cut {t : Tok} {size tp pe op n : Nat} (h : pe < tp + size) :
    tokenCheck t size tp pe op n = some .malformedChunk :=
  if_pos h

theorem tokenCheck_farOffset {off len size tp pe op n : Nat} (hsize : tp + size ≤ pe) (hoff : op < off) :
    tokenCheck (.ref off len) size tp pe op n = some .invalidBackreference := by
  rw [tokenCheck.eq_def, if_neg hsize.not_gt]
  exact if_pos hoff

theorem tokenCheck_overflow {t : Tok} {size tp pe op n : Nat} (hsize : tp + size ≤ pe)
    (hoff : ∀ off len, t = .ref off len → off ≤ op) (hn : n < op + t.count) :
    tokenCheck t size tp pe op n = some .malformedChunk := by
  rw [tokenCheck.eq_def, if_neg hsize.not_gt]
  cases t with
  | run bytes => exact if_pos hn
  | ref off len => exact (if_neg (hoff off len rfl).not_gt).trans (if_pos hn)

section token

variable {s : State} {f : TokenForm} (hp : s.decoder.phase = .tokens)
include hp

theorem execToken_endsInError {k : ErrorKind}
    (hc : tokenCheck (tokOf f) f.size s.decoder.tp s.decoder.pe s.decoder.window.length s.decoder.orig.toNat = some k) :
    endsInError (execToken f s) s k.code s.decoder.tp := by
  rw [execToken_error hp hc]
  exact endsInError_decodeFails s _

theorem execToken_cut (h : s.decoder.pe < s.decoder.tp + f.size) :
    endsInError (execToken f s) s 1#3 s.decoder.tp :=
  execToken_endsInError hp (tokenCheck_cut h)

theorem execToken_farOffset {off len : Nat} (hf : tokOf f = .ref off len)
    (hsize : s.decoder.tp + f.size ≤ s.decoder.pe) (hoff : s.decoder.window.length < off) :
    endsInError (execToken f s) s 3#3 s.decoder.tp :=
  execToken_endsInError hp (by rw [hf]; exact tokenCheck_farOffset hsize hoff)

theorem execToken_refOverflow {off len : Nat} (hf : tokOf f = .ref off len)
    (hsize : s.decoder.tp + f.size ≤ s.decoder.pe) (hoff : off ≤ s.decoder.window.length)
    (hn : s.decoder.orig.toNat < s.decoder.window.length + len) :
    endsInError (execToken f s) s 1#3 s.decoder.tp := by
  refine execToken_endsInError (k := .malformedChunk) hp ?_
  rw [hf]
  exact tokenCheck_overflow hsize (by rintro _ _ ⟨⟩; exact hoff) hn

theorem execToken_runOverflow {bytes : List Byte} (hf : tokOf f = .run bytes)
    (hsize : s.decoder.tp + f.size ≤ s.decoder.pe)
    (hn : s.decoder.orig.toNat < s.decoder.window.length + bytes.length) :
    endsInError (execToken f s) s 1#3 s.decoder.tp := by
  refine execToken_endsInError (k := .malformedChunk) hp ?_
  rw [hf]
  exact tokenCheck_overflow hsize nofun hn

theorem execToken_run {bytes : List Byte} (hf : tokOf f = .run bytes)
    (hsize : s.decoder.tp + f.size ≤ s.decoder.pe)
    (hn : s.decoder.window.length + bytes.length ≤ s.decoder.orig.toNat) :
    execToken f s = .next { s with decoder :=
      { s.decoder with tp := s.decoder.tp + f.size, window := s.decoder.window ++ bytes } } := by
  rw [execToken_ok hp (tokenCheck_none_iff.mpr ⟨hsize, by rw [hf]; exact hn, by rw [hf]; nofun⟩), hf]
  rfl

theorem execToken_ref {off len : Nat} (hf : tokOf f = .ref off len)
    (hsize : s.decoder.tp + f.size ≤ s.decoder.pe) (hoff : off ≤ s.decoder.window.length)
    (hn : s.decoder.window.length + len ≤ s.decoder.orig.toNat) :
    execToken f s = .next { s with decoder :=
      { s.decoder with tp := s.decoder.tp + f.size, window := copyBytes off len s.decoder.window } } := by
  have hin : ∀ off' len', tokOf f = .ref off' len' → off' ≤ s.decoder.window.length := by
    rw [hf]
    rintro _ _ ⟨⟩
    exact hoff
  rw [execToken_ok hp (tokenCheck_none_iff.mpr ⟨hsize, by rw [hf]; exact hn, hin⟩), hf]
  rfl

end token

/-- Settles O24, one clause per check, in the order of R178. -/
theorem tokensFailInOrder : Obligations.TokensFailInOrder := by
  intro s f hp
  rw [exec_tokenForm]
  exact ⟨execToken_cut hp, fun _ _ hf => execToken_farOffset hp hf, fun _ _ hf => execToken_refOverflow hp hf,
    fun _ hf => execToken_runOverflow hp hf⟩

/-- Settles O23: what each form says decides what joins the window. -/
theorem tokensComplete : Obligations.TokensComplete := by
  intro s hp
  exact ⟨fun bytes => execToken_run (f := .lit bytes) hp rfl, fun l o => execToken_ref (f := .refS l o) hp rfl,
    fun e o => execToken_ref (f := .refL e o) hp rfl⟩

/-! ## Headers (R103, R173, R174) -/

theorem execHeader_endsInError {s : State} {h : HeaderForm} {k : ErrorKind} (hp : s.decoder.phase = .header)
    (hc : headerCheck h (s.decoder.inp.length - s.decoder.cp) = some k) :
    endsInError (execHeader h s) s k.code s.decoder.cp := by
  rw [execHeader_error hp hc]
  exact endsInError_decodeFails s _

/-- Settles O20, by the checks of a RAW header in order. -/
theorem rawHeaderOutputsItsPayload : Obligations.RawHeaderOutputsItsPayload := by
  intro s n hp
  refine ⟨fun h5 hn hpay => ?_, fun h5 hn => ?_, fun h => ?_⟩
  · have hc : headerCheck (.raw n) (s.decoder.inp.length - s.decoder.cp) = none := by
      rw [headerCheck_raw, if_neg (by omega), if_neg hn, if_neg (by omega)]
    rw [← slice_add, ← Nat.add_assoc]
    exact execHeader_ok hp hc
  · refine execHeader_endsInError (h := .raw n) (k := .malformedChunk) hp ?_
    rw [headerCheck_raw, if_neg (by omega), if_pos hn]
  · refine execHeader_endsInError (h := .raw n) (k := .truncatedInput) hp ?_
    rw [headerCheck_raw]
    by_cases h5 : s.decoder.inp.length - s.decoder.cp < 5
    · rw [if_pos h5]
    · obtain ⟨hn, hpay⟩ := h.resolve_left h5
      rw [if_neg h5, if_neg hn, if_pos hpay]

/-- Settles O21, by the checks of a COMPRESSED header in order. -/
theorem compressedHeaderStartsTokenStream : Obligations.CompressedHeaderStartsTokenStream := by
  intro s n m hp
  refine ⟨fun h7 hn hm hmn hpay => ?_, fun h7 hlens => ?_, fun h => ?_⟩
  · refine execHeader_ok (h := .comp n m) hp ?_
    rw [headerCheck_comp, if_neg (by omega), if_neg hn, if_neg (not_or.mpr ⟨hm, by omega⟩), if_neg (by omega)]
  · refine execHeader_endsInError (h := .comp n m) (k := .malformedChunk) hp ?_
    rw [headerCheck_comp, if_neg (by omega)]
    by_cases hn : n = 0#16
    · rw [if_pos hn]
    · rw [if_neg hn, if_pos (hlens.resolve_left hn)]
  · refine execHeader_endsInError (h := .comp n m) (k := .truncatedInput) hp ?_
    rw [headerCheck_comp]
    by_cases h7 : s.decoder.inp.length - s.decoder.cp < 7
    · rw [if_pos h7]
    · obtain ⟨hn, hm, hmn, hpay⟩ := h.resolve_left h7
      rw [if_neg h7, if_neg hn, if_neg (not_or.mpr ⟨hm, by omega⟩), if_pos hpay]

/-! ## The payload's end (R185) -/

theorem finishPayload_of_full {s : State} (h : s.decoder.window.length = s.decoder.orig.toNat) :
    finishPayload s = { s with decoder :=
      { s.decoder with phase := .header, cp := s.decoder.pe, out := s.decoder.out ++ s.decoder.window } } := by
  simp [finishPayload, endTokens, h]

theorem finishPayload_of_short {s : State} (h : s.decoder.window.length ≠ s.decoder.orig.toNat) :
    finishPayload s = decodeFails s { kind := .malformedChunk, pos := s.decoder.tp } := by
  simp [finishPayload, endTokens, h]

/-- Settles O28: a step there is `finishPayload`. -/
theorem payloadEndChecksOutputLength : Obligations.PayloadEndChecksOutputLength := by
  intro s hp htp
  dsimp only
  rw [step_payloadEnd hp htp.ge]
  refine ⟨fun hshort => ?_, fun hfull => ?_⟩
  · rw [finishPayload_of_short hshort, ← htp]
    exact endsInError_decodeFails s _
  · rw [finishPayload_of_full hfull]

/-! ## A step at a control byte (R177 to R182) -/

section step

variable {s : State} (hp : s.decoder.phase = .tokens) (hlt : s.decoder.tp < s.decoder.pe)
include hp hlt

theorem step_tokenCut (hd : decodeToken (slice s.decoder.inp s.decoder.tp s.decoder.pe) = .error .tokenCut) :
    endsInError (step s) s 1#3 s.decoder.tp := by
  rw [step_tokens hp hlt, hd]
  exact endsInError_decodeFails s _

theorem step_token {f : TokenForm} (hd : decodeToken (slice s.decoder.inp s.decoder.tp s.decoder.pe) = .ok f) :
    step s = execToken f s := by
  rw [step_tokens hp hlt, hd]

/-- A step at a backreference whose bytes lie in the payload: the checks of R178 in order, then the copy of R186. -/
theorem step_ref {f : TokenForm} {off len : Nat}
    (hd : decodeToken (slice s.decoder.inp s.decoder.tp s.decoder.pe) = .ok f) (hf : tokOf f = .ref off len)
    (h1 : 1 ≤ off) (hsize : s.decoder.tp + f.size ≤ s.decoder.pe) :
    (s.decoder.window.length < off → endsInError (step s) s 3#3 s.decoder.tp) ∧
    (off ≤ s.decoder.window.length → s.decoder.orig.toNat < s.decoder.window.length + len →
      endsInError (step s) s 1#3 s.decoder.tp) ∧
    (off ≤ s.decoder.window.length → s.decoder.window.length + len ≤ s.decoder.orig.toNat →
      step s = .next { s with decoder := { s.decoder with
        tp := s.decoder.tp + f.size
        window := s.decoder.window ++ periodic s.decoder.window off len } }) := by
  rw [step_token hp hlt hd]
  refine ⟨execToken_farOffset hp hf hsize, execToken_refOverflow hp hf hsize, fun hoff hn => ?_⟩
  rw [execToken_ref hp hf hsize hoff hn, copyBytes_eq_periodic h1 hoff]

/-- A step at a literal run whose bytes lie in the payload: the check against originalLength (R184), then the run. -/
theorem step_run {bytes : List Byte}
    (hd : decodeToken (slice s.decoder.inp s.decoder.tp s.decoder.pe) = .ok (.lit bytes))
    (hsize : s.decoder.tp + (1 + bytes.length) ≤ s.decoder.pe) :
    (s.decoder.orig.toNat < s.decoder.window.length + bytes.length → endsInError (step s) s 1#3 s.decoder.tp) ∧
    (s.decoder.window.length + bytes.length ≤ s.decoder.orig.toNat →
      step s = .next { s with decoder := { s.decoder with
        tp := s.decoder.tp + (1 + bytes.length)
        window := s.decoder.window ++ bytes } }) := by
  rw [step_token hp hlt hd]
  exact ⟨execToken_runOverflow hp rfl hsize, execToken_run (f := .lit bytes) hp rfl hsize⟩

end step

/-- Settles O25: behind the control byte stand `k` bytes of the payload, the run, or fewer. -/
theorem stepAtLiteralControlByte : Obligations.StepAtLiteralControlByte := by
  intro s hp hlt hpe
  dsimp only
  have hslice := slice_cons hlt hpe
  have hrest := slice_length_of_le (i := s.decoder.tp + 1) hpe
  generalize s.decoder.inp.getD s.decoder.tp 0#8 = ctrl at hslice ⊢
  intro hform
  have hrun (hfits : s.decoder.tp + 1 + (ctrl.toNat % 32 + 1) ≤ s.decoder.pe) :
      ((s.decoder.inp.drop (s.decoder.tp + 1)).take (ctrl.toNat % 32 + 1)).length = ctrl.toNat % 32 + 1 ∧
        decodeToken (slice s.decoder.inp s.decoder.tp s.decoder.pe) =
          .ok (.lit ((s.decoder.inp.drop (s.decoder.tp + 1)).take (ctrl.toNat % 32 + 1))) := by
    refine ⟨by simp; omega, ?_⟩
    rw [hslice, decodeToken_lit_ok hform (by omega), slice_eq, List.take_take, min_eq_left (by omega)]
  refine ⟨fun hcut => step_tokenCut hp hlt ?_, fun hfits hn => ?_, fun hfits hn => ?_⟩
  · rw [hslice]
    exact decodeToken_lit_cut hform (by omega)
  · obtain ⟨hlen, hd⟩ := hrun hfits
    exact (step_run hp hlt hd (by omega)).1 (by omega)
  · obtain ⟨hlen, hd⟩ := hrun hfits
    rw [(step_run hp hlt hd (by omega)).2 (by omega), hlen, Nat.add_assoc]

/-- Settles O26: the payload's end cuts the token after its control byte, or both its bytes are there. -/
theorem stepAtShortBackreference : Obligations.StepAtShortBackreference := by
  intro s hp hlt hpe
  dsimp only
  have hslice := slice_cons hlt hpe
  generalize s.decoder.inp.getD s.decoder.tp 0#8 = ctrl at hslice ⊢
  intro h1 h6
  by_cases hcut : s.decoder.pe < s.decoder.tp + 2
  · rw [show s.decoder.pe = s.decoder.tp + 1 by omega, slice_self] at hslice
    refine ⟨fun _ => step_tokenCut hp hlt ?_, by omega, by omega, by omega⟩
    rw [show s.decoder.pe = s.decoder.tp + 1 by omega, hslice]
    exact decodeToken_refS_cut h1 h6
  · have hfits : s.decoder.tp + 2 ≤ s.decoder.pe := by omega
    rw [slice_cons (i := s.decoder.tp + 1) (by omega) hpe] at hslice
    generalize s.decoder.inp.getD (s.decoder.tp + 1) 0#8 = lo at hslice ⊢
    have hd := hslice ▸ decodeToken_refS_ok h1 h6 lo
    obtain ⟨hfar, hlong, hcopy⟩ := step_ref hp hlt hd rfl (Nat.succ_pos _) hfits
    rw [fieldOffset_offsetField] at hfar hlong hcopy
    rw [shortLength_formBits] at hlong hcopy
    exact ⟨fun h => absurd h hcut, fun _ => hfar, fun _ => hlong, fun _ => hcopy⟩

/-- Settles O27: the payload's end cuts the token before its third byte, or all its bytes are there. -/
theorem stepAtLongBackreference : Obligations.StepAtLongBackreference := by
  intro s hp hlt hpe
  dsimp only
  have hslice := slice_cons hlt hpe
  have hrest := slice_length_of_le (i := s.decoder.tp + 1) hpe
  generalize s.decoder.inp.getD s.decoder.tp 0#8 = ctrl at hslice ⊢
  intro h7
  by_cases hcut : s.decoder.pe < s.decoder.tp + 3
  · refine ⟨fun _ => step_tokenCut hp hlt ?_, by omega, by omega, by omega⟩
    rw [hslice]
    exact decodeToken_refL_cut h7 (by omega)
  · have hfits : s.decoder.tp + 3 ≤ s.decoder.pe := by omega
    rw [slice_cons (i := s.decoder.tp + 1) (by omega) hpe, slice_cons (i := s.decoder.tp + 2) (by omega) hpe] at hslice
    generalize s.decoder.inp.getD (s.decoder.tp + 1) 0#8 = e at hslice ⊢
    generalize s.decoder.inp.getD (s.decoder.tp + 2) 0#8 = lo at hslice ⊢
    have hd := hslice ▸ decodeToken_refL_ok h7 e lo
    obtain ⟨hfar, hlong, hcopy⟩ := step_ref hp hlt hd rfl (Nat.succ_pos _) hfits
    rw [fieldOffset_offsetField] at hfar hlong hcopy
    exact ⟨fun h => absurd h hcut, fun _ => hfar, fun _ => hlong, fun _ => hcopy⟩

/-! ## What a step fetches (R81, R170, R174) -/

/-- Settles O5: each phase of the decode unit fetches in its own encoding space. -/
theorem stepRunsTheDecodedInstruction : Obligations.StepRunsTheDecodedInstruction := by
  intro s i
  refine ⟨fun hp hlt hd => ?_, fun hp hlt hd => ?_, fun code args rest hp hi hd => ?_⟩
  · simp [step, nextAction, consume, hp, hlt, hd]
  · simp [step, nextAction, consume, slice, hp, hlt, hd]
  · simp [step, nextAction, consume, hp, hi, hd]

/-! ## DECODE as an operation (R170, R187) -/

theorem exec_decode_of_error {inp : List Byte} {e : Raise} (h : decodeAll inp = .error e) (s : State) :
    exec (.decode inp) s = .next (s.leaveOwnDecoder.raise e) := by
  show execDecode inp s = _
  rw [execDecode, h]

/-- Settles O30: what DECODE leaves in the decode unit is what an operation with a decoder of its own leaves there. -/
theorem decodeReturnsBytesOrFirstError : Obligations.DecodeReturnsBytesOrFirstError := by
  intro s inp
  obtain ⟨d, k, hleaves, hs⟩ := s.leaveOwnDecoder_eq
  refine ⟨fun out hout => ⟨d, k, hleaves, ?_⟩, fun e herr => ⟨d, k, hleaves, ?_⟩⟩
  · rw [exec_decode_of_ok hout, hs]
    rfl
  · rw [exec_decode_of_error herr, hs]
    rfl

/-! ## The stepped decode unit reaches what DECODE answers (R170, R174, R272) -/

/-- The state in which a running DECODE has ended with an answer. -/
def decodeEnds (s : State) : Except Raise (List Byte) → State
  | .ok out => s.leaveDecoder.complete (.bytes out)
  | .error e => decodeFails s e

/-- At most `n` steps end the running DECODE with the answer `r`. -/
def endsWithin (s : State) (n : Nat) (r : Except Raise (List Byte)) : Prop :=
  ∃ k, k ≤ n ∧ runsTo s k (decodeEnds s r)

/-- A last step. -/
theorem endsWithin_last {s : State} {n : Nat} {r : Except Raise (List Byte)} (hn : 1 ≤ n)
    (h : step s = .next (decodeEnds s r)) : endsWithin s n r :=
  ⟨1, hn, _, h, rfl⟩

/-- A step that changes the decode unit alone, which is free again at the DECODE's end. -/
theorem endsWithin_step {s : State} {d : DecodeUnit} {m n : Nat} {r : Except Raise (List Byte)} (hmn : m < n)
    (h : step s = .next { s with decoder := d }) (hd : endsWithin { s with decoder := d } m r) : endsWithin s n r := by
  obtain ⟨k, hk, hrun⟩ := hd
  have hends : decodeEnds { s with decoder := d } r = decodeEnds s r := by cases r <;> rfl
  exact ⟨k + 1, by omega, _, h, hends ▸ hrun⟩

/-- A token stream takes at most one step per payload byte and one at the payload's end, and the DECODE goes on, from
the chunk's window, as `rest` says. -/
theorem tokens_endWithin {inp out : List Byte} {cp pe m : Nat} {orig : BitVec 16} {s : State}
    {rest : List Byte → Except Raise (List Byte)}
    (hrest : ∀ tp chunk, endsWithin { s with decoder := ⟨.header, inp, out ++ chunk, pe, tp, pe, orig, chunk⟩ } m
      (rest chunk)) (tp : Nat) (w : List Byte) :
    endsWithin { s with decoder := ⟨.tokens, inp, out, cp, tp, pe, orig, w⟩ } (pe - tp + 1 + m)
      ((tokensAt inp pe orig.toNat tp w).bind rest) := by
  induction tp, w using tokens_induction (pe := pe) with
  | finish tp w hle =>
    rw [tokensAt_end hle, endTokens]
    by_cases hlen : w.length = orig.toNat
    · rw [if_pos hlen]
      refine endsWithin_step (by omega) ?_ (hrest tp w)
      rw [step_payloadEnd rfl hle, finishPayload_of_full hlen]
    · rw [if_neg hlen]
      refine endsWithin_last (by omega) ?_
      rw [step_payloadEnd rfl hle, finishPayload_of_short hlen]
      rfl
  | token tp w hlt ih =>
    rw [tokensAt_step hlt]
    have hstep := step_tokens (s := { s with decoder := ⟨.tokens, inp, out, cp, tp, pe, orig, w⟩ }) rfl hlt
    cases hd : decodeToken (slice inp tp pe) with
    | error r =>
      obtain rfl := decodeToken_error hd
      refine endsWithin_last (by omega) ?_
      simp only [hstep, hd]
      rfl
    | ok f =>
      simp only [hd] at hstep
      cases hc : tokenCheck (tokOf f) f.size tp pe w.length orig.toNat with
      | some kind =>
        refine endsWithin_last (by omega) ?_
        rw [hstep, execToken_error rfl hc]
        simp only [runToken, hc]
        rfl
      | none =>
        have := f.size_pos
        simp only [runToken, hc]
        refine endsWithin_step (by omega) ?_ (ih (tp + f.size) _ (by omega))
        rw [hstep, execToken_ok rfl hc]

/-- After a header that passes its checks, DECODE goes on behind the payload with the chunk's output. -/
theorem decodeRest_of_header {inp out : List Byte} {cp : Nat} {h : HeaderForm} (hlt : cp < inp.length)
    (hparse : parseHeader inp cp = .ok h) :
    prependOk out (decodeRest inp cp) = (chunkOutput inp (cp + h.size) h).bind fun chunk =>
      prependOk (out ++ chunk) (decodeRest inp (cp + h.size + h.payloadLen)) := by
  rw [decodeRest_step hlt, decodeChunk, hparse]
  cases hchunk : chunkOutput inp (cp + h.size) h with
  | error e => simp only [hchunk]; rfl
  | ok chunk => simp only [hchunk]; exact prependOk_prependOk ..

theorem decodeRest_of_badHeader {inp out : List Byte} {cp : Nat} {e : Raise} (hlt : cp < inp.length)
    (hparse : parseHeader inp cp = .error e) : prependOk out (decodeRest inp cp) = .error e := by
  rw [decodeRest_step hlt, decodeChunk, hparse]
  rfl

/-- From a chunk boundary a DECODE takes at most one step per byte left and one at the input's end: a header pays for
its own step, and a COMPRESSED one for the step at its payload's end too. -/
theorem chunks_endWithin {inp : List Byte} {s : State} (cp : Nat) (out : List Byte) (tp pe : Nat) (orig : BitVec 16)
    (w : List Byte) :
    endsWithin { s with decoder := ⟨.header, inp, out, cp, tp, pe, orig, w⟩ } (inp.length - cp + 1)
      (prependOk out (decodeRest inp cp)) := by
  induction cp using chunks_induction (n := inp.length) generalizing out tp pe orig w with
  | finish cp hle =>
    rw [decodeRest_end hle, prependOk, List.append_nil]
    exact endsWithin_last (by omega) (step_inputEnd rfl hle)
  | chunk cp hlt ih =>
    have hstep := step_header (s := { s with decoder := ⟨.header, inp, out, cp, tp, pe, orig, w⟩ }) rfl hlt
    cases hparse : parseHeader inp cp with
    | error e =>
      rw [decodeRest_of_badHeader hlt hparse]
      simp only [hparse] at hstep
      exact endsWithin_last (by omega) hstep
    | ok h =>
      rw [decodeRest_of_header hlt hparse]
      simp only [hparse] at hstep
      obtain ⟨hfits, -⟩ := headerCheck_none (parseHeader_ok_iff.mp hparse).2
      cases h with
      | raw n =>
        have hpayload := ih (cp + 5 + n.toNat) (by omega) (out ++ slice inp (cp + 5) (cp + 5 + n.toNat)) tp pe orig w
        refine endsWithin_step ?_ hstep hpayload
        simp only [HeaderForm.size, HeaderForm.payloadLen] at hfits
        omega
      | comp n m =>
        have hpayload := tokens_endWithin (out := out) (cp := cp) (orig := n) (s := s)
          (fun tp chunk => ih (cp + 7 + m.toNat) (by omega) (out ++ chunk) tp (cp + 7 + m.toNat) n chunk) (cp + 7) []
        refine endsWithin_step ?_ hstep hpayload
        simp only [HeaderForm.size, HeaderForm.payloadLen] at hfits
        omega

/-- Settles O33: the start of a DECODE is the chunk boundary at 0, with no output yet. -/
theorem steppingFormsReachesDecode : Obligations.SteppingFormsReachesDecode := by
  intro s t inp hn
  have hends : endsWithin { s with decoder := startDecode inp s.decoder } (inp.length + 1) (decodeAll inp) := by
    rw [← prependOk_nil (decodeAll inp)]
    exact chunks_endWithin 0 [] ..
  obtain ⟨k, hk, hrun⟩ := hends
  refine ⟨k, _, hk, hrun, ?_⟩
  rcases execDecode_cases hn with ⟨out, hout, rfl⟩ | ⟨e, herr, rfl⟩
  · rw [hout]
    exact ⟨rfl, rfl, rfl, rfl, rfl, rfl⟩
  · rw [herr]
    exact ⟨rfl, rfl, rfl, rfl, rfl, rfl⟩

end Sys2Proof.Machine

/-! # Proofs: streaming (44_streaming.md)

What a Writer forwards, what a Reader serves, and how both agree with ENCODE and DECODE of the whole. -/

namespace Sys2Proof.Machine

/-! ## How an operation ends -/

theorem returnsWith_complete (s : State) (r : Result) : returnsWith (.next (s.complete r)) s r s.instances := rfl

theorem returnsWith_addInst (s : State) (i : Inst) (r : Result) :
    returnsWith (.next ((s.addInst i).complete r)) s r (s.instances ++ [i]) := rfl

theorem returnsWith_setInst (s : State) (h : Nat) (i : Inst) (r : Result) :
    returnsWith (.next ((s.setInst h i).complete r)) s r (s.instances.set h i) := rfl

theorem raisesOnly_raiseCode (s : State) (c : BitVec 3) (p : Nat) : raisesOnly (.next (s.raiseCode c p)) s c p := rfl

theorem raisesOnly_raise (s : State) (e : Raise) : raisesOnly (.next (s.raise e)) s e.kind.code e.pos := rfl

/-! ## The Writer operations (R200 to R207) -/

/-- The Writer that W_OPEN makes of a legal block size (R200). -/
def newWriter (sink : List Byte) (n : Nat) : WriterInst :=
  { state := .opened, block := BitVec.ofNat 16 n, buf := [], sink := sink }

theorem exec_wOpen {n : Nat} (h1 : 1 ≤ n) (h2 : n ≤ 65535) (sink : List Byte) (s : State) :
    exec (.wOpen sink n) s =
      .next ((s.addInst (.writer (newWriter sink n))).complete (.handle s.instances.length)) :=
  if_neg (by omega)

theorem exec_wOpen_illegal {n : Nat} (hn : n < 1 ∨ 65535 < n) (sink : List Byte) (s : State) :
    exec (.wOpen sink n) s = .next (s.raise { kind := .invalidBlockSize, pos := 0 }) :=
  if_pos hn

@[simp] theorem partialChunk_nil (policy : Config.EncPolicy) : partialChunk policy [] = [] := rfl

theorem partialChunk_of_ne_nil (policy : Config.EncPolicy) {buf : List Byte} (hb : buf ≠ []) :
    partialChunk policy buf = encodeChunk policy buf :=
  if_pos (List.length_pos_iff.mpr hb)

/-- A Writer with nothing buffered has no partial block to forward and nothing to release. -/
theorem forward_partialChunk_of_empty (policy : Config.EncPolicy) {w : WriterInst} (hb : w.buf = []) :
    forward { w with buf := [] } (partialChunk policy w.buf) = w := by
  obtain ⟨state, block, buf, sink⟩ := w
  obtain rfl : buf = [] := hb
  simp [forward]

section writer

variable {s : State} {h : Nat} {w : WriterInst} (hw : s.instances[h]? = some (.writer w))
include hw

theorem exec_wWrite (d : List Byte) : exec (.wWrite h d) s = .next (writeTo h d s w) := onWriter_of hw _

theorem exec_wFlush : exec (.wFlush h) s = .next (flushWriter h s w) := onWriter_of hw _

theorem exec_wClose : exec (.wClose h) s = .next (closeWriter h s w) := onWriter_of hw _

end writer

/-- Settles O45: the block size is legal or not. -/
theorem writerOpens : Obligations.WriterOpens := by
  intro s sink n
  refine ⟨fun h1 h2 => ⟨_, lengthField_toNat h2, ?_⟩, fun hn => ?_⟩
  · rw [exec_wOpen h1 h2]
    exact returnsWith_addInst ..
  · rw [exec_wOpen_illegal hn]
    exact raisesOnly_raise ..

/-- Settles O47: an empty buffer and a partial block. -/
theorem flushForwardsPartialBlock : Obligations.FlushForwardsPartialBlock := by
  intro s h w hw hst
  rw [exec_wFlush hw, flushWriter_opened hst]
  have hmoves := completeWriter_movesWriter h s { w with buf := [] } (partialChunk Config.encPolicy w.buf)
  refine ⟨fun hb => ?_, fun hb => ?_⟩
  · rwa [forward_partialChunk_of_empty _ hb] at hmoves
  · rwa [partialChunk_of_ne_nil _ hb] at hmoves ⊢

/-- Settles O48: an OPEN Writer with an empty buffer, one with a partial block, and a CLOSED one. -/
theorem closeForwardsAndReleases : Obligations.CloseForwardsAndReleases := by
  intro s h w hw
  rw [exec_wClose hw]
  have hmoves := completeWriter_movesWriter h s { w with state := .closed, buf := [] }
    (partialChunk Config.encPolicy w.buf)
  refine ⟨fun hst hb => ?_, fun hst hb => ?_, fun hst => ?_⟩
  · rw [closeWriter_opened hst]
    rwa [forward_partialChunk_of_empty (w := { w with state := .closed }) _ hb] at hmoves
  · rw [closeWriter_opened hst]
    rwa [partialChunk_of_ne_nil _ hb] at hmoves ⊢
  · rw [closeWriter_closed hst]
    exact returnsWith_complete ..

/-- Settles O49: neither operation reaches the buffer of a CLOSED Writer. -/
theorem closedWriterRaisesStreamClosed : Obligations.ClosedWriterRaisesStreamClosed := by
  intro s h d w hw hst
  rw [exec_wWrite hw, exec_wFlush hw, writeTo_closed d hst, flushWriter_closed hst]
  exact ⟨raisesOnly_raise .., raisesOnly_raise ..⟩

/-! ## The blocks of a byte sequence -/

/-- The first `q` blocks, when `q` blocks are full. -/
theorem blocks_take_full {k q : Nat} (hk : 1 ≤ k) {B : List Byte} (hq : k * q ≤ B.length) :
    blocks k (B.take (k * q)) = (List.range q).map fun j => (B.drop (k * j)).take k := by
  have hcount : (k * q + (k - 1)) / k = q := by
    rw [Nat.mul_add_div (by omega), Nat.div_eq_of_lt (by omega), Nat.add_zero]
  rw [blocks_eq_map_range hk, List.length_take, min_eq_left hq, hcount]
  refine List.map_congr_left fun j hj => ?_
  have hle : k * (j + 1) ≤ k * q := Nat.mul_le_mul_left k (List.mem_range.mp hj)
  rw [List.drop_take, List.take_take, min_eq_left (by rw [Nat.mul_succ] at hle; omega)]

/-- The chunks of the consecutive blocks of `k` bytes, in order. -/
def chunksOf (k : Nat) (B : List Byte) : List Byte := ((blocks k B).map (encodeChunk Config.encPolicy)).flatten

theorem chunksOf_maxChunk (B : List Byte) : chunksOf 65535 B = encodeAll Config.encPolicy B := rfl

theorem chunksOf_eq_range {k : Nat} (hk : 1 ≤ k) (B : List Byte) :
    chunksOf k B = ((List.range ((B.length + (k - 1)) / k)).map
      fun j => encodeChunk Config.encPolicy ((B.drop (k * j)).take k)).flatten := by
  rw [chunksOf, blocks_eq_map_range hk, List.map_map]
  rfl

theorem chunksOf_cons {k : Nat} (hk : 1 ≤ k) {B : List Byte} (hB : B ≠ []) :
    chunksOf k B = encodeChunk Config.encPolicy (B.take k) ++ chunksOf k (B.drop k) := by
  rw [chunksOf, blocks_cons hk hB]
  rfl

/-- Full blocks in front do not disturb the chunks of the bytes behind them. -/
theorem chunksOf_append {k : Nat} (hk : 1 ≤ k) {a : List Byte} (b : List Byte) (ha : k ∣ a.length) :
    chunksOf k (a ++ b) = chunksOf k a ++ chunksOf k b := by
  rw [chunksOf, blocks_append hk a b ha, List.map_append, List.flatten_append]
  rfl

/-- What W_FLUSH and W_CLOSE forward is the chunks of the bytes buffered. -/
theorem partialChunk_eq_chunksOf {k : Nat} {buf : List Byte} (hb : buf.length < k) :
    partialChunk Config.encPolicy buf = chunksOf k buf := by
  by_cases hne : buf = []
  · subst hne; rfl
  · rw [partialChunk_of_ne_nil _ hne, chunksOf_cons (by omega) hne, List.take_of_length_le hb.le,
      List.drop_eq_nil_of_le hb.le]
    exact (List.append_nil _).symm

/-- The chunks of an input's blocks decode to the input, for every block size a Writer may have. -/
theorem decodeAll_chunksOf {k : Nat} (h1 : 1 ≤ k) (h2 : k ≤ 65535) (B : List Byte) :
    decodeAll (chunksOf k B) = .ok B := by
  induction B using blocks_induction h1 with
  | nil => rfl
  | cons B hB ih =>
    have hpos := List.length_pos_iff.mpr hB
    have hfirst : decodeAll (encodeChunk Config.encPolicy (B.take k)) = .ok (B.take k) :=
      decodeAll_encodeChunk _ (by rw [List.length_take]; omega) (by rw [List.length_take]; omega)
    rw [chunksOf_cons h1 hB, decodeAll_append hfirst, ih]
    exact congrArg Except.ok (List.take_append_drop k B)

/-- Settles O46: the byte loop forwards the chunks of the full blocks and keeps the rest. -/
theorem writeForwardsFullBlocks : Obligations.WriteForwardsFullBlocks := by
  intro s h d w hw hst hb B k
  have hk : 1 ≤ k := Nat.zero_lt_of_lt hb
  have hmoves := completeWriter_movesWriter h s
    { w with buf := (writeBytes Config.encPolicy k w.buf d).2 } (writeBytes Config.encPolicy k w.buf d).1
  rw [exec_wWrite hw, writeTo_opened d hst]
  rwa [writeBytes_eq _ d w.buf hb, blocks_take_full hk (Nat.mul_div_le _ _), List.map_map] at hmoves ⊢


/-! ## Sequences of operations -/

theorem operates_append {s t u : State} {is js : List Instr} {rs rs' : List Result} (his : operates s is rs t)
    (hjs : operates t js rs' u) : operates s (is ++ js) (rs ++ rs') u := by
  induction is generalizing s rs with
  | nil =>
    obtain ⟨rfl, rfl⟩ := his
    exact hjs
  | cons i is ih =>
    obtain ⟨v, qs, hi, rfl, hrest⟩ := his
    exact ⟨v, qs ++ rs', hi, rfl, ih hrest⟩

theorem operates_singleton {s t : State} {i : Instr} (hi : exec i s = .next t) : operates s [i] [t.result] t :=
  ⟨t, [], hi, rfl, rfl, rfl⟩

/-- There is one result per operation. -/
theorem operates_length {s t : State} {is : List Instr} {rs : List Result} (h : operates s is rs t) :
    rs.length = is.length := by
  induction is generalizing s rs with
  | nil =>
    obtain ⟨rfl, -⟩ := h
    rfl
  | cons i is ih =>
    obtain ⟨v, qs, -, rfl, hrest⟩ := h
    exact congrArg (· + 1) (ih hrest)

/-! ## A stream written in pieces (R208) -/

/-- From `s` to `t`, no entry of the table but that at `h` has changed, and no sink has been released. -/
structure LeavesOthers (h : Nat) (s t : State) : Prop where
  instances : ∀ g, g ≠ h → t.instances[g]? = s.instances[g]?
  releasedSinks : t.releasedSinks = s.releasedSinks

theorem LeavesOthers.refl (h : Nat) (s : State) : LeavesOthers h s s := ⟨fun _ _ => rfl, rfl⟩

theorem LeavesOthers.trans {h : Nat} {s t u : State} (hst : LeavesOthers h s t) (htu : LeavesOthers h t u) :
    LeavesOthers h s u :=
  ⟨fun g hg => (htu.instances g hg).trans (hst.instances g hg), htu.releasedSinks.trans hst.releasedSinks⟩

theorem leavesOthers_completeWriter (h : Nat) (s : State) (w : WriterInst) (bs : List Byte) :
    LeavesOthers h s (completeWriter h s w bs) where
  instances g hg := by rw [completeWriter_instances, List.getElem?_set_ne hg.symm]
  releasedSinks := completeWriter_releasedSinks h s w bs

/-- What is opened takes the next place of the table and leaves every other alone. -/
theorem leavesOthers_addInst (s : State) (i : Inst) (r : Result) :
    LeavesOthers s.instances.length s ((s.addInst i).complete r) where
  instances g hg := by
    rw [State.complete_instances, State.addInst_instances]
    rcases Nat.lt_or_gt_of_ne hg with hlt | hgt
    · exact List.getElem?_append_left hlt
    · rw [List.getElem?_eq_none (by simpa using hgt), List.getElem?_eq_none hgt.le]
  releasedSinks := rfl

/-- `w` is an OPEN Writer of block size `k` through which `B` has been written: its sink holds what it held first and the
chunks of the full blocks of `B`, and its buffer the rest of `B` (R201, R203). -/
structure HasTaken (k : Nat) (sink B : List Byte) (w : WriterInst) : Prop where
  opened : w.state = .opened
  block : w.block.toNat = k
  buf_lt : w.buf.length < k
  forwarded : ∃ full, k ∣ full.length ∧ full ++ w.buf = B ∧ w.sink = sink ++ chunksOf k full

/-- A Writer that has just been opened has taken nothing. -/
theorem hasTaken_newWriter {k : Nat} (h1 : 1 ≤ k) (h2 : k ≤ 65535) (sink : List Byte) :
    HasTaken k sink [] (newWriter sink k) :=
  ⟨rfl, lengthField_toNat h2, h1, [], Nat.dvd_zero k, rfl, (List.append_nil sink).symm⟩

/-- The byte loop takes `d` behind what has been taken before. -/
theorem HasTaken.append {k : Nat} {sink B : List Byte} {w : WriterInst} (hB : HasTaken k sink B w) (d : List Byte) :
    HasTaken k sink (B ++ d) (forward { w with buf := (writeBytes Config.encPolicy w.block.toNat w.buf d).2 }
      (writeBytes Config.encPolicy w.block.toNat w.buf d).1) := by
  obtain ⟨hst, hblock, hbuf, full, hfull, rfl, hsink⟩ := hB
  have hk : 1 ≤ k := Nat.zero_lt_of_lt hbuf
  have hle : k * ((w.buf ++ d).length / k) ≤ (w.buf ++ d).length := Nat.mul_div_le _ _
  rw [hblock]
  refine ⟨hst, hblock, writeBytes_buf_length _ d w.buf hbuf,
    full ++ (w.buf ++ d).take (k * ((w.buf ++ d).length / k)), ?_, ?_, ?_⟩
  · rw [List.length_append, List.length_take, min_eq_left hle]
    exact Nat.dvd_add hfull (Nat.dvd_mul_right ..)
  · rw [writeBytes_eq _ d w.buf hbuf, forward_buf, List.append_assoc, List.take_append_drop, List.append_assoc]
  · rw [writeBytes_eq _ d w.buf hbuf, forward_sink, hsink, List.append_assoc, chunksOf_append hk _ hfull]
    rfl

/-- With the partial block, the sink holds the chunks of every block of what has been taken. -/
theorem HasTaken.sink_partialChunk {k : Nat} {sink B : List Byte} {w : WriterInst} (hB : HasTaken k sink B w) :
    w.sink ++ partialChunk Config.encPolicy w.buf = sink ++ chunksOf k B := by
  obtain ⟨-, -, hbuf, full, hfull, rfl, hsink⟩ := hB
  rw [partialChunk_eq_chunksOf hbuf, hsink, List.append_assoc, chunksOf_append (Nat.zero_lt_of_lt hbuf) _ hfull]

section stream

variable {k h : Nat} {sink B : List Byte} {s : State} {w : WriterInst}
  (hw : s.instances[h]? = some (.writer w)) (hB : HasTaken k sink B w)
include hw hB

/-- Writing any pieces through a Writer completes, and the Writer has taken them all, in order. -/
theorem operates_writes (pieces : List (List Byte)) :
    ∃ rs t w', operates s (pieces.map (Instr.wWrite h)) rs t ∧ LeavesOthers h s t ∧
      t.instances[h]? = some (.writer w') ∧ HasTaken k sink (B ++ pieces.flatten) w' := by
  induction pieces generalizing s w B with
  | nil => exact ⟨[], s, w, ⟨rfl, rfl⟩, .refl h s, hw, by rwa [List.flatten_nil, List.append_nil]⟩
  | cons d pieces ih =>
    have hlt : h < s.instances.length := (List.getElem?_eq_some_iff.mp hw).1
    have hwrite := exec_wWrite hw d
    rw [writeTo_opened d hB.opened] at hwrite
    obtain ⟨rs, t, w', hrun, hothers, hw', htaken⟩ :=
      ih (by rw [completeWriter_instances, List.getElem?_set_self hlt]) (hB.append d)
    rw [List.append_assoc, ← List.flatten_cons] at htaken
    exact ⟨_, t, w', ⟨_, rs, hwrite, rfl, hrun⟩, (leavesOthers_completeWriter ..).trans hothers, hw', htaken⟩

/-- Closing the Writer completes, and its sink holds the chunks of every block of what it has taken (R205). -/
theorem exec_wClose_hasTaken :
    ∃ t, exec (.wClose h) s = .next t ∧ LeavesOthers h s t ∧ sinkOf t h = some (sink ++ chunksOf k B) := by
  have hlt : h < s.instances.length := (List.getElem?_eq_some_iff.mp hw).1
  have hclose := exec_wClose hw
  rw [closeWriter_opened hB.opened] at hclose
  refine ⟨_, hclose, leavesOthers_completeWriter .., ?_⟩
  rw [← hB.sink_partialChunk, sinkOf, completeWriter_instances, List.getElem?_set_self hlt]
  rfl

end stream

/-- Settles O50: the Writer takes the pieces as one sequence, whatever their lengths, and closing it forwards what is
left of that sequence. -/
theorem streamingEqualsBlock : Obligations.StreamingEqualsBlock := by
  intro s sink k pieces h1 h2 h B E
  have hE : E = chunksOf k B := (chunksOf_eq_range h1 B).symm
  obtain ⟨rs, t, w, hwrites, hothers, hw, htaken⟩ :=
    operates_writes (s := (s.addInst (.writer (newWriter sink k))).complete (.handle h))
      List.getElem?_concat_length (hasTaken_newWriter h1 h2 sink) pieces
  obtain ⟨u, hclose, hothers', hsink⟩ := exec_wClose_hasTaken hw htaken
  have hall := (leavesOthers_addInst ..).trans (hothers.trans hothers')
  refine ⟨_, u, ⟨_, _, exec_wOpen h1 h2 sink s, rfl, operates_append hwrites (operates_singleton hclose)⟩, ?_,
    fun g hg => congrArg (·.bind Inst.sink) (hall.instances g hg), hall.releasedSinks, ?_, fun hk => ?_⟩
  · rw [hE]
    exact hsink
  · rw [hE]
    exact decodeAll_chunksOf h1 h2 B
  · rw [hE, hk]
    exact chunksOf_maxChunk B


/-! ## The Reader operations (R210 to R219) -/

/-- Settles O51: R_OPEN's next state is its definition. -/
theorem readerOpens : Obligations.ReaderOpens := fun s _ => returnsWith_addInst s _ _

section reader

variable {s : State} {h : Nat} {r : ReaderInst} (hr : s.instances[h]? = some (.reader r))
include hr

theorem exec_rRead (k : Nat) : exec (.rRead h k) s = .next (readFrom h k s r) := onReader_of hr _

theorem exec_rClose : exec (.rClose h) s = .next (closeReader h s r) := onReader_of hr _

end reader

theorem returnsWith_serve (h k : Nat) (s : State) (r : ReaderInst) :
    returnsWith (.next (serve h k s r)) s (.bytes ((r.buf.drop r.pos).take (min k (r.buf.length - r.pos))))
      (s.instances.set h (.reader { r with pos := r.pos + min k (r.buf.length - r.pos) })) := by
  rw [serve, slice_add]
  exact returnsWith_setInst ..

section opened

variable {s : State} {h k : Nat} {r : ReaderInst} (hst : r.state = .opened)
include hst

theorem readFrom_capacity_zero : readFrom h 0 s r = s.complete (.bytes []) := by
  rw [readFrom_opened hst, if_pos rfl]

theorem readFrom_undrained (hk : 1 ≤ k) (hpos : r.pos < r.buf.length) : readFrom h k s r = serve h k s r := by
  rw [readFrom_opened hst, if_neg (by omega), if_neg (by omega)]

theorem readFrom_drained (hk : 1 ≤ k) (hpos : r.pos = r.buf.length) : readFrom h k s r = readDrained h k s r := by
  rw [readFrom_opened hst, if_neg (by omega), if_pos hpos]

end opened

theorem readDrained_exhausted {h k : Nat} {s : State} {r : ReaderInst} (hsrc : r.srcPos = r.src.length) :
    readDrained h k s r = (s.setInst h (.reader { r with state := .eof, buf := [], pos := 0 })).complete .endSignal :=
  if_pos hsrc

theorem readDrained_chunk {h k : Nat} {s : State} {r : ReaderInst} {chunk : List Byte} {next : Nat}
    (hsrc : r.srcPos < r.src.length) (hc : decodeChunk r.src r.srcPos = .ok (chunk, next)) :
    readDrained h k s r = serve h k s.leaveOwnDecoder { r with buf := chunk, pos := 0, srcPos := next } := by
  rw [readDrained, if_neg hsrc.ne, hc]

theorem readDrained_error {h k : Nat} {s : State} {r : ReaderInst} {e : Raise} (hsrc : r.srcPos < r.src.length)
    (hc : decodeChunk r.src r.srcPos = .error e) : readDrained h k s r = failReader h s.leaveOwnDecoder r e := by
  rw [readDrained, if_neg hsrc.ne, hc]

/-- Settles O52: the states of the Reader, and in OPEN the capacity and the position. -/
theorem readServesWithoutFetching : Obligations.ReadServesWithoutFetching := by
  intro s h k r hr
  rw [exec_rRead hr]
  refine ⟨fun hst => ?_, fun hst => ?_, fun hst => ?_, fun hst hk => ?_, fun hst hk hpos => ?_,
    fun hst hk hpos hsrc => ?_⟩
  · rw [readFrom_closed hst]
    exact raisesOnly_raise ..
  · rw [readFrom_error hst]
    exact raisesOnly_raiseCode ..
  · rw [readFrom_eof hst]
    exact returnsWith_complete ..
  · rw [hk, readFrom_capacity_zero hst]
    exact returnsWith_complete ..
  · rw [readFrom_undrained hst hk hpos]
    exact returnsWith_serve ..
  · rw [readFrom_drained hst hk hpos, readDrained_exhausted hsrc]
    exact returnsWith_setInst ..

/-- Settles O53: a chunk that decodes has at least one byte and ends inside the source, and what the fetch leaves in the
decode unit is what an operation with a decoder of its own leaves there. -/
theorem readFetchesOneChunk : Obligations.ReadFetchesOneChunk := by
  intro s h k r hr hst hk hpos hsrc
  obtain ⟨d, c, hleaves, hs⟩ := s.leaveOwnDecoder_eq
  rw [exec_rRead hr, readFrom_drained hst hk hpos]
  refine ⟨fun chunk next hc => ?_, fun e hc => ?_⟩
  · obtain ⟨-, -, -, -, hlt, hle, hchunk, -⟩ := decodeChunk_ok hc
    refine ⟨hchunk, hlt, hle, d, c, hleaves, ?_⟩
    have hserve := returnsWith_serve h k s.leaveOwnDecoder { r with buf := chunk, pos := 0, srcPos := next }
    rw [Nat.sub_zero, Nat.zero_add, List.drop_zero, hs] at hserve
    rw [readDrained_chunk hsrc hc, hs]
    exact hserve
  · obtain ⟨h1, h3⟩ := decodeChunk_error_kind hc
    refine ⟨h1, h3, d, c, hleaves, ?_⟩
    rw [readDrained_error hsrc hc, hs]
    rfl

/-- Settles O54: a Reader that is not CLOSED, and one that is. -/
theorem readerCloses : Obligations.ReaderCloses := by
  intro s h r hr
  rw [exec_rClose hr]
  refine ⟨fun hst => ?_, fun hst => ?_⟩
  · rw [closeReader_other hst]
    exact returnsWith_setInst ..
  · rw [closeReader_closed hst]
    exact returnsWith_complete ..


/-! ## What a source still holds, chunk by chunk (R109, R170, R171) -/

/-- From the chunk boundary `cp` on, the chunks of `src` give the bytes `X`, and then the source ends or a chunk fails. -/
inductive Yields (src : List Byte) : Nat → List Byte → Option Raise → Prop where
  | done : Yields src src.length [] none
  | failed {cp : Nat} {e : Raise} (hlt : cp < src.length) (hc : decodeChunk src cp = .error e) :
      Yields src cp [] (some e)
  | chunk {cp next : Nat} {chunk X : List Byte} {o : Option Raise} (hlt : cp < src.length)
      (hc : decodeChunk src cp = .ok (chunk, next)) (rest : Yields src next X o) : Yields src cp (chunk ++ X) o

theorem exists_yields {src : List Byte} (cp : Nat) (hle : cp ≤ src.length) : ∃ X o, Yields src cp X o := by
  induction cp using chunks_induction (n := src.length) with
  | finish cp hge =>
    obtain rfl := hle.antisymm hge
    exact ⟨_, _, .done⟩
  | chunk cp hlt ih =>
    cases hc : decodeChunk src cp with
    | error e => exact ⟨_, _, .failed hlt hc⟩
    | ok q =>
      obtain ⟨chunk, next⟩ := q
      obtain ⟨-, -, -, -, hpos, hnext, -⟩ := decodeChunk_ok hc
      obtain ⟨X, o, hX⟩ := ih next hpos hnext
      exact ⟨_, _, .chunk hlt hc hX⟩

/-- What DECODE answers when the chunks give `X` and then the source ends or a chunk fails (R171, R187). -/
def decodeAnswer (X : List Byte) : Option Raise → Except Raise (List Byte)
  | none => .ok X
  | some e => .error e

theorem prependOk_decodeAnswer (chunk X : List Byte) (o : Option Raise) :
    prependOk chunk (decodeAnswer X o) = decodeAnswer (chunk ++ X) o := by
  cases o <;> rfl

theorem Yields.decodeRest_eq {src X : List Byte} {cp : Nat} {o : Option Raise} (h : Yields src cp X o) :
    decodeRest src cp = decodeAnswer X o := by
  induction h with
  | done => exact decodeRest_end le_rfl
  | failed hlt hc => rw [decodeRest_step hlt, hc]; rfl
  | chunk hlt hc _ ih =>
    rw [decodeRest_step hlt, hc, ← prependOk_decodeAnswer, ← ih]

/-- Before the chunk that fails the source is a valid encoded buffer of the bytes given. -/
theorem Yields.cut {src X : List Byte} {cp : Nat} {e : Raise} (h : Yields src cp X (some e)) :
    ∃ cut, cp ≤ cut ∧ cut < src.length ∧ decodeRest (src.take cut) cp = .ok X ∧
      decodeChunk src cut = .error e := by
  generalize ho : some e = o at h
  induction h with
  | done => exact absurd ho (by simp)
  | @failed cp e' hlt hc =>
    obtain rfl := Option.some.inj ho
    exact ⟨cp, le_rfl, hlt, decodeRest_end (List.length_take_le ..), hc⟩
  | @chunk cp next chunk X o hlt hc rest ih =>
    obtain ⟨cut, hle, hcut, hrest, herr⟩ := ih ho
    obtain ⟨-, -, -, -, hpos, -⟩ := decodeChunk_ok hc
    have hlen : (src.take cut).length = cut := List.length_take_of_le hcut.le
    rw [← List.take_append_drop cut src] at hc
    refine ⟨cut, by omega, hcut, ?_, herr⟩
    rw [decodeRest_step (by omega), decodeChunk_of_append hc (by omega)]
    exact congrArg (prependOk chunk) hrest

/-! ## A Reader's reads serve what its source holds (R221) -/

/-- How a read ends that has nothing to serve: END, or an error of the kind of the chunk that failed (R214, R216). -/
def EndsRead : Option Raise → Result → Prop
  | none, res => res = .endSignal
  | some e, res => ∃ p, res = .error e.kind.code p

/-- What reads of a Reader that still owes `X` return: bytes from the front of `X` while there are any, at least one
byte each, and then only the end. -/
inductive Serves (o : Option Raise) : List Byte → List Result → Prop where
  | nil (X : List Byte) : Serves o X []
  | bytes {bs X : List Byte} {rs : List Result} (hbs : 1 ≤ bs.length) (rest : Serves o X rs) :
      Serves o (bs ++ X) (.bytes bs :: rs)
  | ended {res : Result} {rs : List Result} (hres : EndsRead o res) (rest : Serves o [] rs) : Serves o [] (res :: rs)

theorem served_cons_of_endsRead {o : Option Raise} {res : Result} (h : EndsRead o res) (rs : List Result) :
    served (res :: rs) = served rs := by
  cases o with
  | none =>
    obtain rfl : res = .endSignal := h
    rfl
  | some e =>
    obtain ⟨p, rfl⟩ := h
    rfl

theorem Serves.served_isPrefix {o : Option Raise} {X : List Byte} {rs : List Result} (h : Serves o X rs) :
    served rs <+: X := by
  induction h with
  | nil X => exact List.nil_prefix
  | bytes _ _ ih => exact (List.prefix_append_right_inj _).mpr ih
  | ended hres _ ih => rwa [served_cons_of_endsRead hres]

/-- A read that serves nothing comes only after all is served. -/
theorem Serves.ends_of_not_bytes {o : Option Raise} {X : List Byte} {rs : List Result} (h : Serves o X rs) {res : Result}
    (hmem : res ∈ rs) (hne : ∀ bs, res ≠ .bytes bs) : EndsRead o res ∧ served rs = X := by
  induction h with
  | nil X => exact absurd hmem List.not_mem_nil
  | bytes _ _ ih =>
    obtain ⟨hres, hall⟩ := ih (List.mem_of_ne_of_mem (hne _) hmem)
    exact ⟨hres, congrArg _ hall⟩
  | @ended res' rs hres' rest ih =>
    refine ⟨?_, List.prefix_nil.mp (Serves.ended hres' rest).served_isPrefix⟩
    obtain rfl | hmem := List.mem_cons.mp hmem
    · exact hres'
    · exact (ih hmem).1

/-- More reads than there are bytes to serve reach the end. -/
theorem Serves.reaches_end {o : Option Raise} {X : List Byte} {rs : List Result} (h : Serves o X rs)
    (hlen : X.length < rs.length) : ∃ res ∈ rs, EndsRead o res := by
  induction h with
  | nil X => exact absurd hlen (Nat.not_lt_zero _)
  | bytes hbs _ ih =>
    rw [List.length_append, List.length_cons] at hlen
    obtain ⟨res, hmem, hres⟩ := ih (by omega)
    exact ⟨res, List.mem_cons_of_mem _ hmem, hres⟩
  | ended hres _ => exact ⟨_, List.mem_cons_self, hres⟩

/-- What the Reader `r` still owes its caller: the bytes `X`, then the end that `o` says. -/
inductive Owes : ReaderInst → List Byte → Option Raise → Prop where
  | opened {r : ReaderInst} {X : List Byte} {o : Option Raise} (hst : r.state = .opened) (hpos : r.pos ≤ r.buf.length)
      (hX : Yields r.src r.srcPos X o) : Owes r (r.buf.drop r.pos ++ X) o
  | eof {r : ReaderInst} (hst : r.state = .eof) : Owes r [] none
  | error {r : ReaderInst} {e : Raise} (hst : r.state = .error) (herr : r.err = e.kind.code) : Owes r [] (some e)

/-- What one read does to a Reader that owes `X`: it serves from the front of `X`, or `X` is empty and it ends. -/
def ReadsFrom (h : Nat) (X : List Byte) (o : Option Raise) (t : State) : Prop :=
  ∃ r', t.instances[h]? = some (.reader r') ∧
    ((∃ bs X', t.result = .bytes bs ∧ 1 ≤ bs.length ∧ X = bs ++ X' ∧ Owes r' X' o) ∨
      (X = [] ∧ EndsRead o t.result ∧ Owes r' [] o))

/-- Serving from a buffer that is not drained. -/
theorem readsFrom_serve {h k : Nat} {s : State} {r : ReaderInst} {X : List Byte} {o : Option Raise}
    (hlt : h < s.instances.length) (hk : 1 ≤ k) (hst : r.state = .opened) (hpos : r.pos < r.buf.length)
    (hX : Yields r.src r.srcPos X o) : ReadsFrom h (r.buf.drop r.pos ++ X) o (serve h k s r) := by
  refine ⟨_, List.getElem?_set_self hlt, .inl ⟨_, _, rfl, ?_, ?_, .opened hst ?_ hX⟩⟩
  · rw [slice_add, List.length_take, List.length_drop]
    omega
  · rw [slice_add, ← List.append_assoc, ← List.drop_drop, List.take_append_drop]
  · show r.pos + min k (r.buf.length - r.pos) ≤ r.buf.length
    omega

/-- A read with the buffer drained ends, or serves from the next chunk. -/
theorem readsFrom_readDrained {h k : Nat} {s : State} {r : ReaderInst} {X : List Byte} {o : Option Raise}
    (hlt : h < s.instances.length) (hk : 1 ≤ k) (hst : r.state = .opened) (hX : Yields r.src r.srcPos X o) :
    ReadsFrom h X o (readDrained h k s r) := by
  generalize hcp : r.srcPos = cp at hX
  cases hX with
  | done =>
    rw [readDrained_exhausted hcp]
    exact ⟨_, List.getElem?_set_self hlt, .inr ⟨rfl, rfl, .eof rfl⟩⟩
  | failed hsrc hc =>
    subst hcp
    rw [readDrained_error hsrc hc]
    exact ⟨_, List.getElem?_set_self (by simpa using hlt), .inr ⟨rfl, ⟨_, rfl⟩, .error rfl rfl⟩⟩
  | chunk hsrc hc rest =>
    subst hcp
    obtain ⟨-, -, -, -, -, -, hchunk, -⟩ := decodeChunk_ok hc
    rw [readDrained_chunk hsrc hc]
    exact readsFrom_serve (by simpa using hlt) hk hst hchunk rest

/-- A read of a Reader completes and serves from what the Reader owes, or ends. -/
theorem readsFrom_readFrom {h k : Nat} {s : State} {r : ReaderInst} {X : List Byte} {o : Option Raise}
    (hr : s.instances[h]? = some (.reader r)) (hk : 1 ≤ k) (howes : Owes r X o) :
    ReadsFrom h X o (readFrom h k s r) := by
  have hlt : h < s.instances.length := (List.getElem?_eq_some_iff.mp hr).1
  cases howes with
  | opened hst hpos hX =>
    rcases Nat.eq_or_lt_of_le hpos with hdrained | hleft
    · rw [readFrom_drained hst hk hdrained, List.drop_eq_nil_of_le hdrained.ge, List.nil_append]
      exact readsFrom_readDrained hlt hk hst hX
    · rw [readFrom_undrained hst hk hleft]
      exact readsFrom_serve hlt hk hst hleft hX
  | eof hst =>
    rw [readFrom_eof hst]
    exact ⟨r, hr, .inr ⟨rfl, rfl, .eof hst⟩⟩
  | error hst herr =>
    rw [readFrom_error hst]
    exact ⟨r, hr, .inr ⟨rfl, ⟨0, by rw [State.raiseCode_result, herr]⟩, .error hst herr⟩⟩

/-- Reads with capacities of at least 1 complete, and serve what the Reader owes. -/
theorem operates_reads {h : Nat} {s : State} {r : ReaderInst} {X : List Byte} {o : Option Raise}
    (hr : s.instances[h]? = some (.reader r)) (howes : Owes r X o) {ks : List Nat} (hks : ∀ k ∈ ks, 1 ≤ k) :
    ∃ rs t, operates s (ks.map (Instr.rRead h)) rs t ∧ Serves o X rs := by
  induction ks generalizing s r X with
  | nil => exact ⟨[], s, ⟨rfl, rfl⟩, .nil X⟩
  | cons k ks ih =>
    obtain ⟨hk, hks⟩ := List.forall_mem_cons.mp hks
    obtain ⟨r', hr', ⟨bs, X', hres, hbs, rfl, howes'⟩ | ⟨rfl, hres, howes'⟩⟩ := readsFrom_readFrom hr hk howes
    · obtain ⟨rs, t, hrun, hserves⟩ := ih hr' howes' hks
      exact ⟨_, t, ⟨_, rs, exec_rRead hr k, rfl, hrun⟩, hres ▸ .bytes hbs hserves⟩
    · obtain ⟨rs, t, hrun, hserves⟩ := ih hr' howes' hks
      exact ⟨_, t, ⟨_, rs, exec_rRead hr k, rfl, hrun⟩, .ended hres hserves⟩

/-- Settles O55: a new Reader owes what the chunks of its source give, and so what DECODE gives. -/
theorem readerEqualsDecode : Obligations.ReaderEqualsDecode := by
  intro s src ks hks h
  obtain ⟨X, o, hX⟩ := exists_yields (src := src) 0 (Nat.zero_le _)
  obtain ⟨rs, t, hrun, hserves⟩ := operates_reads
    (s := (s.addInst (.reader
      { state := .opened, buf := [], pos := 0, srcPos := 0, err := 0#3, src := src })).complete (.handle h))
    List.getElem?_concat_length (.opened rfl le_rfl hX) hks
  have hlen : rs.length = ks.length := by rw [operates_length hrun, List.length_map]
  have hdecode : decodeAll src = decodeAnswer X o := hX.decodeRest_eq
  refine ⟨rs, t, ⟨_, rs, rfl, rfl, hrun⟩, fun B hB => ?_, fun e he => ?_⟩
  · cases o with
    | some e => simp [hdecode, decodeAnswer] at hB
    | none =>
      obtain rfl : X = B := Except.ok.inj (hdecode.symm.trans hB)
      refine ⟨hserves.served_isPrefix, fun c p hmem => ?_, fun hmem => ?_, fun hmore => ?_⟩
      · exact nomatch (hserves.ends_of_not_bytes hmem (by simp)).1
      · exact (hserves.ends_of_not_bytes hmem (by simp)).2
      · obtain ⟨res, hmem, rfl⟩ := hserves.reaches_end (by simpa [hlen] using hmore)
        exact hmem
  · cases o with
    | none => simp [hdecode, decodeAnswer] at he
    | some e' =>
      obtain rfl : e' = e := Except.error.inj (hdecode.symm.trans he)
      obtain ⟨cut, -, -, hcut, herr⟩ := hX.cut
      refine ⟨fun hmem => ?_, X, cut, hcut, herr, hserves.served_isPrefix, fun c p hmem => ?_, fun hmore => ?_⟩
      · exact nomatch (hserves.ends_of_not_bytes hmem (by simp)).1
      · obtain ⟨⟨q, hq⟩, hall⟩ := hserves.ends_of_not_bytes hmem (by simp)
        injection hq with hc hp
        exact ⟨hc, hall⟩
      · obtain ⟨res, hmem, p, rfl⟩ := hserves.reaches_end (by simpa [hlen] using hmore)
        exact ⟨p, hmem⟩

end Sys2Proof.Machine

/-! # Proofs: exceptions (60_exceptions.md)

The block has no asynchronous event (R239), so with no DECODE in progress and nothing issued there is nothing for a step
to act on; that it then waits is the model's choice (log entry 9). -/

namespace Sys2Proof.Machine

theorem nextAction_nothingIssued {s : State} (hp : s.decoder.phase = .idle) (hi : s.inputs = []) :
    nextAction s = .wait := by
  simp [nextAction, hp, hi]

/-- Settles O6: the next action is to wait, and a step that waits answers its own state. -/
theorem idleBlockWaits : Obligations.IdleBlockWaits := by
  intro s hp hi
  have hwait : nextAction s = .wait := nextAction_nothingIssued hp hi
  simp only [step, hwait]

end Sys2Proof.Machine

/-! # Proofs: reset and hazards (70_reset_and_hazards.md)

What a reset input leaves (R260, R269), and the refusal of an operation whose handle names no instance, or one of the
wrong kind (R267). -/

namespace Sys2Proof.Machine

/-- With no DECODE in progress, a reset that is issued next is taken from the inputs and done in one step. -/
theorem step_resetInput {s : State} {rest : List HostInput} (hp : s.decoder.phase = .idle)
    (hi : s.inputs = .reset :: rest) : step s = .next { s with inputs := rest }.afterReset := by
  have hreset : nextAction s = .reset := by simp only [nextAction, hp, hi]
  have htaken : consume s = { s with inputs := rest } := by simp only [consume, hp, hi, List.tail_cons]
  simp only [step, hreset, htaken]

/-- Settles O4: the step answers the state after the reset, whose fields are as stated. -/
theorem resetInputDestroysInstances : Obligations.ResetInputDestroysInstances := by
  intro s rest hp hi
  exact ⟨_, step_resetInput hp hi, State.afterReset_instances _, State.afterReset_status _, State.afterReset_result _,
    State.afterReset_releasedSinks _, State.afterReset_inputs _, freeDecodeUnit_phase s.freeCount⟩

section refusal

variable {s : State} {h : Nat}

theorem onWriter_unknownHandle (hn : s.instances[h]? = none) (k : WriterInst → State) :
    onWriter s h k = .refused .unknownHandle := by
  simp only [onWriter, writerAt, hn]

theorem onReader_unknownHandle (hn : s.instances[h]? = none) (k : ReaderInst → State) :
    onReader s h k = .refused .unknownHandle := by
  simp only [onReader, readerAt, hn]

theorem onWriter_wrongHandleKind {r : ReaderInst} (hr : s.instances[h]? = some (.reader r)) (k : WriterInst → State) :
    onWriter s h k = .refused .wrongHandleKind := by
  simp only [onWriter, writerAt, hr]

theorem onReader_wrongHandleKind {w : WriterInst} (hw : s.instances[h]? = some (.writer w)) (k : ReaderInst → State) :
    onReader s h k = .refused .wrongHandleKind := by
  simp only [onReader, readerAt, hw]

/-- Each of the five operations on a handle looks for its instance first, so none that is missing is operated on. -/
theorem instanceOp_unknownHandle {i : Instr} (hi : onHandle i = some h) (hn : s.instances[h]? = none) :
    exec i s = .refused .unknownHandle := by
  cases i with
  | lit | refS | refL | hdrRaw | hdrComp | encode | decode | wOpen | rOpen => simp [onHandle] at hi
  | wWrite | wFlush | wClose => obtain rfl := Option.some.inj hi; exact onWriter_unknownHandle hn _
  | rRead | rClose => obtain rfl := Option.some.inj hi; exact onReader_unknownHandle hn _

end refusal

/-- Settles O11: a handle names nothing, a Reader or a Writer, and each operation is refused where it finds nothing or
the other kind. -/
theorem unknownAndWrongHandlesAreRefused : Obligations.UnknownAndWrongHandlesAreRefused := by
  intro s h
  refine ⟨fun hn i hi => instanceOp_unknownHandle hi hn, fun r hr => ⟨fun d => ?_, ?_, ?_⟩,
    fun w hw => ⟨fun k => ?_, ?_⟩⟩
  · exact onWriter_wrongHandleKind hr (writeTo h d s)
  · exact onWriter_wrongHandleKind hr (flushWriter h s)
  · exact onWriter_wrongHandleKind hr (closeWriter h s)
  · exact onReader_wrongHandleKind hw (readFrom h k s)
  · exact onReader_wrongHandleKind hw (closeReader h s)

end Sys2Proof.Machine
